-- ==== Sys2Proof/Word.lean ====
section
/-! DEFINITION. Word.lean: the words of the block: bytes (R51), 32-bit command words (R70), and the 64-bit words of
the widest lanes and of Ascon (R8). -/

namespace Sys2Proof

/-- A byte is 8 bits (R51). -/
abbrev Byte := BitVec 8

/-- A command word: a 32-bit value, not a byte string (R70). -/
abbrev CmdWord := BitVec 32

/-- A lane of K1600, or a word of the Ascon state (R8). -/
abbrev Word64 := BitVec 64

end Sys2Proof
end

