-- ==== Sys2Proof/Config.lean ====
section
/-! DEFINITION. Config.lean: the permutation variants (R8) and the parameters a model takes as arguments (R11).
The numeric tables of the permutations stand with the permutations, in Machine/Keccak.lean and Machine/Ascon.lean.
No value of this spec is undefined, so there is no free value here. -/

namespace Sys2Proof

/-- The permutation variants, one per row of the table of R8, in the order of their codes 0 to 4. -/
inductive Variant where
  | k1600
  | k800
  | k400
  | k200
  | ascon
deriving DecidableEq, Repr

/-- The two settings of the parameter `ASCON_BYTE_ORDER` (R11, R57). -/
inductive ByteOrder where
  | big
  | little
deriving DecidableEq, Repr

/-- The parameters of a block, fixed for its lifetime (R11). They are carried by the machine's state so that a
statement about every state is a statement about every setting of them; no step writes them. DESIGN CHOICE, safe: log 4. -/
structure Params where
  /-- `ASCON_BYTE_ORDER` (R57). -/
  asconOrder : ByteOrder
  /-- `TREE_COUNT_BITS` (R45). -/
  treeCountBits : Nat
  /-- `LEAF_WORKERS`, at least 1. It has no effect: the architecture is the one-leaf machine, and every value gives the same
  outputs (R226). DEDUCED, safe: log 8. -/
  leafWorkers : Nat
deriving DecidableEq, Repr

/-- The defaults of R11: `ASCON_BYTE_ORDER` = big, `TREE_COUNT_BITS` = 64, `LEAF_WORKERS` = 1. -/
def Params.default : Params := { asconOrder := .big, treeCountBits := 64, leafWorkers := 1 }

end Sys2Proof
end

