-- ==== Sys2Proof/Syntax.lean ====
section
/-! DEFINITION. Syntax.lean: the nine commands as syntax. A command is a word and a payload (R70); an instruction here
is what the pair says: the fields of the word that are not opcode, must-be-zero or a length, and the payload bytes
themselves, whose number is the length field (R78). DESIGN CHOICE, safe: log 1. -/

namespace Sys2Proof

/-- The construction identifier, the field `dom` (R73, R190), in the order of its codes 0 to 3. -/
inductive Dom where
  | hash
  | xof
  | custom
  | tree
deriving DecidableEq, Repr

/-- The commands, one constructor per row of the opcode table (R72). `var` is kept as its 3-bit code, because the
codes 5 to 7 are legal fields that name no variant (R82). -/
inductive Instr where
  /-- `CONFIG var, dom, rounds, rate` (R73, R152). -/
  | config (var : BitVec 3) (dom : Dom) (rounds : BitVec 5) (rate : BitVec 8)
  /-- `ABSORB` with its payload; `LEN` is the payload's length (R74, R160). -/
  | absorb (data : List Byte)
  /-- `FINISH` (R75, R163). -/
  | finish
  /-- `SQUEEZE LEN` (R74, R166). -/
  | squeeze (len : BitVec 28)
  /-- `RESET` (R75, R172). -/
  | reset
  /-- `DROP` (R75, R175). -/
  | drop
  /-- `CUSTOM` with its payload `N` then `S`; `NLEN` and `SLEN` are their lengths (R76, R194). -/
  | custom (name : List Byte) (cust : List Byte)
  /-- `PERMUTE var, rounds` with its payload; `LEN` is the payload's length (R77, R120). -/
  | permute (var : BitVec 3) (rounds : BitVec 5) (input : List Byte)
  /-- `STATUS` (R75, R178). -/
  | status
deriving DecidableEq, Repr

end Sys2Proof
end

