-- ==== Sys2Proof/WellFormed.lean ====
section
/-! DEFINITION. WellFormed.lean: which instructions a command word can express: the payload lengths fit their fields
(R11, R74, R76, R77). Every other operand is as wide as its field by its type. -/

namespace Sys2Proof

/-- The length fields can hold the payload lengths: `MAX_CMD_LEN` = 2^28 - 1, `MAX_STR_LEN` = 2^14 - 1 (R11),
and 255 for `PERMUTE` (R77). -/
def Instr.wellFormed : Instr → Bool
  | .config _ _ _ _ => true
  | .absorb data => decide (data.length < 2 ^ 28)
  | .finish => true
  | .squeeze _ => true
  | .reset => true
  | .drop => true
  | .custom name cust => decide (name.length < 2 ^ 14) && decide (cust.length < 2 ^ 14)
  | .permute _ _ input => decide (input.length < 2 ^ 8)
  | .status => true

end Sys2Proof
end

