-- ==== Sys2Proof/Decode.lean ====
section
/-! DEFINITION. Decode.lean: from command words and payloads to instructions, and back (30_encoding.md). Decoding is
total and rejects by name; a command carries a payload of exactly the length its word declares, by construction
(R78, R276 item 6). -/

namespace Sys2Proof

/-- Bits `[lo + n - 1 : lo]` of a command word (R12). -/
def field (w : CmdWord) (lo n : Nat) : BitVec n := w.extractLsb' lo n

/-- The rows of the opcode map (R72). -/
inductive Opcode where
  | config
  | absorb
  | finish
  | squeeze
  | reset
  | drop
  | custom
  | permute
  | status
deriving DecidableEq, Repr

/-- Why a word is illegal (R81). -/
inductive Illegal where
  /-- `op` is 0x0 or 0xA to 0xF. -/
  | unknownOpcode
  /-- a bit of a "zero, must be 0" field of the word's format is 1. -/
  | mustBeZero
deriving DecidableEq, Repr

/-- The opcode number, bits `[31:28]` (R72). -/
def Opcode.code : Opcode → BitVec 4
  | .config => 0x1
  | .absorb => 0x2
  | .finish => 0x3
  | .squeeze => 0x4
  | .reset => 0x5
  | .drop => 0x6
  | .custom => 0x7
  | .permute => 0x8
  | .status => 0x9

/-- The opcode map read the other way; 0x0 and 0xA to 0xF name no row (R72). -/
def opcodeOf (op : BitVec 4) : Option Opcode :=
  match op.toNat with
  | 1 => some .config
  | 2 => some .absorb
  | 3 => some .finish
  | 4 => some .squeeze
  | 5 => some .reset
  | 6 => some .drop
  | 7 => some .custom
  | 8 => some .permute
  | 9 => some .status
  | _ => none

/-- The must-be-zero fields of each format are zero: C bits 17:8 (R73), L none (R74), N bits 27:0 (R75), U none (R76),
P bits 24:23 and 17:8 (R77). -/
def mustBeZeroOk (op : Opcode) (w : CmdWord) : Bool :=
  match op with
  | .config => field w 8 10 == 0
  | .absorb => true
  | .finish => field w 0 28 == 0
  | .squeeze => true
  | .reset => field w 0 28 == 0
  | .drop => field w 0 28 == 0
  | .custom => true
  | .permute => field w 23 2 == 0 && field w 8 10 == 0
  | .status => field w 0 28 == 0

/-- Which row a word selects, or why it is illegal (R81, R83). -/
def decodeOp (w : CmdWord) : Except Illegal Opcode :=
  match opcodeOf (field w 28 4) with
  | none => .error .unknownOpcode
  | some op => if mustBeZeroOk op w then .ok op else .error .mustBeZero

/-- The payload length a word declares (R78); an illegal word has payload length 0 (R81). -/
def payloadLen (w : CmdWord) : Nat :=
  match decodeOp w with
  | .ok .absorb => (field w 0 28).toNat
  | .ok .custom => (field w 14 14).toNat + (field w 0 14).toNat
  | .ok .permute => (field w 0 8).toNat
  | .ok .config => 0
  | .ok .finish => 0
  | .ok .squeeze => 0
  | .ok .reset => 0
  | .ok .drop => 0
  | .ok .status => 0
  | .error _ => 0

/-- A command: a word and a payload of exactly the declared length (R70, R78). "A model's command is a word with a
payload of the declared length by construction" (R276). -/
structure Command where
  word : CmdWord
  payload : List Byte
  sized : payload.length = payloadLen word
deriving DecidableEq, Repr

/-- A word and some bytes as a command; a payload of another length is no command of this model (R276 item 6, U12). -/
def Command.ofParts (w : CmdWord) (payload : List Byte) : Option Command :=
  if h : payload.length = payloadLen w then some ⟨w, payload, h⟩ else none

/-- The command of a word whose payload bytes are all zero. -/
def Command.zeroPayload (w : CmdWord) : Command :=
  ⟨w, List.replicate (payloadLen w) 0, List.length_replicate⟩

/-- The four codes of `dom` (R73, R190). -/
def Dom.code : Dom → BitVec 2
  | .hash => 0
  | .xof => 1
  | .custom => 2
  | .tree => 3

/-- The construction identifier of a code (R190); every 2-bit code names one. -/
def domOf (code : BitVec 2) : Dom :=
  match code.toNat with
  | 0 => .hash
  | 1 => .xof
  | 2 => .custom
  | _ => .tree

/-- The instruction of a command, or why its word is illegal (R72 to R77, R81). Every field is an unsigned number
taken as it stands (R80). -/
def decode (c : Command) : Except Illegal Instr :=
  match decodeOp c.word with
  | .error e => .error e
  | .ok .config =>
      .ok (.config (field c.word 25 3) (domOf (field c.word 23 2)) (field c.word 18 5) (field c.word 0 8))
  | .ok .absorb => .ok (.absorb c.payload)
  | .ok .finish => .ok .finish
  | .ok .squeeze => .ok (.squeeze (field c.word 0 28))
  | .ok .reset => .ok .reset
  | .ok .drop => .ok .drop
  | .ok .custom =>
      .ok (.custom (c.payload.take (field c.word 14 14).toNat) (c.payload.drop (field c.word 14 14).toNat))
  | .ok .permute => .ok (.permute (field c.word 25 3) (field c.word 18 5) c.payload)
  | .ok .status => .ok .status

/-- The command word of an instruction, its fields laid side by side as the formats C, L, N, U and P give them
(R73 to R77). -/
def encodeWord : Instr → CmdWord
  | .config var dom rounds rate => Opcode.code .config ++ var ++ dom.code ++ rounds ++ 0#10 ++ rate
  | .absorb data => Opcode.code .absorb ++ BitVec.ofNat 28 data.length
  | .finish => Opcode.code .finish ++ 0#28
  | .squeeze len => Opcode.code .squeeze ++ len
  | .reset => Opcode.code .reset ++ 0#28
  | .drop => Opcode.code .drop ++ 0#28
  | .custom name cust => Opcode.code .custom ++ BitVec.ofNat 14 name.length ++ BitVec.ofNat 14 cust.length
  | .permute var rounds input => Opcode.code .permute ++ var ++ 0#2 ++ rounds ++ 0#10 ++ BitVec.ofNat 8 input.length
  | .status => Opcode.code .status ++ 0#28

/-- The payload bytes of an instruction (R78; `N` before `S`, R76). -/
def payloadOf : Instr → List Byte
  | .config _ _ _ _ => []
  | .absorb data => data
  | .finish => []
  | .squeeze _ => []
  | .reset => []
  | .drop => []
  | .custom name cust => name ++ cust
  | .permute _ _ input => input
  | .status => []

/-- The command of an instruction; none where a payload is longer than its length field can say. -/
def encode (i : Instr) : Option Command :=
  if i.wellFormed then Command.ofParts (encodeWord i) (payloadOf i) else none

/-- The instruction the decoder reads from a word of the opcode table, its payload bytes all zero: every row of the
table is one 32-bit word (R71). -/
def decodeTableWord (nbits w : Nat) : Option Instr :=
  match decode (Command.zeroPayload (BitVec.ofNat 32 (w % 2 ^ nbits))) with
  | .ok i => some i
  | .error _ => none

end Sys2Proof
end

