-- ==== Sys2Proof/Machine/State.lean ====
section
/-! DEFINITION. Machine/State.lean: the architectural state (R20), the host's side of the boundary (R70), the reasons a
step can stop, and the state after hardware reset (R40, R270). -/

namespace Sys2Proof.Machine

/-- The bytes a context stores: 200, of which a variant uses the first `nb` (R20, R40). Storage above `nb` is never
read by a command: log 9. -/
abbrev Bytes := Vector Byte 200

/-- `ctx.mode` (R25). -/
inductive Mode where
  | absorbing
  | squeezing
deriving DecidableEq, Repr

/-- `t.phase` (R29). -/
inductive Phase where
  | collecting
  | finalSingle
  | finalTree
deriving DecidableEq, Repr

/-- The 4-bit status of a response (R241). -/
inductive Status where
  | ok
  | errConfig
  | errLength
  | errSequence
  | errFaulted
  | errIllegal
deriving DecidableEq, Repr

/-- `cfg`: the parameters fixed at construction (R23). -/
structure Cfg where
  var : Variant
  dom : Dom
  rounds : BitVec 5
  rate : BitVec 8
deriving DecidableEq, Repr

/-- A sponge state and its `buffered_position`: `ctx.S`, `ctx.pos` of the root and `leaf.S`, `leaf.pos` of the leaf
(R20, R26, R30). -/
structure Sponge where
  S : Bytes
  pos : Nat
deriving DecidableEq, Repr

/-- The tree coordinator's state (R29); `nLeaves` is a natural number (R45). -/
structure TreeState where
  phase : Phase
  firstCount : Nat
  leafCount : Nat
  nLeaves : Nat
deriving DecidableEq, Repr

/-- A response: a status and an output byte string (R70). -/
structure Response where
  status : Status
  output : List Byte
deriving DecidableEq, Repr

/-- What the host can present to the block: a command (R70), or hardware reset (R270; log 7). -/
inductive HostEvent where
  | command (c : Command)
  | hardwareReset
deriving DecidableEq, Repr

/-- The machine: the tuple of R20, the parameters of R11, and the host's side of the boundary. -/
structure State where
  /-- a context exists (R24). -/
  cfgValid : Bool
  /-- the context's parameters (R23). -/
  cfg : Cfg
  /-- the sticky sequencing fault (R27). -/
  fault : Bool
  /-- the root sponge: `ctx.S`, `ctx.pos` (R21, R38, R26). -/
  ctx : Sponge
  /-- `ctx.mode` (R25). -/
  mode : Mode
  /-- a non-empty `ABSORB` has run since the last fresh state (R28). -/
  msgStarted : Bool
  /-- a `CUSTOM` has run since the last fresh state (R28). -/
  customDone : Bool
  /-- that `CUSTOM` carried a non-empty string (R28). -/
  customActive : Bool
  /-- the tree coordinator (R29). -/
  t : TreeState
  /-- the leaf sponge: `leaf.S`, `leaf.pos` (R30). -/
  leaf : Sponge
  /-- the block's parameters; no step writes them (R11; log 4). -/
  params : Params
  /-- the model's own: what the host presents next, oldest first (log 1). -/
  pending : List HostEvent
  /-- the model's own: the response to the last command, none before any (log 3). -/
  response : Option Response
deriving DecidableEq, Repr

/-- What stops this machine: nothing. A command that fails answers with a status, and the next command is taken (R251,
R253, R254); the sticky fault is the flag `fault` of the state, not a stop (R246). -/
inductive Fault where
deriving DecidableEq, Repr

/-- Where the model gives no next state. -/
inductive Refusal where
  /-- An instruction without a meaning in this model, by its mnemonic. Every command has a meaning, so no arm of `exec` raises it. Safe. -/
  | notModelled (mnemonic : String)
  /-- Raised by `ABSORB` and `FINISH` in tree mode, where the command would carry `t.n_leaves` past
  `2^TREE_COUNT_BITS - 1`: "outside this spec (treat as refused)" (R45, U13; log 6). Safe. -/
  | treeCountOverflow
deriving DecidableEq, Repr

/-- A sponge of zeros at position 0. -/
def Sponge.zero : Sponge := { S := Vector.replicate 200 0, pos := 0 }

/-- The tree state of a fresh context (R40). -/
def TreeState.zero : TreeState := { phase := .collecting, firstCount := 0, leafCount := 0, nLeaves := 0 }

/-- `cfg` of a block without a context: every field 0 (R24, R40). -/
def Cfg.zero : Cfg := { var := .k1600, dom := .hash, rounds := 0, rate := 0 }

/-- The state after hardware reset: the "power-on" column of R40 (R270). The parameters have their defaults (log 4), no
command waits and none has been answered (log 3, log 12). -/
def State.reset : State :=
  { cfgValid := false, cfg := Cfg.zero, fault := false, ctx := Sponge.zero, mode := .absorbing, msgStarted := false,
    customDone := false, customActive := false, t := TreeState.zero, leaf := Sponge.zero, params := Params.default,
    pending := [], response := none }

end Sys2Proof.Machine
end

