-- ==== Sys2Proof/Machine/Operands.lean ====
section
/-! DEFINITION. Machine/Operands.lean: the variants table (R8) and what the operands of a command may be (R152, R120):
the checks of `CONFIG` and `PERMUTE`. -/

namespace Sys2Proof

/-- The 3-bit code of a variant (R8). -/
def Variant.code : Variant → BitVec 3
  | .k1600 => 0
  | .k800 => 1
  | .k400 => 2
  | .k200 => 3
  | .ascon => 4

/-- The variant a `var` field names; the codes 5 to 7 are not variants (R8, R82). -/
def variantOf (code : BitVec 3) : Option Variant :=
  match code.toNat with
  | 0 => some .k1600
  | 1 => some .k800
  | 2 => some .k400
  | 3 => some .k200
  | 4 => some .ascon
  | _ => none

/-- `w`, the lane or word width in bits (R8). -/
def Variant.w : Variant → Nat
  | .k1600 => 64
  | .k800 => 32
  | .k400 => 16
  | .k200 => 8
  | .ascon => 64

/-- `nb`, the state size in bytes (R8). -/
def Variant.nb : Variant → Nat
  | .k1600 => 200
  | .k800 => 100
  | .k400 => 50
  | .k200 => 25
  | .ascon => 40

/-- `nr_max`, the largest round count (R8). -/
def Variant.nrMax : Variant → Nat
  | .k1600 => 24
  | .k800 => 22
  | .k400 => 20
  | .k200 => 18
  | .ascon => 12

end Sys2Proof

namespace Sys2Proof.Machine

/-- The tree's chunk size in bytes (R10). -/
abbrev chunkBytes : Nat := 8192

/-- `CVLEN`, the length of a chaining value in bytes (R10). -/
abbrev cvLen : Nat := 32

/-- `rounds` is in the variant's range, 1 to `nr_max` (R9, R152, R120). -/
def roundsOk (v : Variant) (rounds : BitVec 5) : Bool :=
  decide (1 ≤ rounds.toNat) && decide (rounds.toNat ≤ v.nrMax)

/-- `rate` is in the variant's range: 8 for ASCON, 1 to `nb - 1` for a Keccak variant (R152). -/
def rateOk (v : Variant) (rate : BitVec 8) : Bool :=
  match v with
  | .ascon => rate.toNat == 8
  | .k1600 => decide (1 ≤ rate.toNat) && decide (rate.toNat ≤ Variant.nb .k1600 - 1)
  | .k800 => decide (1 ≤ rate.toNat) && decide (rate.toNat ≤ Variant.nb .k800 - 1)
  | .k400 => decide (1 ≤ rate.toNat) && decide (rate.toNat ≤ Variant.nb .k400 - 1)
  | .k200 => decide (1 ≤ rate.toNat) && decide (rate.toNat ≤ Variant.nb .k200 - 1)

/-- `dom = TREE` goes only with K1600, 12 rounds and rate 168 (R152, R210). -/
def treeOk (c : Cfg) : Bool :=
  match c.dom with
  | .tree => c.var == .k1600 && c.rounds.toNat == 12 && c.rate.toNat == 168
  | .hash => true
  | .xof => true
  | .custom => true

/-- Every condition `CONFIG` puts on its fields once `var` names a variant (R152). -/
def cfgOk (c : Cfg) : Bool := roundsOk c.var c.rounds && rateOk c.var c.rate && treeOk c

end Sys2Proof.Machine
end

