-- ==== Sys2Proof/Machine/Flags.lean ====
section
/-! DEFINITION. Machine/Flags.lean: the status codes (R241), the status word (R31), and the conditions on the flags that
commands check before they run (R244). -/

namespace Sys2Proof.Machine

/-- The 4-bit code of a status (R241). -/
def Status.code : Status → BitVec 4
  | .ok => 0x0
  | .errConfig => 0x1
  | .errLength => 0x2
  | .errSequence => 0x3
  | .errFaulted => 0x4
  | .errIllegal => 0x5

/-- ABSORBING = 0, SQUEEZING = 1 (R20). -/
def Mode.code : Mode → BitVec 1
  | .absorbing => 0
  | .squeezing => 1

/-- COLLECTING = 0, FINAL_SINGLE = 1, FINAL_TREE = 2 (R20). -/
def Phase.code : Phase → BitVec 2
  | .collecting => 0
  | .finalSingle => 1
  | .finalTree => 2

/-- The status word's bit 1: the mode, 0 when no context exists (R31). -/
def modeBit (s : State) : BitVec 1 := if s.cfgValid then s.mode.code else 0

/-- The status word, bits 31 down to 0 as the table of R31 lists them. -/
def statusWord (s : State) : BitVec 32 :=
  0#8 ++ s.cfg.rate ++ s.cfg.rounds ++ s.cfg.dom.code ++ s.cfg.var.code ++ s.t.phase.code
    ++ BitVec.ofBool s.customActive ++ BitVec.ofBool s.fault ++ modeBit s ++ BitVec.ofBool s.cfgValid

/-- The four output bytes of `STATUS`, least significant first (R178). -/
def statusBytes (s : State) : List Byte :=
  let v := statusWord s
  [v.extractLsb' 0 8, v.extractLsb' 8 8, v.extractLsb' 16 8, v.extractLsb' 24 8]

/-- More than `CHUNK` bytes have been absorbed (R29). -/
def TreeState.inTree (t : TreeState) : Bool := decide (0 < t.nLeaves) || decide (0 < t.leafCount)

/-- `ABSORB` and `FINISH` are in sequence: a context exists and absorbs (R244). -/
def canAbsorb (s : State) : Bool := s.cfgValid && s.mode == .absorbing

/-- `SQUEEZE` is in sequence: a context exists and squeezes (R244). -/
def canSqueeze (s : State) : Bool := s.cfgValid && s.mode == .squeezing

/-- `CUSTOM` is in sequence (R194, R244). -/
def canCustom (s : State) : Bool :=
  s.cfgValid && s.cfg.dom == .custom && s.mode == .absorbing && !s.msgStarted && !s.customDone

end Sys2Proof.Machine
end

