-- ==== Sys2Proof/Machine/Ops.lean ====
section
/-! DEFINITION. Machine/Ops.lean: the named operations every command is written from: bytes of a context (R14), the
response (R15), raising an error and coming back from the fault state (R246, R247, R175), and the writes of the state. -/

namespace Sys2Proof.Machine

/-- The vector whose entry `i` is `f i`. -/
def tabulate {α : Type} (n : Nat) (f : Nat → α) : Vector α n :=
  ⟨((List.range n).map f).toArray, by simp⟩

/-- `MemRead(c, i, 1)`, byte `i` of a context's state (R14). An index past the storage is reached from no state a run
can reach; it reads 0: log 10. -/
def memRead (S : Bytes) (i : Nat) : Byte := S[i]?.getD 0

/-- `MemWrite(c, i, 1, v)` (R14). A write past the storage is dropped: log 10. -/
def memWrite (S : Bytes) (i : Nat) (v : Byte) : Bytes := S.setIfInBounds i v

/-- XOR a byte into byte `i` of a state (R150). -/
def memXor (S : Bytes) (i : Nat) (v : Byte) : Bytes := memWrite S i (memRead S i ^^^ v)

/-- A payload of state bytes laid into the storage, from byte 0 on (R120). -/
def loadBytes (s : List Byte) : Bytes := tabulate 200 fun i => s[i]?.getD 0

/-- `Out(s)` and `return st`: the response of a command (R15, R70). -/
def State.respond (s : State) (st : Status) (out : List Byte) : State := { s with response := some ⟨st, out⟩ }

/-- `raise ErrX`: the error entry of this block. No output, no further state change, and for `ErrSequence` the sticky
`fault` (R15, R246, R251). There is no saved program counter, vector or mode switch (R253). -/
def State.raise (s : State) (st : Status) : State :=
  { s with fault := s.fault || st == .errSequence, response := some ⟨st, []⟩ }

/-- Every field of R20 set to zero (R175): the way back from the fault state (R254). -/
def State.erase (s : State) : State :=
  { s with cfgValid := false, cfg := Cfg.zero, fault := false, ctx := Sponge.zero, mode := .absorbing, msgStarted := false,
           customDone := false, customActive := false, t := TreeState.zero, leaf := Sponge.zero }

/-- The erased state with a new context of the given parameters (R152). -/
def State.construct (s : State) (c : Cfg) : State := { s.erase with cfg := c, cfgValid := true }

/-- The writes of `RESET`: everything but `cfg`, `cfg_valid` and `fault` is cleared (R172). -/
def State.restart (s : State) : State :=
  { s with ctx := Sponge.zero, mode := .absorbing, msgStarted := false, customDone := false, customActive := false,
           t := TreeState.zero, leaf := Sponge.zero }

/-- A new root sponge. -/
def State.withCtx (s : State) (c : Sponge) : State := { s with ctx := c }

/-- `msg_started <- 1` (R160). -/
def State.startMessage (s : State) : State := { s with msgStarted := true }

/-- `custom_done <- 1` (R194). -/
def State.markCustom (s : State) : State := { s with customDone := true }

/-- `custom_active <- 1` (R194). -/
def State.activateCustom (s : State) : State := { s with customActive := true }

/-- `ctx.mode <- SQUEEZING` (R163). -/
def State.startSqueezing (s : State) : State := { s with mode := .squeezing }

/-- New root, leaf and tree counters, the three things the tree coordinator writes (R212, R217). -/
def State.withTree (s : State) (ctx leaf : Sponge) (t : TreeState) : State := { s with ctx := ctx, leaf := leaf, t := t }

/-- `cfg.rate` as a number of bytes (R23). -/
def State.rate (s : State) : Nat := s.cfg.rate.toNat

/-- The oldest host event is taken from the list. -/
def State.pop (s : State) (rest : List HostEvent) : State := { s with pending := rest }

end Sys2Proof.Machine
end

