-- ==== Sys2Proof/Machine/ContextCommands.lean ====
section
/-! DEFINITION. Machine/ContextCommands.lean: the commands that make, clear, release and look at the context: `CONFIG`,
`RESET`, `DROP`, `STATUS`. -/

namespace Sys2Proof.Machine

/-- `CONFIG` (R152). -/
def execConfig (var : BitVec 3) (dom : Dom) (rounds : BitVec 5) (rate : BitVec 8) (s : State) :
    Host.Outcome State Fault Refusal :=
  if s.fault then .next (s.raise .errFaulted)
  else
    match variantOf var with
    | none => .next (s.raise .errConfig)
    | some v =>
      let c : Cfg := { var := v, dom := dom, rounds := rounds, rate := rate }
      if cfgOk c then .next ((s.construct c).respond .ok []) else .next (s.raise .errConfig)

/-- `RESET` (R172). -/
def execReset (s : State) : Host.Outcome State Fault Refusal :=
  if s.fault then .next (s.raise .errFaulted)
  else if s.cfgValid then .next (s.restart.respond .ok [])
  else .next (s.raise .errSequence)

/-- `DROP`: it never fails (R175). -/
def execDrop (s : State) : Host.Outcome State Fault Refusal := .next (s.erase.respond .ok [])

/-- `STATUS`: it changes nothing and never fails (R178). -/
def execStatus (s : State) : Host.Outcome State Fault Refusal := .next (s.respond .ok (statusBytes s))

end Sys2Proof.Machine
end

