-- ==== Sys2Proof/Machine/Ascon.lean ====
section
/-! DEFINITION. Machine/Ascon.lean: the Ascon permutation (42_ascon.md) on five 64-bit words, its constants, and the byte
order of its words (R57). No word value is ever branched on (R133, R137). -/

namespace Sys2Proof.Machine

/-- The five words `X[0]` to `X[4]` (R38, R131). -/
structure AsconWords where
  x0 : Word64
  x1 : Word64
  x2 : Word64
  x3 : Word64
  x4 : Word64
deriving DecidableEq, Repr

/-- The twelve round constants `ARC[0..11]` (R134). -/
def arcTable : List Byte := [0xF0, 0xE1, 0xD2, 0xC3, 0xB4, 0xA5, 0x96, 0x87, 0x78, 0x69, 0x5A, 0x4B]

/-- Constant addition: exclusive-or into word 2 (R134). -/
def addConst (i : Nat) (X : AsconWords) : AsconWords :=
  { X with x2 := X.x2 ^^^ (arcTable[i]?.getD 0).setWidth 64 }

/-- The first line of the S-box layer (R135). -/
def sboxIn (X : AsconWords) : AsconWords :=
  { x0 := X.x0 ^^^ X.x4, x1 := X.x1, x2 := X.x2 ^^^ X.x1, x3 := X.x3, x4 := X.x4 ^^^ X.x3 }

/-- The second and third lines of the S-box layer, the five `t` values computed from the words they are given (R135). -/
def sboxChi (X : AsconWords) : AsconWords :=
  { x0 := X.x0 ^^^ (~~~X.x1 &&& X.x2)
    x1 := X.x1 ^^^ (~~~X.x2 &&& X.x3)
    x2 := X.x2 ^^^ (~~~X.x3 &&& X.x4)
    x3 := X.x3 ^^^ (~~~X.x4 &&& X.x0)
    x4 := X.x4 ^^^ (~~~X.x0 &&& X.x1) }

/-- The last line of the S-box layer (R135). -/
def sboxOut (X : AsconWords) : AsconWords :=
  { x0 := X.x0 ^^^ X.x4, x1 := X.x1 ^^^ X.x0, x2 := ~~~X.x2, x3 := X.x3 ^^^ X.x2, x4 := X.x4 }

/-- The S-box layer (R135). -/
def sbox (X : AsconWords) : AsconWords := sboxOut (sboxChi (sboxIn X))

/-- A word XORed with two right rotations of itself (R136). -/
def diffuse (a : Word64) (m n : Nat) : Word64 := a ^^^ a.rotateRight m ^^^ a.rotateRight n

/-- The linear diffusion layer (R136). -/
def linear (X : AsconWords) : AsconWords :=
  { x0 := diffuse X.x0 19 28
    x1 := diffuse X.x1 61 39
    x2 := diffuse X.x2 1 6
    x3 := diffuse X.x3 10 17
    x4 := diffuse X.x4 7 41 }

/-- One round (R133). -/
def asconRound (i : Nat) (X : AsconWords) : AsconWords := linear (sbox (addConst i X))

/-- `AsconP`: the last `rounds` of the 12 rounds, in increasing order (R132). -/
def asconP (rounds : Nat) (X : AsconWords) : AsconWords :=
  (List.range' (12 - rounds) rounds).foldl (fun Y i => asconRound i Y) X

/-- How far left byte `k` of a word stands: 56 - 8k big-endian, 8k little-endian (R57). -/
def asconShift (o : ByteOrder) (k : Nat) : Nat :=
  match o with
  | .big => 56 - 8 * k
  | .little => 8 * k

/-- `X[j]` of a byte state (R57). -/
def wordOfBytes (o : ByteOrder) (S : Bytes) (j : Nat) : Word64 :=
  (List.range 8).foldl (fun acc k => acc ||| ((memRead S (8 * j + k)).setWidth 64 <<< asconShift o k)) 0

/-- The five words of a byte state (R57). -/
def wordsOfBytes (o : ByteOrder) (S : Bytes) : AsconWords :=
  { x0 := wordOfBytes o S 0
    x1 := wordOfBytes o S 1
    x2 := wordOfBytes o S 2
    x3 := wordOfBytes o S 3
    x4 := wordOfBytes o S 4 }

/-- Word `j` of the five (R131). -/
def AsconWords.word (X : AsconWords) (j : Nat) : Word64 :=
  match j with
  | 0 => X.x0
  | 1 => X.x1
  | 2 => X.x2
  | 3 => X.x3
  | _ => X.x4

/-- State byte `i` of the five words (R57). -/
def byteOfWords (o : ByteOrder) (X : AsconWords) (i : Nat) : Byte :=
  (X.word (i / 8) >>> asconShift o (i % 8)).setWidth 8

/-- The Ascon permutation on the byte view of a state (R139); storage from byte 40 on stays (log 9). -/
def asconBytes (o : ByteOrder) (rounds : Nat) (S : Bytes) : Bytes :=
  let X := asconP rounds (wordsOfBytes o S)
  tabulate 200 fun i => if i < 40 then byteOfWords o X i else memRead S i

end Sys2Proof.Machine
end

