-- ==== Sys2Proof/Machine/Keccak.lean ====
section
/-! DEFINITION. Machine/Keccak.lean: the Keccak-family permutation (41_keccak.md) on 25 lanes of `w` bits, its tables,
and the byte order of its lanes (R55). No lane value is ever branched on (R103, R112). -/

namespace Sys2Proof.Machine

/-- 25 lanes of `w` bits; lane `(x, y)` is entry `x + 5*y` (R21, R101). -/
abbrev Lanes (w : Nat) := Vector (BitVec w) 25

/-- The rotation offsets `RHO[x + 5*y]`, for `w = 64`; other widths use them modulo `w` (R105, R110). -/
def rhoTable : Vector Nat 25 :=
  #v[0, 1, 62, 28, 27,
     36, 44, 6, 55, 20,
     3, 10, 43, 25, 39,
     41, 45, 15, 21, 8,
     18, 2, 61, 56, 14]

/-- The table of round constants of R108, read as the rule prints it: a line holds the constants of three round indices,
eight apart. They are for `w = 64`; other widths use their low `w` bits (R111). -/
def rcTable : List (Nat × Word64) :=
  [(0, 0x0000000000000001), (8, 0x000000000000008A), (16, 0x8000000000008002),
   (1, 0x0000000000008082), (9, 0x0000000000000088), (17, 0x8000000000000080),
   (2, 0x800000000000808A), (10, 0x0000000080008009), (18, 0x000000000000800A),
   (3, 0x8000000080008000), (11, 0x000000008000000A), (19, 0x800000008000000A),
   (4, 0x000000000000808B), (12, 0x000000008000808B), (20, 0x8000000080008081),
   (5, 0x0000000080000001), (13, 0x800000000000008B), (21, 0x8000000000008080),
   (6, 0x8000000080008081), (14, 0x8000000000008089), (22, 0x0000000080000001),
   (7, 0x8000000000008009), (15, 0x8000000000008003), (23, 0x8000000080008008)]

/-- One step of the 8-bit feedback register that generates the round constants (R109). -/
def lfsrStep (r : Nat) : Nat :=
  let d := 2 * r
  if 256 ≤ d then d ^^^ 0x171 else d

/-- `rc(t)`: bit 0 of the register after `t` steps from 0x01 (R109). -/
def lfsrBit (t : Nat) : Bool := (Nat.repeat lfsrStep t 1) % 2 == 1

/-- The round constant R109 generates: bit `2^j - 1` is `rc(j + 7*ir)` for `j` from 0 to 6, every other bit 0. -/
def lfsrConstant (ir : Nat) : Word64 :=
  (List.range 7).foldl
    (fun acc j => if lfsrBit (j + 7 * ir) then acc ||| ((1 : Word64) <<< (2 ^ j - 1)) else acc) 0

/-- Lane `(x, y)`, both coordinates modulo 5 (R101). -/
def lane {w : Nat} (A : Lanes w) (x y : Nat) : BitVec w :=
  A[x % 5 + 5 * (y % 5)]'(by omega)

/-- The lanes whose lane `(x, y)` is `f x y` (R101). -/
def lanesOf {w : Nat} (f : Nat → Nat → BitVec w) : Lanes w := tabulate 25 fun i => f (i % 5) (i / 5)

/-- `C[x]`, the parity of column `x` (R104). -/
def columnParity {w : Nat} (A : Lanes w) (x : Nat) : BitVec w :=
  lane A x 0 ^^^ lane A x 1 ^^^ lane A x 2 ^^^ lane A x 3 ^^^ lane A x 4

/-- `D[x] = C[x-1] ^ rotl(C[x+1], 1)` (R104). -/
def thetaEffect {w : Nat} (A : Lanes w) (x : Nat) : BitVec w :=
  columnParity A (x + 4) ^^^ (columnParity A (x + 1)).rotateLeft 1

/-- Theta (R104). -/
def theta {w : Nat} (A : Lanes w) : Lanes w :=
  let D : Vector (BitVec w) 5 := tabulate 5 (thetaEffect A)
  lanesOf fun x y => lane A x y ^^^ D[x % 5]'(by omega)

/-- The offset of lane `(x, y)` (R105). -/
def rhoOffset (x y : Nat) : Nat := rhoTable[x % 5 + 5 * (y % 5)]'(by omega)

/-- Rho (R105). -/
def rho {w : Nat} (A : Lanes w) : Lanes w := lanesOf fun x y => (lane A x y).rotateLeft (rhoOffset x y % w)

/-- Pi: the lane at `(x, y)` moves to `(y, 2x + 3y)` (R106), so the lane that arrives at `(x, y)` comes from
`(x + 3y, x)`. -/
def pi {w : Nat} (A : Lanes w) : Lanes w := lanesOf fun x y => lane A (x + 3 * y) x

/-- Chi (R107). -/
def chi {w : Nat} (A : Lanes w) : Lanes w :=
  lanesOf fun x y => lane A x y ^^^ (~~~(lane A (x + 1) y) &&& lane A (x + 2) y)

/-- The constant of round index `ir` for lanes of `w` bits: the low `w` bits of `RC[ir]` (R108, R111). -/
def roundConstant (w ir : Nat) : BitVec w := ((rcTable.lookup ir).getD 0).setWidth w

/-- Iota: lane `(0, 0)` only (R108). -/
def iota {w : Nat} (ir : Nat) (A : Lanes w) : Lanes w := A.set 0 (lane A 0 0 ^^^ roundConstant w ir)

/-- One round, the five steps in order (R103). -/
def keccakRound {w : Nat} (ir : Nat) (A : Lanes w) : Lanes w := iota ir (chi (pi (rho (theta A))))

/-- `KeccakP`: the last `rounds` of a schedule of `nrMax` rounds, in increasing order (R102). -/
def keccakP {w : Nat} (nrMax rounds : Nat) (A : Lanes w) : Lanes w :=
  (List.range' (nrMax - rounds) rounds).foldl (fun B ir => keccakRound ir B) A

/-- `A[j]` of a byte state, little-endian with `w/8` bytes a lane (R55). -/
def laneOfBytes (w : Nat) (S : Bytes) (j : Nat) : BitVec w :=
  (List.range (w / 8)).foldl (fun acc k => acc ||| ((memRead S (w / 8 * j + k)).setWidth w <<< (8 * k))) 0

/-- The 25 lanes of a byte state (R55). -/
def lanesOfBytes (w : Nat) (S : Bytes) : Lanes w := tabulate 25 (laneOfBytes w S)

/-- State byte `i` of 25 lanes (R55). -/
def byteOfLanes {w : Nat} (A : Lanes w) (i : Nat) : Byte :=
  ((A[i / (w / 8)]?.getD 0) >>> (8 * (i % (w / 8)))).setWidth 8

/-- The permutation of a Keccak variant on the byte view of a state (R58); storage from `nb` on stays (log 9). -/
def keccakBytes (v : Variant) (rounds : Nat) (S : Bytes) : Bytes :=
  let A := keccakP v.nrMax rounds (lanesOfBytes v.w S)
  tabulate 200 fun i => if i < v.nb then byteOfLanes A i else memRead S i

end Sys2Proof.Machine
end

