-- ==== Sys2Proof/Machine/Sponge.lean ====
section
/-! DEFINITION. Machine/Sponge.lean: the permutation of a context and the three shared procedures of the sponge
(R14, R150), written once for the root and the leaf. The procedures take the permutation and the rate as arguments
(R139: the sponge is agnostic to which permutation backs it). -/

namespace Sys2Proof.Machine

/-- `Permute(var, rounds, S)` on a byte state (R14, R102, R132). -/
def permuteBytes (o : ByteOrder) (v : Variant) (rounds : Nat) (S : Bytes) : Bytes :=
  match v with
  | .k1600 => keccakBytes .k1600 rounds S
  | .k800 => keccakBytes .k800 rounds S
  | .k400 => keccakBytes .k400 rounds S
  | .k200 => keccakBytes .k200 rounds S
  | .ascon => asconBytes o rounds S

/-- The permutation the context is configured with (R14). -/
def State.perm (s : State) : Bytes → Bytes := permuteBytes s.params.asconOrder s.cfg.var s.cfg.rounds.toNat

/-- The body of `AbsorbBytes` for one byte (R150). -/
def absorbByte (p : Bytes → Bytes) (r : Nat) (c : Sponge) (d : Byte) : Sponge :=
  let S := memXor c.S c.pos d
  if c.pos + 1 = r then { S := p S, pos := 0 } else { S := S, pos := c.pos + 1 }

/-- `AbsorbBytes(c, s)` (R150). -/
def absorbBytes (p : Bytes → Bytes) (r : Nat) (c : Sponge) (s : List Byte) : Sponge := s.foldl (absorbByte p r) c

/-- `Pad(c, D)` (R150, R151). -/
def pad (p : Bytes → Bytes) (r : Nat) (c : Sponge) (d : Byte) : Sponge :=
  { S := p (memXor (memXor c.S c.pos d) (r - 1) 0x80), pos := 0 }

/-- The permute-on-demand step of `SqueezeBytes`: a permutation only when a byte is wanted and the rate bytes are
exhausted (R150, R166). -/
def refill (p : Bytes → Bytes) (r : Nat) (c : Sponge) : Sponge :=
  if c.pos = r then { S := p c.S, pos := 0 } else c

/-- `SqueezeBytes(c, n)`: the bytes, and the context it leaves (R150). -/
def squeezeBytes (p : Bytes → Bytes) (r : Nat) : Nat → Sponge → List Byte × Sponge
  | 0, c => ([], c)
  | n + 1, c =>
    let c' := refill p r c
    let rest := squeezeBytes p r n { S := c'.S, pos := c'.pos + 1 }
    (memRead c'.S c'.pos :: rest.1, rest.2)

end Sys2Proof.Machine
end

