-- ==== Sys2Proof/Machine/Domain.lean ====
section
/-! DEFINITION. Machine/Domain.lean: the suffix layer (R190 to R192) and the integer and string encodings
(R196 to R198, R219). -/

namespace Sys2Proof.Machine

/-- A suffix bit string followed by the first padding bit, packed least significant bit first (R52, R191). -/
def delimited (suffix : List Bool) : Byte :=
  (suffix ++ [true]).foldr (fun b acc => (acc <<< 1) ||| (BitVec.ofBool b).setWidth 8) 0

/-- The suffix bits `0 1` of HASH (R190). -/
def suffixHash : List Bool := [false, true]

/-- The suffix bits `1 1 1 1` of XOF, and of CUSTOM with empty strings (R190, R200). -/
def suffixXof : List Bool := [true, true, true, true]

/-- The suffix bits `0 0` of CUSTOM with a non-empty string (R190). -/
def suffixCustom : List Bool := [false, false]

/-- The suffix bits `1 1` of a tree's single node (R190). -/
def suffixSingle : List Bool := [true, true]

/-- The suffix bits `0 1` of a tree's final node (R190). -/
def suffixFinal : List Bool := [false, true]

/-- The suffix bits `1 1 0` of a tree's leaf (R190). -/
def suffixLeaf : List Bool := [true, true, false]

/-- `Suffix()`, the byte `FINISH` hands to `Pad` outside tree mode (R192). Tree mode never calls it; the TREE row here
is its final node's (R190). -/
def suffixByte (dom : Dom) (customActive : Bool) : Byte :=
  match dom with
  | .hash => delimited suffixHash
  | .xof => delimited suffixXof
  | .custom => if customActive then delimited suffixCustom else delimited suffixXof
  | .tree => delimited suffixFinal

/-- The least number of bytes that hold `x`, 0 for `x = 0` (R196, R219). -/
def byteCount (x : Nat) : Nat := if x = 0 then 0 else Nat.log2 x / 8 + 1

/-- The `n` low bytes of `x`, most significant first (R196, R219). -/
def bigEndian (n x : Nat) : List Byte := (List.range n).map fun k => BitVec.ofNat 8 (x >>> (8 * (n - 1 - k)))

/-- `left_encode(x)`: the byte count, at least 1, then the bytes (R196). -/
def leftEncode (x : Nat) : List Byte :=
  let n := max 1 (byteCount x)
  BitVec.ofNat 8 n :: bigEndian n x

/-- `length_encode(x)`: the bytes, none for 0, then their count (R219; log 11 for counts past 255). -/
def lengthEncode (x : Nat) : List Byte := bigEndian (byteCount x) x ++ [BitVec.ofNat 8 (byteCount x)]

/-- `encode_string(s)` (R197). -/
def encodeString (s : List Byte) : List Byte := leftEncode (8 * s.length) ++ s

/-- `bytepad(z, r)` (R198). -/
def bytepad (z : List Byte) (r : Nat) : List Byte :=
  let y := leftEncode r ++ z
  y ++ List.replicate ((r - y.length % r) % r) 0

/-- What `CUSTOM` absorbs (R194). -/
def customPrefix (name cust : List Byte) (r : Nat) : List Byte := bytepad (encodeString name ++ encodeString cust) r

end Sys2Proof.Machine
end

