-- ==== Sys2Proof/Machine/CustomCommand.lean ====
section
/-! DEFINITION. Machine/CustomCommand.lean: `CUSTOM`, the name and customization prefix (R194). -/

namespace Sys2Proof.Machine

/-- The effect of `CUSTOM` once every check has passed: two empty strings absorb nothing (R194, R200). -/
def absorbCustom (name cust : List Byte) (s : State) : State :=
  if name.length + cust.length = 0 then s.markCustom
  else s.markCustom.activateCustom.withCtx (absorbBytes s.perm s.rate s.ctx (customPrefix name cust s.rate))

/-- `CUSTOM` (R194). -/
def execCustom (name cust : List Byte) (s : State) : Host.Outcome State Fault Refusal :=
  if s.fault then .next (s.raise .errFaulted)
  else if canCustom s then .next ((absorbCustom name cust s).respond .ok [])
  else .next (s.raise .errSequence)

end Sys2Proof.Machine
end

