-- ==== Sys2Proof/Machine/PermuteCommand.lean ====
section
/-! DEFINITION. Machine/PermuteCommand.lean: `PERMUTE`, the raw permutation of the payload (R120). -/

namespace Sys2Proof.Machine

/-- The permuted payload, `nb` bytes (R120). -/
def permuteOutput (o : ByteOrder) (v : Variant) (rounds : Nat) (input : List Byte) : List Byte :=
  (permuteBytes o v rounds (loadBytes input)).toList.take v.nb

/-- `PERMUTE`: the checks in the order of R120 and R250, then the permutation; no state but the response (R120). -/
def execPermute (var : BitVec 3) (rounds : BitVec 5) (input : List Byte) (s : State) :
    Host.Outcome State Fault Refusal :=
  if s.fault then .next (s.raise .errFaulted)
  else
    match variantOf var with
    | none => .next (s.raise .errConfig)
    | some v =>
      if roundsOk v rounds then
        if input.length = v.nb then
          .next (s.respond .ok (permuteOutput s.params.asconOrder v rounds.toNat input))
        else .next (s.raise .errLength)
      else .next (s.raise .errConfig)

end Sys2Proof.Machine
end

