-- ==== Sys2Proof/Machine/Tree.lean ====
section
/-! DEFINITION. Machine/Tree.lean: the tree-hashing coordinator (45_tree.md): the bodies of `ABSORB` and `FINISH` in tree
mode, on the root, the one leaf and the counters. Root and leaf use the context's permutation and rate (R210). -/

namespace Sys2Proof.Machine

/-- What the coordinator works on: the root, the open leaf, the counters (R29, R30). -/
structure Coord where
  ctx : Sponge
  leaf : Sponge
  t : TreeState
deriving DecidableEq, Repr

/-- The coordinator's part of the state. -/
def State.coord (s : State) : Coord := { ctx := s.ctx, leaf := s.leaf, t := s.t }

/-- The first-chunk marker (R215). -/
def chunkMarker : List Byte := [0x03, 0, 0, 0, 0, 0, 0, 0]

/-- The two bytes that end the final node (R220). -/
def finalTrailer : List Byte := [0xFF, 0xFF]

/-- The chaining value of a leaf: padded with the leaf suffix, squeezed for `CVLEN` bytes (R216). -/
def chainingValue (p : Bytes → Bytes) (r : Nat) (leaf : Sponge) : List Byte :=
  (squeezeBytes p r cvLen (pad p r leaf (delimited suffixLeaf))).1

/-- `CloseLeaf()` (R216). -/
def closeLeaf (p : Bytes → Bytes) (r : Nat) (k : Coord) : Coord :=
  { ctx := absorbBytes p r k.ctx (chainingValue p r k.leaf)
    leaf := Sponge.zero
    t := { k.t with nLeaves := k.t.nLeaves + 1, leafCount := 0 } }

/-- The root once the byte beyond chunk 0 has arrived: the marker goes in before the first leaf byte only (R212, R215). -/
def markRoot (p : Bytes → Bytes) (r : Nat) (k : Coord) : Sponge :=
  if k.t.inTree then k.ctx else absorbBytes p r k.ctx chunkMarker

/-- One byte into the open leaf, which closes when it is full (R212). -/
def leafByte (p : Bytes → Bytes) (r : Nat) (k : Coord) (d : Byte) : Coord :=
  let k' : Coord :=
    { ctx := markRoot p r k, leaf := absorbByte p r k.leaf d, t := { k.t with leafCount := k.t.leafCount + 1 } }
  if k'.t.leafCount = chunkBytes then closeLeaf p r k' else k'

/-- The body of `TreeAbsorb` for one byte (R212). -/
def treeAbsorbByte (p : Bytes → Bytes) (r : Nat) (k : Coord) (d : Byte) : Coord :=
  if k.t.firstCount < chunkBytes then
    { k with ctx := absorbByte p r k.ctx d, t := { k.t with firstCount := k.t.firstCount + 1 } }
  else leafByte p r k d

/-- `TreeAbsorb(s)` (R212). -/
def treeAbsorb (p : Bytes → Bytes) (r : Nat) (k : Coord) (s : List Byte) : Coord := s.foldl (treeAbsorbByte p r) k

/-- The last leaf is closed if one is open (R217). -/
def closeOpenLeaf (p : Bytes → Bytes) (r : Nat) (k : Coord) : Coord :=
  if 0 < k.t.leafCount then closeLeaf p r k else k

/-- `TreeFinish()` (R217). -/
def treeFinish (p : Bytes → Bytes) (r : Nat) (k : Coord) : Coord :=
  if k.t.inTree then
    let k' := closeOpenLeaf p r k
    { k' with
      ctx := pad p r (absorbBytes p r k'.ctx (lengthEncode k'.t.nLeaves ++ finalTrailer)) (delimited suffixFinal)
      t := { k'.t with phase := .finalTree } }
  else
    { k with ctx := pad p r k.ctx (delimited suffixSingle), t := { k.t with phase := .finalSingle } }

/-- `t.n_leaves` fits `TREE_COUNT_BITS` bits (R45). -/
def countFits (bits : Nat) (t : TreeState) : Bool := decide (t.nLeaves < 2 ^ bits)

/-- The coordinator's result becomes the state, unless the chunk counter would no longer fit (R45, U13; log 6). -/
def State.adoptTree (s : State) (k : Coord) : Option State :=
  if countFits s.params.treeCountBits k.t then some (s.withTree k.ctx k.leaf k.t) else none

end Sys2Proof.Machine
end

