-- ==== Sys2Proof/Machine/SpongeCommands.lean ====
section
/-! DEFINITION. Machine/SpongeCommands.lean: the commands that move message and output bytes: `ABSORB`, `FINISH`,
`SQUEEZE`. -/

namespace Sys2Proof.Machine

/-- A state that went through the tree coordinator, answered with `OK`; refused where the chunk counter overflows
(R45; log 6). -/
def answerTree (r : Option State) : Host.Outcome State Fault Refusal :=
  match r with
  | none => .refused .treeCountOverflow
  | some s => .next (s.respond .ok [])

/-- The effect of `ABSORB` on a non-empty payload once every check has passed (R160). -/
def absorbMessage (data : List Byte) (s : State) : Host.Outcome State Fault Refusal :=
  match s.cfg.dom with
  | .tree => answerTree (s.adoptTree (treeAbsorb s.perm s.rate s.coord data))
  | .hash => .next ((s.startMessage.withCtx (absorbBytes s.perm s.rate s.ctx data)).respond .ok [])
  | .xof => .next ((s.startMessage.withCtx (absorbBytes s.perm s.rate s.ctx data)).respond .ok [])
  | .custom => .next ((s.startMessage.withCtx (absorbBytes s.perm s.rate s.ctx data)).respond .ok [])

/-- `ABSORB` (R160). -/
def execAbsorb (data : List Byte) (s : State) : Host.Outcome State Fault Refusal :=
  if s.fault then .next (s.raise .errFaulted)
  else if canAbsorb s then
    match data with
    | [] => .next (s.respond .ok [])
    | d :: ds => absorbMessage (d :: ds) s
  else .next (s.raise .errSequence)

/-- The root padded by `FINISH` outside tree mode (R163). -/
def finishPlain (s : State) : Host.Outcome State Fault Refusal :=
  .next ((s.withCtx (pad s.perm s.rate s.ctx (suffixByte s.cfg.dom s.customActive))).startSqueezing.respond .ok [])

/-- The effect of `FINISH` once every check has passed (R163). -/
def finishMessage (s : State) : Host.Outcome State Fault Refusal :=
  match s.cfg.dom with
  | .tree => answerTree ((s.adoptTree (treeFinish s.perm s.rate s.coord)).map State.startSqueezing)
  | .hash => finishPlain s
  | .xof => finishPlain s
  | .custom => finishPlain s

/-- `FINISH` (R163). -/
def execFinish (s : State) : Host.Outcome State Fault Refusal :=
  if s.fault then .next (s.raise .errFaulted)
  else if canAbsorb s then finishMessage s
  else .next (s.raise .errSequence)

/-- `SQUEEZE` (R166). -/
def execSqueeze (len : BitVec 28) (s : State) : Host.Outcome State Fault Refusal :=
  if s.fault then .next (s.raise .errFaulted)
  else if canSqueeze s then
    let r := squeezeBytes s.perm s.rate len.toNat s.ctx
    .next ((s.withCtx r.2).respond .ok r.1)
  else .next (s.raise .errSequence)

end Sys2Proof.Machine
end

