-- ==== Sys2Proof/Machine/Dispatch.lean ====
section
/-! DEFINITION. Machine/Dispatch.lean: one arm per command (R72). -/

namespace Sys2Proof.Machine

def exec (i : Instr) (s : State) : Host.Outcome State Fault Refusal :=
  match i with
  | .config var dom rounds rate => Sys2Proof.Machine.execConfig var dom rounds rate s
  | .absorb data => Sys2Proof.Machine.execAbsorb data s
  | .finish => Sys2Proof.Machine.execFinish s
  | .squeeze len => Sys2Proof.Machine.execSqueeze len s
  | .reset => Sys2Proof.Machine.execReset s
  | .drop => Sys2Proof.Machine.execDrop s
  | .custom name cust => Sys2Proof.Machine.execCustom name cust s
  | .permute var rounds input => Sys2Proof.Machine.execPermute var rounds input s
  | .status => Sys2Proof.Machine.execStatus s

end Sys2Proof.Machine
end

