-- ==== Sys2Proof/Machine/Events.lean ====
section
/-! DEFINITION. Machine/Events.lean: what the block does with one event of the host: a command is decoded and executed,
an illegal word is answered, hardware reset is taken. -/

namespace Sys2Proof.Machine

/-- One command: decoded, and executed or, if its word is illegal, answered with `ERR_ILLEGAL` and no other effect
(R248, R250; log 5). Its payload is consumed with it in every case (R78). -/
def runCommand (c : Command) (s : State) : Host.Outcome State Fault Refusal :=
  match decode c with
  | .ok i => exec i s
  | .error _ => .next (s.raise .errIllegal)

/-- Hardware reset: every field of R20 takes its power-on value (R270). The parameters are the block's, what the host
presents next is the host's, and no response is given: log 7. -/
def takeReset (s : State) : State := { State.reset with params := s.params, pending := s.pending }

/-- One event of the host. -/
def runEvent (e : HostEvent) (s : State) : Host.Outcome State Fault Refusal :=
  match e with
  | .command c => runCommand c s
  | .hardwareReset => .next (takeReset s)

/-- The event that presents a word, its payload bytes all zero. -/
def wordEvent (w : CmdWord) : HostEvent := .command (Command.zeroPayload w)

end Sys2Proof.Machine
end

