-- ==== Sys2Proof/Machine/Step.lean ====
section
/-! DEFINITION. Machine/Step.lean: one step of the block: it takes the oldest event the host presents and completes it
before the next is looked at (R16, R62); with none presented it waits (R271; log 2). -/

namespace Sys2Proof.Machine

/-- One step (R16, R62). -/
def step (s : State) : Host.Outcome State Fault Refusal :=
  match s.pending with
  | [] => .next s
  | e :: rest => runEvent e (s.pop rest)

/-- The state with a command of the given word, its payload bytes all zero, presented before everything else (log 12). -/
def State.withFetchWord (s : State) (nbits w : Nat) : State :=
  { s with pending := wordEvent (BitVec.ofNat 32 (w % 2 ^ nbits)) :: s.pending }

end Sys2Proof.Machine
end

