-- ==== Sys2Proof/Safety.lean ====
section
/-! DEFINITION. Safety.lean: the invariant of the machine (R32), and the words claims are stated in: fresh states, runs of
several commands, the closed forms of the sponge stream (R169) and of the tree (R213, R221), and the state with its
secret bytes blanked out (R278). -/

namespace Sys2Proof

/-- A command with its payload bytes replaced by zeros: what the word alone says (R278). -/
def Instr.blank : Instr → Instr
  | .config var dom rounds rate => .config var dom rounds rate
  | .absorb data => .absorb (List.replicate data.length 0)
  | .finish => .finish
  | .squeeze len => .squeeze len
  | .reset => .reset
  | .drop => .drop
  | .custom name cust => .custom (List.replicate name.length 0) (List.replicate cust.length 0)
  | .permute var rounds input => .permute var rounds (List.replicate input.length 0)
  | .status => .status

end Sys2Proof

namespace Sys2Proof.Machine

/-- What "fresh" means in the reset table: everything below `cfg` and `fault` is at its initial value (R40). -/
structure State.Fresh (s : State) : Prop where
  ctxBytes : ∀ i, i < 200 → memRead s.ctx.S i = 0
  ctxPos : s.ctx.pos = 0
  mode : s.mode = .absorbing
  msgStarted : s.msgStarted = false
  customDone : s.customDone = false
  customActive : s.customActive = false
  phase : s.t.phase = .collecting
  firstCount : s.t.firstCount = 0
  leafCount : s.t.leafCount = 0
  nLeaves : s.t.nLeaves = 0
  leafBytes : ∀ i, i < 200 → memRead s.leaf.S i = 0
  leafPos : s.leaf.pos = 0

/-- The invariant that holds between commands: R32 (a) to (i), R24 for a block without a context, the ranges of R20, R30
for the closed leaf, R45 for the chunk counter; and, the model's own, the unused storage (log 9) and the position of a
context that has no message byte yet (R194). -/
structure State.Inv (s : State) : Prop where
  noContext : s.cfgValid = false →
    s.cfg = Cfg.zero ∧ s.ctx = Sponge.zero ∧ s.mode = .absorbing ∧ s.msgStarted = false ∧ s.customDone = false
      ∧ s.customActive = false ∧ s.t = TreeState.zero ∧ s.leaf = Sponge.zero
  cfgLegal : s.cfgValid = true → cfgOk s.cfg = true
  posAbsorbing : s.cfgValid = true → s.mode = .absorbing → s.ctx.pos < s.rate
  posSqueezing : s.cfgValid = true → s.mode = .squeezing → s.ctx.pos ≤ s.rate
  treeZero : s.cfg.dom ≠ .tree → s.t = TreeState.zero ∧ s.leaf = Sponge.zero
  customClear : s.cfg.dom ≠ .custom → s.customDone = false ∧ s.customActive = false
  activeDone : s.customActive = true → s.customDone = true
  firstChunk : s.t.firstCount < chunkBytes → s.t.leafCount = 0 ∧ s.t.nLeaves = 0
  finished : s.mode = .squeezing → s.cfg.dom = .tree → s.t.phase ≠ .collecting ∧ s.t.leafCount = 0
  leafPos : s.leaf.pos = s.t.leafCount % 168
  firstCountLe : s.t.firstCount ≤ chunkBytes
  leafCountLt : s.t.leafCount < chunkBytes
  collecting : s.mode = .absorbing → s.t.phase = .collecting
  leafClosed : s.t.leafCount = 0 → s.leaf = Sponge.zero
  countFits : countFits s.params.treeCountBits s.t = true
  storage : ∀ i, s.cfg.var.nb ≤ i → memRead s.ctx.S i = 0
  treeMessage : s.cfg.dom = .tree → s.msgStarted = false
  noMessage : s.cfg.dom ≠ .tree → s.mode = .absorbing → s.msgStarted = false → s.ctx.pos = 0

/-- The commands of a list, one after the other, until one gives no next state. -/
def runAll : List Instr → State → Host.Outcome State Fault Refusal
  | [], s => .next s
  | i :: is, s =>
    match exec i s with
    | .next t => runAll is t
    | .fault r => .fault r
    | .refused r => .refused r

/-- The output bytes of the last command, none if it gave none. -/
def State.output (s : State) : List Byte :=
  match s.response with
  | none => []
  | some r => r.output

/-- The same block built with another number of leaf workers (R11, R226). -/
def State.withWorkers (s : State) (n : Nat) : State := { s with params := { s.params with leafWorkers := n } }

/-- `P(c)` is the permutation the context is configured with: the last `cfg.rounds` rounds of the variant `cfg.var` on the
lanes or words of the bytes (R14, R102, R132, R139), the Ascon words in the order `ASCON_BYTE_ORDER` says (R57). The bytes
from `nb` on stay: the model's, log 9. -/
def State.PermutesAsConfigured (s : State) : Prop :=
  ∀ (X : Bytes) (i : Nat),
    (s.cfg.var ≠ .ascon → i < s.cfg.var.nb → memRead (s.perm X) i =
      byteOfLanes (keccakP s.cfg.var.nrMax s.cfg.rounds.toNat (lanesOfBytes s.cfg.var.w X)) i) ∧
    (s.cfg.var = .ascon → i < s.cfg.var.nb → memRead (s.perm X) i =
      byteOfWords s.params.asconOrder (asconP s.cfg.rounds.toNat (wordsOfBytes s.params.asconOrder X)) i) ∧
    (s.cfg.var.nb ≤ i → memRead (s.perm X) i = memRead X i)

/-- The permutation applied `k` times: `Zk` of R169. -/
def iterate (p : Bytes → Bytes) : Nat → Bytes → Bytes
  | 0, S => S
  | k + 1, S => iterate p k (p S)

/-- `F(x, D, m)` of R221: the first `m` bytes a fresh sponge outputs after absorbing `x` and padding with `D`. -/
def spongeOutput (p : Bytes → Bytes) (r : Nat) (x : List Byte) (d : Byte) (m : Nat) : List Byte :=
  (squeezeBytes p r m (pad p r (absorbBytes p r Sponge.zero x) d)).1

/-- Chunk `i` of an input (R213). -/
def chunk (x : List Byte) (i : Nat) : List Byte := (x.drop (chunkBytes * i)).take chunkBytes

/-- `n - 1` of R213: the number of chunks after the first. -/
def laterChunks (x : List Byte) : Nat := (x.length - 1) / chunkBytes

/-- The permutation of tree mode: K1600 with 12 rounds (R210); the Ascon byte order has no part in it. -/
def treePerm : Bytes → Bytes := permuteBytes .big .k1600 12

/-- The rate of tree mode (R210). -/
abbrev treeRate : Nat := 168

/-- `CV_i` of R221: a function of chunk `i` alone. -/
def chunkValue (x : List Byte) (i : Nat) : List Byte := spongeOutput treePerm treeRate (chunk x i) 0x0B cvLen

/-- `FinalNode` of R221, around the given chaining values. -/
def finalNode (x : List Byte) (values : List (List Byte)) : List Byte :=
  chunk x 0 ++ chunkMarker ++ values.flatten ++ lengthEncode (laterChunks x) ++ finalTrailer

/-- The output stream of a tree context by R221, without streaming, from given chaining values. -/
def treeOutput (x : List Byte) (values : List (List Byte)) (m : Nat) : List Byte :=
  if x.length ≤ chunkBytes then spongeOutput treePerm treeRate x 0x07 m
  else spongeOutput treePerm treeRate (finalNode x values) 0x06 m

/-- The slot array of R226 after the workers completed the chunks in the order given: entry `j` holds the chaining
value of chunk `j + 1` once that chunk is done. -/
def slotsAfter (x : List Byte) (order : List Nat) : List (Option (List Byte)) :=
  order.foldl (fun slots i => slots.set (i - 1) (some (chunkValue x i))) (List.replicate (laterChunks x) none)

/-- The fold of R226 over the slots in index order; an empty slot contributes nothing. -/
def foldSlots (slots : List (Option (List Byte))) : List (List Byte) := slots.map fun v => v.getD []

/-- A sponge with its state bytes replaced by zeros. -/
def Sponge.blank (c : Sponge) : Sponge := { S := Vector.replicate 200 0, pos := c.pos }

/-- A response with its output bytes replaced by zeros. -/
def Response.blank (r : Response) : Response := { status := r.status, output := List.replicate r.output.length 0 }

/-- The state with every state byte and output byte replaced by zeros: `cfg`, modes, positions, flags and counters are
what is left (R278). -/
def State.blank (s : State) : State :=
  { s with ctx := s.ctx.blank, leaf := s.leaf.blank, response := s.response.map Response.blank }

/-- The `match` column of the decoder table (R83). -/
def rowMatch : Opcode → CmdWord
  | .config => 0x10000000
  | .absorb => 0x20000000
  | .finish => 0x30000000
  | .squeeze => 0x40000000
  | .reset => 0x50000000
  | .drop => 0x60000000
  | .custom => 0x70000000
  | .permute => 0x80000000
  | .status => 0x90000000

/-- The `mask` column of the decoder table (R83). -/
def rowMask : Opcode → CmdWord
  | .config => 0xF003FF00
  | .absorb => 0xF0000000
  | .finish => 0xFFFFFFFF
  | .squeeze => 0xF0000000
  | .reset => 0xFFFFFFFF
  | .drop => 0xFFFFFFFF
  | .custom => 0xF0000000
  | .permute => 0xF183FF00
  | .status => 0xFFFFFFFF

/-- The number a byte string stands for, most significant byte first (R196, R219). -/
def bigEndianValue (l : List Byte) : Nat := l.foldl (fun acc b => 256 * acc + b.toNat) 0

/-- The number a byte string stands for, least significant byte first (R55, R178). -/
def littleEndianValue : List Byte → Nat
  | [] => 0
  | b :: bs => b.toNat + 256 * littleEndianValue bs

end Sys2Proof.Machine
end

