-- ==== Sys2Proof/Certificates/Slice0/Obligations.lean ====
section
/-! DEFINITION. Obligations.lean: the statements for the provers, by the spec's numbered rules. Each docstring names the
rule it formalises; "model" marks a clause that rests on a log entry of the model and not on the spec. -/

open Sys2Proof Sys2Proof.Machine

/-! ### Encoding -/

/-- Decoding the command of a well-formed instruction gives it back, with every operand and payload (R72 to R77). -/
def Obligations.DecodeOfEncodeIsIdentity : Prop :=
  ∀ i : Instr, i.wellFormed = true →
    ∃ c, encode i = some c ∧ c.word = encodeWord i ∧ c.payload = payloadOf i ∧ decode c = .ok i

/-- Each legal command has one meaning and one spelling: what decodes is well-formed and encodes to the same command. -/
def Obligations.EncodeOfDecodeIsIdentity : Prop :=
  ∀ (c : Command) (i : Instr), decode c = .ok i → i.wellFormed = true ∧ encode i = some c

/-- R83: a word selects a row exactly when `v & mask = match`; no two rows overlap; a word that selects none is
illegal. -/
def Obligations.RowsSelectByMatchAndMask : Prop :=
  (∀ (w : CmdWord) (op : Opcode), decodeOp w = .ok op ↔ w &&& rowMask op = rowMatch op) ∧
  (∀ (w : CmdWord) (a b : Opcode), w &&& rowMask a = rowMatch a → w &&& rowMask b = rowMatch b → a = b) ∧
  (∀ w : CmdWord, (∀ op, w &&& rowMask op ≠ rowMatch op) ↔ ∃ e, decodeOp w = .error e)

/-- R248: a word that matches no row is answered with `ERR_ILLEGAL`, has no payload and no output, changes no state, is
not sticky, and is answered so even while `fault = 1`. -/
def Obligations.IllegalWordIsAnswered : Prop :=
  ∀ (c : Command) (s : State) (rest : List HostEvent), (∀ op, c.word &&& rowMask op ≠ rowMatch op) →
    s.pending = .command c :: rest →
    c.payload = [] ∧ step s = .next { s with pending := rest, response := some ⟨.errIllegal, []⟩ }

/-- R78: the payload length as a function of the word, a payload always has exactly that many bytes, and it is consumed
with its command whatever the answer. -/
def Obligations.PayloadLengthOfWord : Prop :=
  (∀ w : CmdWord, payloadLen w =
    match decodeOp w with
    | .ok .absorb => w.toNat % 2 ^ 28
    | .ok .custom => w.toNat / 2 ^ 14 % 2 ^ 14 + w.toNat % 2 ^ 14
    | .ok .permute => w.toNat % 2 ^ 8
    | _ => 0) ∧
  (∀ c : Command, c.payload.length = payloadLen c.word) ∧
  (∀ (c : Command) (s t : State) (rest : List HostEvent), s.pending = .command c :: rest → step s = .next t →
    t.pending = rest)

/-- R79: the output length of every command, by its status. -/
def Obligations.OutputLengthOfCommand : Prop :=
  (∀ (i : Instr) (s t : State), exec i s = .next t →
    ∃ r, t.response = some r ∧ (r.status ≠ .ok → r.output = []) ∧ (i = .status → r.status = .ok) ∧
      (r.status = .ok → r.output.length =
        match i with
        | .squeeze len => len.toNat
        | .permute var _ _ => if var = 0 then 200 else if var = 1 then 100 else if var = 2 then 50
                              else if var = 3 then 25 else 40
        | .status => 4
        | _ => 0)) ∧
  (∀ (c : Command) (e : Illegal) (s t : State), decode c = .error e → runCommand c s = .next t →
    ∃ r, t.response = some r ∧ r.status ≠ .ok ∧ r.output = [])

/-- R85: the command words as formulas, and the three worked words. -/
def Obligations.WordAssemblyFormulas : Prop :=
  (∀ (var : BitVec 3) (dom : Dom) (rounds : BitVec 5) (rate : BitVec 8),
    encodeWord (.config var dom rounds rate) =
      0x10000000#32 ||| var.setWidth 32 <<< 25 ||| dom.code.setWidth 32 <<< 23 ||| rounds.setWidth 32 <<< 18
        ||| rate.setWidth 32) ∧
  (∀ data : List Byte, data.length < 2 ^ 28 →
    encodeWord (.absorb data) = 0x20000000#32 ||| BitVec.ofNat 32 data.length) ∧
  encodeWord .finish = 0x30000000#32 ∧
  (∀ len : BitVec 28, encodeWord (.squeeze len) = 0x40000000#32 ||| len.setWidth 32) ∧
  encodeWord .reset = 0x50000000#32 ∧ encodeWord .drop = 0x60000000#32 ∧
  (∀ name cust : List Byte, name.length < 2 ^ 14 → cust.length < 2 ^ 14 →
    encodeWord (.custom name cust) =
      0x70000000#32 ||| BitVec.ofNat 32 name.length <<< 14 ||| BitVec.ofNat 32 cust.length) ∧
  (∀ (var : BitVec 3) (rounds : BitVec 5) (input : List Byte), input.length < 2 ^ 8 →
    encodeWord (.permute var rounds input) =
      0x80000000#32 ||| var.setWidth 32 <<< 25 ||| rounds.setWidth 32 <<< 18 ||| BitVec.ofNat 32 input.length) ∧
  encodeWord .status = 0x90000000#32 ∧
  encodeWord (.config 0 .hash 24 136) = 0x10600088#32 ∧ encodeWord (.config 0 .tree 12 168) = 0x11B000A8#32 ∧
  encodeWord (.permute 4 12 (List.replicate 40 0)) = 0x88300028#32

/-- The words of R84's examples decode to the commands they stand for (zero payload bytes). -/
def Obligations.WrittenWordsDecode : Prop :=
  decodeTableWord 32 0x10600088 = some (.config 0 .hash 24 136) ∧
  decodeTableWord 32 0x20000003 = some (.absorb [0, 0, 0]) ∧
  decodeTableWord 32 0x30000000 = some .finish ∧
  decodeTableWord 32 0x40000020 = some (.squeeze 32) ∧
  decodeTableWord 32 0x50000000 = some .reset ∧
  decodeTableWord 32 0x60000000 = some .drop ∧
  decodeTableWord 32 0x7000000F = some (.custom [] (List.replicate 15 0)) ∧
  decodeTableWord 32 0x88300028 = some (.permute 4 12 (List.replicate 40 0)) ∧
  decodeTableWord 32 0x90000000 = some .status ∧
  decodeTableWord 32 0xA0000000 = none

/-! ### The step -/

/-- A step takes the oldest command, and what it does with one that decodes is `exec` of it on the state without it
(R16, R62, R70). -/
def Obligations.StepRunsDecodedCommand : Prop :=
  ∀ (s : State) (c : Command) (rest : List HostEvent) (i : Instr), s.pending = .command c :: rest →
    decode c = .ok i → step s = exec i { s with pending := rest }

/-- Model, log 2: with nothing presented the block waits, and a step changes nothing (R271). -/
def Obligations.StepWaitsWithoutEvents : Prop :=
  ∀ s : State, s.pending = [] → step s = .next s

/-- R270: after hardware reset every field of R20 has its power-on value, all zero, as after `DROP`. -/
def Obligations.HardwareResetZeroesEverything : Prop :=
  ∀ (s : State) (rest : List HostEvent), s.pending = .hardwareReset :: rest →
    ∃ t, step s = .next t ∧ t.cfgValid = false ∧ t.cfg.var.code = 0 ∧ t.cfg.dom.code = 0 ∧ t.cfg.rounds = 0 ∧
      t.cfg.rate = 0 ∧ t.fault = false ∧ t.Fresh ∧
      ∃ u, exec .drop { s with pending := rest } = .next u ∧ t = { u with response := t.response }

/-- R271: what each command does as the first one after power-on, whatever the parameters. -/
def Obligations.FirstCommandAfterPowerOn : Prop :=
  ∀ (p : Params) (q : List HostEvent), let s : State := { State.reset with params := p, pending := q }
    exec .status s = .next { s with response := some ⟨.ok, [0, 0, 0, 0]⟩ } ∧
    exec .drop s = .next { s with response := some ⟨.ok, []⟩ } ∧
    (∀ (v : Variant) (rounds : BitVec 5) (input : List Byte), 1 ≤ rounds.toNat → rounds.toNat ≤ v.nrMax →
      input.length = v.nb →
      ∃ out, exec (.permute v.code rounds input) s = .next { s with response := some ⟨.ok, out⟩ }) ∧
    (∀ c : Cfg, cfgOk c = true →
      ∃ t, exec (.config c.var.code c.dom c.rounds c.rate) s = .next t ∧ t.cfgValid = true ∧ t.cfg = c ∧
        t.response = some ⟨.ok, []⟩) ∧
    (∀ data, exec (.absorb data) s = .next { s with fault := true, response := some ⟨.errSequence, []⟩ }) ∧
    exec .finish s = .next { s with fault := true, response := some ⟨.errSequence, []⟩ } ∧
    (∀ len, exec (.squeeze len) s = .next { s with fault := true, response := some ⟨.errSequence, []⟩ }) ∧
    exec .reset s = .next { s with fault := true, response := some ⟨.errSequence, []⟩ } ∧
    (∀ name cust, exec (.custom name cust) s = .next { s with fault := true, response := some ⟨.errSequence, []⟩ })

/-! ### The context: CONFIG, RESET, DROP, STATUS -/

/-- R40: the four columns of the reset table. -/
def Obligations.ResetTableColumns : Prop :=
  (State.reset.cfgValid = false ∧ State.reset.cfg = Cfg.zero ∧ State.reset.fault = false ∧ State.reset.Fresh) ∧
  (∀ (s : State) (v : Variant) (dom : Dom) (rounds : BitVec 5) (rate : BitVec 8), s.fault = false →
    cfgOk ⟨v, dom, rounds, rate⟩ = true →
    ∃ t, exec (.config v.code dom rounds rate) s = .next t ∧ t.response = some ⟨.ok, []⟩ ∧ t.cfgValid = true ∧
      t.cfg = ⟨v, dom, rounds, rate⟩ ∧ t.fault = false ∧ t.Fresh) ∧
  (∀ s : State, s.fault = false → s.cfgValid = true →
    ∃ t, exec .reset s = .next t ∧ t.response = some ⟨.ok, []⟩ ∧ t.cfgValid = true ∧ t.cfg = s.cfg ∧ t.fault = false ∧
      t.Fresh) ∧
  (∀ s : State, ∃ t, exec .drop s = .next t ∧ t.response = some ⟨.ok, []⟩ ∧ t.cfgValid = false ∧ t.cfg = Cfg.zero ∧
    t.fault = false ∧ t.Fresh)

/-- R152: `CONFIG` succeeds on exactly the legal ranges, creating a fresh context, and on anything else answers
`ERR_CONFIG` and leaves everything as it was; while `fault = 1` it is refused. -/
def Obligations.ConfigAcceptsExactlyLegalFields : Prop :=
  ∀ (s : State) (var : BitVec 3) (dom : Dom) (rounds : BitVec 5) (rate : BitVec 8),
    let r := rounds.toNat
    let q := rate.toNat
    let ranges := (var.toNat = 0 ∧ 1 ≤ r ∧ r ≤ 24 ∧ 1 ≤ q ∧ q ≤ 199) ∨ (var.toNat = 1 ∧ 1 ≤ r ∧ r ≤ 22 ∧ 1 ≤ q ∧ q ≤ 99)
      ∨ (var.toNat = 2 ∧ 1 ≤ r ∧ r ≤ 20 ∧ 1 ≤ q ∧ q ≤ 49) ∨ (var.toNat = 3 ∧ 1 ≤ r ∧ r ≤ 18 ∧ 1 ≤ q ∧ q ≤ 24)
      ∨ (var.toNat = 4 ∧ 1 ≤ r ∧ r ≤ 12 ∧ q = 8)
    let legal := ranges ∧ (dom = .tree → var.toNat = 0 ∧ r = 12 ∧ q = 168)
    (s.fault = true → exec (.config var dom rounds rate) s = .next { s with response := some ⟨.errFaulted, []⟩ }) ∧
    (s.fault = false → ¬legal →
      exec (.config var dom rounds rate) s = .next { s with response := some ⟨.errConfig, []⟩ }) ∧
    (s.fault = false → legal →
      ∃ t, exec (.config var dom rounds rate) s = .next t ∧ t.response = some ⟨.ok, []⟩ ∧ t.cfgValid = true ∧
        t.cfg.var.code = var ∧ t.cfg.dom = dom ∧ t.cfg.rounds = rounds ∧ t.cfg.rate = rate ∧ t.fault = false ∧ t.Fresh ∧
        t.params = s.params ∧ t.pending = s.pending)

/-- R42: `RESET` leaves exactly the state a `CONFIG` with the same four fields would have produced. -/
def Obligations.ResetEqualsConfig : Prop :=
  ∀ s : State, s.Inv → s.fault = false → s.cfgValid = true →
    exec .reset s = exec (.config s.cfg.var.code s.cfg.dom s.cfg.rounds s.cfg.rate) s

/-- R175: `DROP` succeeds in every state and leaves the power-on state; a following `STATUS` returns four zero bytes; no
other command clears `fault`. -/
def Obligations.DropReturnsToPowerOn : Prop :=
  (∀ s : State, ∃ t, exec .drop s = .next t ∧ t.response = some ⟨.ok, []⟩ ∧
    t = { State.reset with params := s.params, pending := s.pending, response := t.response } ∧
    exec .status t = .next { t with response := some ⟨.ok, [0, 0, 0, 0]⟩ }) ∧
  (∀ (i : Instr) (s t : State), exec i s = .next t → s.fault = true → t.fault = false → i = .drop)

/-- R31, R178: `STATUS` outputs the status word, least significant byte first, and changes nothing, in every state. -/
def Obligations.StatusReportsTheWord : Prop :=
  ∀ s : State, ∃ out, exec .status s = .next { s with response := some ⟨.ok, out⟩ } ∧ out.length = 4 ∧
    let v := littleEndianValue out
    v % 2 = s.cfgValid.toNat ∧
    v / 2 % 2 = (if s.cfgValid = true ∧ s.mode = .squeezing then 1 else 0) ∧
    v / 4 % 2 = s.fault.toNat ∧
    v / 8 % 2 = s.customActive.toNat ∧
    v / 16 % 4 = (match s.t.phase with | .collecting => 0 | .finalSingle => 1 | .finalTree => 2) ∧
    v / 64 % 8 = (match s.cfg.var with | .k1600 => 0 | .k800 => 1 | .k400 => 2 | .k200 => 3 | .ascon => 4) ∧
    v / 512 % 4 = (match s.cfg.dom with | .hash => 0 | .xof => 1 | .custom => 2 | .tree => 3) ∧
    v / 2048 % 32 = s.cfg.rounds.toNat ∧
    v / 65536 % 256 = s.cfg.rate.toNat ∧
    v / 16777216 = 0

/-! ### The permutations and PERMUTE -/

/-- R120: `PERMUTE`, its checks in their order and its output; it writes nothing but the response. -/
def Obligations.PermuteRunsItsPayload : Prop :=
  ([Variant.k1600, .k800, .k400, .k200, .ascon].map Variant.nb = [200, 100, 50, 25, 40] ∧
   [Variant.k1600, .k800, .k400, .k200, .ascon].map Variant.nrMax = [24, 22, 20, 18, 12]) ∧
  ∀ (s : State) (var : BitVec 3) (rounds : BitVec 5) (input : List Byte),
    (s.fault = true → exec (.permute var rounds input) s = .next { s with response := some ⟨.errFaulted, []⟩ }) ∧
    (s.fault = false → 4 < var.toNat →
      exec (.permute var rounds input) s = .next { s with response := some ⟨.errConfig, []⟩ }) ∧
    (∀ v : Variant, s.fault = false → v.code = var →
      ((rounds.toNat < 1 ∨ v.nrMax < rounds.toNat) →
        exec (.permute var rounds input) s = .next { s with response := some ⟨.errConfig, []⟩ }) ∧
      (1 ≤ rounds.toNat → rounds.toNat ≤ v.nrMax → input.length ≠ v.nb →
        exec (.permute var rounds input) s = .next { s with response := some ⟨.errLength, []⟩ }) ∧
      (1 ≤ rounds.toNat → rounds.toNat ≤ v.nrMax → input.length = v.nb →
        ∃ out, exec (.permute var rounds input) s = .next { s with response := some ⟨.ok, out⟩ } ∧ out.length = v.nb ∧
          (∀ i, i < v.nb → memRead (loadBytes input) i = input[i]?.getD 0) ∧
          (v ≠ .ascon → ∀ i, i < v.nb → out[i]?.getD 0 =
            byteOfLanes (keccakP v.nrMax rounds.toNat (lanesOfBytes v.w (loadBytes input))) i) ∧
          (v = .ascon → ∀ i, i < v.nb → out[i]?.getD 0 =
            byteOfWords s.params.asconOrder
              (asconP rounds.toNat (wordsOfBytes s.params.asconOrder (loadBytes input))) i)))

/-- R102, R103: a call runs the last `rounds` of the schedule in increasing order, and a round is the five steps in order. -/
def Obligations.KeccakRunsTheLastRounds : Prop :=
  ∀ (w nr rounds ir : Nat) (A : Lanes w), keccakP nr 0 A = A ∧
    (rounds < nr → keccakP nr (rounds + 1) A = keccakP nr rounds (keccakRound (nr - (rounds + 1)) A)) ∧
    keccakRound ir A = iota ir (chi (pi (rho (theta A))))

/-- R132, R133: a call runs the last `rounds` of the 12 rounds in increasing order, and a round is the three layers in
order. -/
def Obligations.AsconRunsTheLastRounds : Prop :=
  ∀ (rounds i : Nat) (X : AsconWords), asconP 0 X = X ∧
    (rounds < 12 → asconP (rounds + 1) X = asconP rounds (asconRound (12 - (rounds + 1)) X)) ∧
    asconRound i X = linear (sbox (addConst i X))

/-- R104: bit `z` of every lane after Theta: the bit itself, the parity of the column before at `z`, and the parity of
the column after at `z - 1`. -/
def Obligations.ThetaAddsTwoColumnParities : Prop :=
  ∀ (w : Nat) (A : Lanes w) (x y z : Nat), x < 5 → y < 5 → z < w →
    let bit := fun x y z => (lane A x y).getLsbD z
    let parity := fun x z => bit x 0 z ^^ bit x 1 z ^^ bit x 2 z ^^ bit x 3 z ^^ bit x 4 z
    (lane (theta A) x y).getLsbD z =
      (bit x y z ^^ (parity ((x + 4) % 5) z ^^ parity ((x + 1) % 5) ((z + (w - 1)) % w)))

/-- R105: Rho moves bit `z` of lane `(x, y)` to bit `z + RHO[x + 5y]` modulo the width. -/
def Obligations.RhoRotatesByTheTable : Prop :=
  let offsets := [0, 1, 62, 28, 27] ++ [36, 44, 6, 55, 20] ++ [3, 10, 43, 25, 39] ++ [41, 45, 15, 21, 8] ++ [18, 2, 61, 56, 14]
  ∀ (w : Nat) (A : Lanes w) (x y z : Nat), x < 5 → y < 5 → z < w →
    (lane (rho A) x y).getLsbD ((z + offsets[x + 5 * y]?.getD 0) % w) = (lane A x y).getLsbD z

/-- R106: Pi moves the lane at `(x, y)` to `(y, 2x + 3y)`; the two index tables of the rule. -/
def Obligations.PiMovesLanesByTheTable : Prop :=
  let destination := [0, 10, 20, 5, 15] ++ [16, 1, 11, 21, 6] ++ [7, 17, 2, 12, 22] ++ [23, 8, 18, 3, 13] ++ [14, 24, 9, 19, 4]
  let source := [0, 6, 12, 18, 24] ++ [3, 9, 10, 16, 22] ++ [1, 7, 13, 19, 20] ++ [4, 5, 11, 17, 23] ++ [2, 8, 14, 15, 21]
  ∀ (w : Nat) (A : Lanes w),
    (∀ x y, x < 5 → y < 5 → lane (pi A) y (2 * x + 3 * y) = lane A x y) ∧
    (∀ i, i < 25 → (pi A)[destination[i]?.getD 0]? = A[i]?) ∧
    (∀ j, j < 25 → (pi A)[j]? = A[source[j]?.getD 0]?)

/-- R107, R108: Chi bit by bit, all results from the input lanes; Iota writes lane `(0, 0)` only, with the low bits of the
tabulated constant. -/
def Obligations.ChiAndIotaLanes : Prop :=
  let constants : List (Nat × Nat) :=
    [(0, 0x0000000000000001), (8, 0x000000000000008A), (16, 0x8000000000008002),
     (1, 0x0000000000008082), (9, 0x0000000000000088), (17, 0x8000000000000080),
     (2, 0x800000000000808A), (10, 0x0000000080008009), (18, 0x000000000000800A),
     (3, 0x8000000080008000), (11, 0x000000008000000A), (19, 0x800000008000000A),
     (4, 0x000000000000808B), (12, 0x000000008000808B), (20, 0x8000000080008081),
     (5, 0x0000000080000001), (13, 0x800000000000008B), (21, 0x8000000000008080),
     (6, 0x8000000080008081), (14, 0x8000000000008089), (22, 0x0000000080000001),
     (7, 0x8000000000008009), (15, 0x8000000000008003), (23, 0x8000000080008008)]
  ∀ (w : Nat) (A : Lanes w),
    (∀ x y z, x < 5 → y < 5 → z < w → (lane (chi A) x y).getLsbD z =
      ((lane A x y).getLsbD z ^^ (!(lane A ((x + 1) % 5) y).getLsbD z && (lane A ((x + 2) % 5) y).getLsbD z))) ∧
    (∀ ir, w ≤ 64 → ir < 24 → lane (iota ir A) 0 0 = lane A 0 0 ^^^ BitVec.ofNat w ((constants.lookup ir).getD 0)) ∧
    (∀ ir x y, x < 5 → y < 5 → (x, y) ≠ (0, 0) → lane (iota ir A) x y = lane A x y)

/-- R109, R110, R111: the tabulated offsets and constants of every width, and the feedback sequence behind them. -/
def Obligations.ConstantTables : Prop :=
  let offsets := fun w => (List.range 25).map fun i => rhoOffset (i % 5) (i / 5) % w
  let constants := fun w n => (List.range n).map fun ir => (roundConstant w ir).toNat
  offsets 64 = [0, 1, 62, 28, 27] ++ [36, 44, 6, 55, 20] ++ [3, 10, 43, 25, 39] ++ [41, 45, 15, 21, 8] ++ [18, 2, 61, 56, 14] ∧
  offsets 32 = [0, 1, 30, 28, 27] ++ [4, 12, 6, 23, 20] ++ [3, 10, 11, 25, 7] ++ [9, 13, 15, 21, 8] ++ [18, 2, 29, 24, 14] ∧
  offsets 16 = [0, 1, 14, 12, 11] ++ [4, 12, 6, 7, 4] ++ [3, 10, 11, 9, 7] ++ [9, 13, 15, 5, 8] ++ [2, 2, 13, 8, 14] ∧
  offsets 8 = [0, 1, 6, 4, 3] ++ [4, 4, 6, 7, 4] ++ [3, 2, 3, 1, 7] ++ [1, 5, 7, 5, 0] ++ [2, 2, 5, 0, 6] ∧
  constants 32 22 = [0x00000001, 0x00008082, 0x0000808A, 0x80008000, 0x0000808B, 0x80000001, 0x80008081, 0x00008009,
    0x0000008A, 0x00000088, 0x80008009, 0x8000000A, 0x8000808B, 0x0000008B, 0x00008089, 0x00008003, 0x00008002,
    0x00000080, 0x0000800A, 0x8000000A, 0x80008081, 0x00008080] ∧
  constants 16 20 = [0x0001, 0x8082, 0x808A, 0x8000, 0x808B, 0x0001, 0x8081, 0x8009, 0x008A, 0x0088, 0x8009, 0x000A,
    0x808B, 0x008B, 0x8089, 0x8003, 0x8002, 0x0080, 0x800A, 0x000A] ∧
  constants 8 18 = [0x01, 0x82, 0x8A, 0x00, 0x8B, 0x01, 0x81, 0x09, 0x8A, 0x88, 0x09, 0x0A, 0x8B, 0x8B, 0x89, 0x03, 0x02,
    0x80] ∧
  ∀ ir, ir < 24 → roundConstant 64 ir = lfsrConstant ir

/-- R100: the Keccak permutation of every variant and round count is a bijection on its 25-lane states. -/
def Obligations.KeccakIsABijection : Prop :=
  ∀ (v : Variant) (rounds : Nat), v ≠ .ascon → Function.Bijective (keccakP (w := v.w) v.nrMax rounds)

/-- R130: the Ascon permutation of every round count is a bijection on 320-bit states. -/
def Obligations.AsconIsABijection : Prop := ∀ rounds : Nat, Function.Bijective (asconP rounds)

/-- R135: per bit slice, with `x0` the most significant of the five bits, the S-box layer is the published table. -/
def Obligations.AsconSboxIsTheTable : Prop :=
  let table := [0x04, 0x0b, 0x1f, 0x14, 0x1a, 0x15, 0x09, 0x02, 0x1b, 0x05, 0x08, 0x12, 0x1d, 0x03, 0x06, 0x1c,
                0x1e, 0x13, 0x07, 0x0e, 0x00, 0x0d, 0x11, 0x18, 0x10, 0x0c, 0x01, 0x19, 0x16, 0x0a, 0x0f, 0x17]
  let slice := fun (X : AsconWords) (j : Nat) =>
    16 * (X.x0.getLsbD j).toNat + 8 * (X.x1.getLsbD j).toNat + 4 * (X.x2.getLsbD j).toNat + 2 * (X.x3.getLsbD j).toNat
      + (X.x4.getLsbD j).toNat
  ∀ (X : AsconWords) (j : Nat), j < 64 → table[slice X j]? = some (slice (sbox X) j)

/-- R136: bit `j` of each word after the linear layer is the XOR of three bits of the same word. -/
def Obligations.AsconDiffusionBits : Prop :=
  ∀ (X : AsconWords) (j : Nat), j < 64 →
    let spread := fun (a : Word64) m n => a.getLsbD j ^^ a.getLsbD ((j + m) % 64) ^^ a.getLsbD ((j + n) % 64)
    (linear X).x0.getLsbD j = spread X.x0 19 28 ∧ (linear X).x1.getLsbD j = spread X.x1 61 39 ∧
    (linear X).x2.getLsbD j = spread X.x2 1 6 ∧ (linear X).x3.getLsbD j = spread X.x3 10 17 ∧
    (linear X).x4.getLsbD j = spread X.x4 7 41

/-- R134: the constant of round `i` is `((15 - i) << 4) | i`, XORed into word 2, whose low byte alone can change. -/
def Obligations.AsconConstantAddition : Prop :=
  ∀ (X : AsconWords) (i : Nat), i < 12 →
    addConst i X = { X with x2 := X.x2 ^^^ BitVec.ofNat 64 (((15 - i) <<< 4) ||| i) } ∧
    (addConst i X).x2 >>> 8 = X.x2 >>> 8

/-- R55: the Keccak byte order, both formulas, and the permuted bytes taken from the permuted lanes. -/
def Obligations.KeccakByteOrder : Prop :=
  ∀ (v : Variant) (S : Bytes) (rounds : Nat), v ≠ .ascon → let lb := v.w / 8
    (∀ j, j < 25 → (lane (lanesOfBytes v.w S) (j % 5) (j / 5)).toNat =
      littleEndianValue ((List.range lb).map fun k => memRead S (lb * j + k))) ∧
    (∀ i, i < v.nb → memRead S i =
      ((lane (lanesOfBytes v.w S) (i / lb % 5) (i / lb / 5)) >>> (8 * (i % lb))).setWidth 8) ∧
    (∀ i, i < v.nb → memRead (keccakBytes v rounds S) i =
      ((lane (keccakP v.nrMax rounds (lanesOfBytes v.w S)) (i / lb % 5) (i / lb / 5)) >>> (8 * (i % lb))).setWidth 8)

/-- R57: the Ascon byte order under both settings of the parameter, both formulas, and the permuted bytes taken from the
permuted words. -/
def Obligations.AsconByteOrder : Prop :=
  ∀ (S : Bytes) (rounds : Nat),
    (∀ j, j < 5 → ((wordsOfBytes .big S).word j).toNat =
      bigEndianValue ((List.range 8).map fun k => memRead S (8 * j + k))) ∧
    (∀ j, j < 5 → ((wordsOfBytes .little S).word j).toNat =
      littleEndianValue ((List.range 8).map fun k => memRead S (8 * j + k))) ∧
    (∀ i, i < 40 → memRead S i = (((wordsOfBytes .big S).word (i / 8)) >>> (56 - 8 * (i % 8))).setWidth 8) ∧
    (∀ i, i < 40 → memRead S i = (((wordsOfBytes .little S).word (i / 8)) >>> (8 * (i % 8))).setWidth 8) ∧
    (∀ i, i < 40 → memRead (asconBytes .big rounds S) i =
      (((asconP rounds (wordsOfBytes .big S)).word (i / 8)) >>> (56 - 8 * (i % 8))).setWidth 8) ∧
    (∀ i, i < 40 → memRead (asconBytes .little rounds S) i =
      (((asconP rounds (wordsOfBytes .little S)).word (i / 8)) >>> (8 * (i % 8))).setWidth 8) ∧
    Params.default.asconOrder = .big

/-! ### ABSORB, FINISH, SQUEEZE -/

/-- Outside tree mode, a payload that does not fill the block: `ABSORB` XORs it into the rate bytes from `ctx.pos` on,
runs no permutation, leaves every other byte of the state and everything but `ctx`, `msg_started` and the response as it
was (R150, R59, R160). -/
def Obligations.AbsorbXorsIntoTheRate : Prop :=
  ∀ (s : State) (data : List Byte), s.Inv → s.fault = false → s.cfgValid = true → s.mode = .absorbing →
    s.cfg.dom ≠ .tree → s.ctx.pos + data.length < s.rate →
    ∃ t, exec (.absorb data) s = .next t ∧
      t = { s with ctx := t.ctx, msgStarted := s.msgStarted || !data.isEmpty, response := some ⟨.ok, []⟩ } ∧
      t.ctx.pos = s.ctx.pos + data.length ∧
      ∀ i, memRead t.ctx.S i = memRead s.ctx.S i ^^^ (if s.ctx.pos ≤ i then data[i - s.ctx.pos]?.getD 0 else 0)

/-- Outside tree mode, a payload that fills the block exactly: one permutation of the XORed state, position 0
(R150, R160); and what that permutation is: the one `cfg` and the byte order say (R14, R139; log 9 for the bytes from `nb`
on). -/
def Obligations.AbsorbPermutesTheFullBlock : Prop :=
  (∀ s : State, s.PermutesAsConfigured) ∧
  ∀ (s : State) (data : List Byte), s.Inv → s.fault = false → s.cfgValid = true → s.mode = .absorbing →
    s.cfg.dom ≠ .tree → s.ctx.pos + data.length = s.rate →
    ∃ t X, exec (.absorb data) s = .next t ∧
      t = { s with ctx := t.ctx, msgStarted := true, response := some ⟨.ok, []⟩ } ∧
      t.ctx.pos = 0 ∧ t.ctx.S = s.perm X ∧
      ∀ i, memRead X i = memRead s.ctx.S i ^^^ (if s.ctx.pos ≤ i then data[i - s.ctx.pos]?.getD 0 else 0)

/-- R161: `ABSORB a; ABSORB b` leaves exactly the state `ABSORB a ‖ b` leaves, in every `dom`. -/
def Obligations.AbsorbConcatenates : Prop :=
  ∀ (s : State) (a b : List Byte), s.fault = false → s.cfgValid = true → s.mode = .absorbing →
    (∀ t, exec (.absorb a) s = .next t → exec (.absorb b) t = exec (.absorb (a ++ b)) s) ∧
    (∀ r, exec (.absorb a) s = .refused r → exec (.absorb (a ++ b)) s = .refused r)

/-- Outside tree mode the position after `ABSORB` is the position before plus the length, modulo the rate
(R26, R150, R183). -/
def Obligations.AbsorbPositionModuloRate : Prop :=
  ∀ (s : State) (data : List Byte), s.Inv → s.fault = false → s.cfgValid = true → s.mode = .absorbing →
    s.cfg.dom ≠ .tree →
    ∃ t, exec (.absorb data) s = .next t ∧ t.ctx.pos = (s.ctx.pos + data.length) % s.rate

/-- `ABSORB` completes with `OK` in every absorbing context, in tree mode as long as the chunk counter has room
(R160, R45); `LEN = 0` changes nothing. -/
def Obligations.AbsorbCompletes : Prop :=
  ∀ (s : State) (data : List Byte), s.fault = false → s.cfgValid = true → s.mode = .absorbing →
    (s.cfg.dom ≠ .tree ∨ s.t.nLeaves + data.length < 2 ^ s.params.treeCountBits) →
    (∃ t, exec (.absorb data) s = .next t ∧ t.response = some ⟨.ok, []⟩ ∧
      t = { s with ctx := t.ctx, msgStarted := t.msgStarted, leaf := t.leaf, t := t.t, response := t.response }) ∧
    exec (.absorb []) s = .next { s with response := some ⟨.ok, []⟩ }

/-- The counters of a tree context after `ABSORB` and `FINISH` (R29, R212, R216), and the refusal, of the whole command
(model, log 6), exactly where it would carry `t.n_leaves` past `2^TREE_COUNT_BITS - 1` (R45). -/
def Obligations.TreeCountersAndTheirBound : Prop :=
  ∀ (s : State) (data : List Byte), s.Inv → s.fault = false → s.cfgValid = true → s.mode = .absorbing →
    s.cfg.dom = .tree →
    let total := s.t.leafCount + (data.length - (8192 - s.t.firstCount))
    let closed := s.t.nLeaves + if 0 < s.t.leafCount then 1 else 0
    (s.t.nLeaves + total / 8192 < 2 ^ s.params.treeCountBits →
      ∃ t, exec (.absorb data) s = .next t ∧ t.response = some ⟨.ok, []⟩ ∧ t.t.phase = s.t.phase ∧
        t.t.firstCount = min 8192 (s.t.firstCount + data.length) ∧ t.t.leafCount = total % 8192 ∧
        t.t.nLeaves = s.t.nLeaves + total / 8192) ∧
    (2 ^ s.params.treeCountBits ≤ s.t.nLeaves + total / 8192 →
      exec (.absorb data) s = .refused .treeCountOverflow) ∧
    (closed < 2 ^ s.params.treeCountBits →
      ∃ t, exec .finish s = .next t ∧ t.response = some ⟨.ok, []⟩ ∧ t.t.firstCount = s.t.firstCount ∧ t.t.leafCount = 0 ∧
        t.t.nLeaves = closed) ∧
    (2 ^ s.params.treeCountBits ≤ closed → exec .finish s = .refused .treeCountOverflow) ∧
    Params.default.treeCountBits = 64

/-- `FINISH` outside tree mode pads with the suffix byte of the construction (R192): it is XORed at `ctx.pos`, 0x80 into
the last rate byte, then one permutation, the configured one (R14, R139), position 0, mode SQUEEZING, and nothing else
(R150, R163). -/
def Obligations.FinishPadsWithTheSuffix : Prop :=
  (∀ s : State, s.PermutesAsConfigured) ∧
  ∀ s : State, s.Inv → s.fault = false → s.cfgValid = true → s.mode = .absorbing → s.cfg.dom ≠ .tree →
    let suffix : Byte := match s.cfg.dom with
      | .hash => 0x06
      | .xof => 0x1F
      | .custom => if s.customActive = true then 0x04 else 0x1F
      | .tree => 0
    ∃ t X, exec .finish s = .next t ∧
      t = { s with ctx := t.ctx, mode := .squeezing, response := some ⟨.ok, []⟩ } ∧ t.ctx.pos = 0 ∧
      t.ctx.S = s.perm X ∧
      ∀ i, memRead X i =
        memRead s.ctx.S i ^^^ (if i = s.ctx.pos then suffix else 0) ^^^ (if i = s.rate - 1 then 0x80 else 0)

/-- R191: the delimited suffix byte of every suffix of 2 to 4 bits, its bound, and the worked values. -/
def Obligations.DelimitedSuffixByte : Prop :=
  (∀ bits : List Bool, 2 ≤ bits.length → bits.length ≤ 4 →
    (delimited bits).toNat = bits.foldr (fun b acc => b.toNat + 2 * acc) 1 ∧ (delimited bits).toNat ≤ 0x1F) ∧
  delimited [false, true] = 0x06 ∧ delimited [true, true, true, true] = 0x1F ∧ delimited [false, false] = 0x04 ∧
  delimited [true, true] = 0x07 ∧ delimited [true, true, false] = 0x0B

/-- `FINISH` in tree mode: the single path exactly when no more than 8192 bytes were absorbed, else the last open leaf is
closed and the tree path is taken; the root is padded with 0x07 or 0x06 (R217, R218), with the configured permutation
(R14). -/
def Obligations.FinishTakesTheTreePaths : Prop :=
  (∀ s : State, s.PermutesAsConfigured) ∧
  ∀ s : State, s.Inv → s.fault = false → s.cfgValid = true → s.mode = .absorbing → s.cfg.dom = .tree →
    (s.t.nLeaves = 0 → s.t.leafCount = 0 →
      ∃ t X, exec .finish s = .next t ∧
        t = { s with ctx := t.ctx, mode := .squeezing, t := { s.t with phase := .finalSingle },
                     response := some ⟨.ok, []⟩ } ∧ t.ctx.pos = 0 ∧ t.ctx.S = s.perm X ∧
        ∀ i, memRead X i = memRead s.ctx.S i ^^^ (if i = s.ctx.pos then 0x07 else 0) ^^^ (if i = 167 then 0x80 else 0)) ∧
    (0 < s.t.nLeaves ∨ 0 < s.t.leafCount →
      s.t.nLeaves + (if 0 < s.t.leafCount then 1 else 0) < 2 ^ s.params.treeCountBits →
      ∃ t, exec .finish s = .next t ∧
        t = { s with ctx := t.ctx, mode := .squeezing, leaf := Sponge.zero,
                     t := { phase := .finalTree, firstCount := s.t.firstCount, leafCount := 0,
                            nLeaves := s.t.nLeaves + if 0 < s.t.leafCount then 1 else 0 },
                     response := some ⟨.ok, []⟩ } ∧ t.ctx.pos = 0 ∧
        ∃ values : List Byte,
          values = (if 0 < s.t.leafCount then (squeezeBytes s.perm 168 32 (pad s.perm 168 s.leaf 0x0B)).1 else []) ∧
          t.ctx = pad s.perm 168 (absorbBytes s.perm 168 s.ctx (values ++ lengthEncode t.t.nLeaves ++ [0xFF, 0xFF])) 0x06)

/-- The output of `SQUEEZE` in closed form: counted from the position, byte `j` is byte `j mod rate` of the state
permuted `j div rate` times; and the context it leaves, the permutation being called only when a byte is wanted
(R169, R166, R150), and being the configured one (R14, R139). -/
def Obligations.SqueezeStreamClosedForm : Prop :=
  (∀ s : State, s.PermutesAsConfigured) ∧
  ∀ (s : State) (len : BitVec 28), s.Inv → s.fault = false → s.cfgValid = true → s.mode = .squeezing →
    ∃ t out, exec (.squeeze len) s = .next t ∧ t = { s with ctx := t.ctx, response := some ⟨.ok, out⟩ } ∧
      out.length = len.toNat ∧
      (∀ j, j < len.toNat → out[j]?.getD 0 =
        memRead (iterate s.perm ((s.ctx.pos + j) / s.rate) s.ctx.S) ((s.ctx.pos + j) % s.rate)) ∧
      (len.toNat = 0 → t.ctx = s.ctx) ∧
      (0 < len.toNat → t.ctx.pos = (s.ctx.pos + len.toNat - 1) % s.rate + 1 ∧
        t.ctx.S = iterate s.perm ((s.ctx.pos + len.toNat - 1) / s.rate) s.ctx.S)

/-- `SQUEEZE m; SQUEEZE k` outputs the same bytes, and leaves the same state, as `SQUEEZE (m + k)` (R168). -/
def Obligations.SqueezeStreamSplits : Prop :=
  ∀ (s : State) (m k : BitVec 28), s.fault = false → s.cfgValid = true → s.mode = .squeezing →
    m.toNat + k.toNat < 2 ^ 28 →
    ∃ t u v, exec (.squeeze m) s = .next t ∧ exec (.squeeze k) t = .next u ∧ exec (.squeeze (m + k)) s = .next v ∧
      v.output = t.output ++ u.output ∧ v = { u with response := v.response }

/-- A squeeze that ends within the block tells nothing of the capacity: two states that differ only in capacity bytes give
the same response (R59, R60, R256). -/
def Obligations.SqueezeReadsOnlyTheRate : Prop :=
  ∀ (s : State) (S : Bytes) (len : BitVec 28), s.ctx.pos + len.toNat ≤ s.rate →
    (∀ i, i < s.rate → memRead S i = memRead s.ctx.S i) →
    ∀ t, exec (.squeeze len) s = .next t →
      ∃ u, exec (.squeeze len) { s with ctx := { S := S, pos := s.ctx.pos } } = .next u ∧ u.response = t.response

/-! ### CUSTOM and the encodings -/

/-- R194: `CUSTOM`: when it is refused, the two empty strings, and otherwise the prefix absorbed as an ordinary `ABSORB`
would, after which the position is 0 again. -/
def Obligations.CustomIsAnOrdinaryAbsorb : Prop :=
  ∀ (s : State) (name cust : List Byte),
    (s.fault = true → exec (.custom name cust) s = .next { s with response := some ⟨.errFaulted, []⟩ }) ∧
    (s.fault = false → (s.cfgValid = false ∨ s.cfg.dom ≠ .custom ∨ s.mode ≠ .absorbing ∨ s.msgStarted = true ∨
        s.customDone = true) →
      exec (.custom name cust) s = .next { s with fault := true, response := some ⟨.errSequence, []⟩ }) ∧
    (s.fault = false → s.cfgValid = true → s.cfg.dom = .custom → s.mode = .absorbing → s.msgStarted = false →
      s.customDone = false →
      (name.length + cust.length = 0 →
        exec (.custom name cust) s = .next { s with customDone := true, response := some ⟨.ok, []⟩ }) ∧
      (0 < name.length + cust.length →
        ∃ t u, exec (.custom name cust) s = .next t ∧
          exec (.absorb (bytepad (encodeString name ++ encodeString cust) s.rate)) s = .next u ∧
          t = { s with ctx := u.ctx, customDone := true, customActive := true, response := some ⟨.ok, []⟩ } ∧
          (s.Inv → t.ctx.pos = 0)))

/-- R198: `bytepad` is `left_encode(r)`, the string, and the least number of zero bytes that makes the length a multiple
of `r`. -/
def Obligations.BytepadAligns : Prop :=
  ∀ (z : List Byte) (r : Nat), 0 < r →
    ∃ k, bytepad z r = leftEncode r ++ z ++ List.replicate k 0 ∧ (bytepad z r).length % r = 0 ∧
      ∀ m, ((leftEncode r).length + z.length + m) % r = 0 → k ≤ m

/-- R196: `left_encode(x)` is the least byte count that holds `x`, at least 1, then `x` most significant byte first. -/
def Obligations.LeftEncodeIsMinimal : Prop :=
  ∀ x : Nat, x < 2 ^ 2040 →
    ∃ (n : Nat) (bytes : List Byte), leftEncode x = BitVec.ofNat 8 n :: bytes ∧ n < 256 ∧ bytes.length = n ∧ 1 ≤ n ∧
      bigEndianValue bytes = x ∧ ∀ m, 1 ≤ m → x < 2 ^ (8 * m) → n ≤ m

/-- `length_encode(x)` is the least number of bytes that hold `x`, none for 0, most significant first, then their count,
for every `x` whose count fits its byte (R219; log 11 beyond). -/
def Obligations.LengthEncodeIsMinimal : Prop :=
  ∀ x : Nat, x < 2 ^ 2040 → ∃ (n : Nat) (bytes : List Byte), lengthEncode x = bytes ++ [BitVec.ofNat 8 n] ∧ n < 256 ∧
    bytes.length = n ∧ bigEndianValue bytes = x ∧ ∀ m, x < 2 ^ (8 * m) → n ≤ m

/-- R200: with empty name and customization, sent or not sent, a CUSTOM context answers every message as an XOF context
does. -/
def Obligations.EmptyCustomIsXof : Prop :=
  ∀ (s : State) (v : Variant) (rounds : BitVec 5) (rate : BitVec 8) (message : List Byte) (len : BitVec 28),
    s.fault = false → cfgOk ⟨v, .xof, rounds, rate⟩ = true →
    ∃ t u x, runAll [.config v.code .xof rounds rate, .absorb message, .finish, .squeeze len] s = .next t ∧
      runAll [.config v.code .custom rounds rate, .custom [] [], .absorb message, .finish, .squeeze len] s = .next u ∧
      runAll [.config v.code .custom rounds rate, .absorb message, .finish, .squeeze len] s = .next x ∧
      u.response = t.response ∧ x.response = t.response

/-! ### The tree -/

/-- R221: the output of a tree context, said without streaming. -/
def Obligations.TreeOutputClosedForm : Prop :=
  ∀ (s : State) (x : List Byte) (len : BitVec 28), s.fault = false → laterChunks x < 2 ^ s.params.treeCountBits →
    ∃ t, runAll [.config 0 .tree 12 168, .absorb x, .finish, .squeeze len] s = .next t ∧
      t.response = some ⟨.ok, treeOutput x ((List.range (laterChunks x)).map fun i => chunkValue x (i + 1)) len.toNat⟩

/-- The order in which workers complete the chaining values does not matter: any order that completes every later chunk
gives the output of the machine (R225, R226, R67); and no command's outcome depends on how many workers the block has
(R11). That the machine itself has one leaf and no workers is the model's reading: log 8 (DEDUCED). -/
def Obligations.LeafCompletionOrderIsInvisible : Prop :=
  (∀ (i : Instr) (s : State) (n : Nat),
    (∀ t, exec i s = .next t → exec i (s.withWorkers n) = .next (t.withWorkers n)) ∧
    (∀ r, exec i s = .refused r → exec i (s.withWorkers n) = .refused r)) ∧
  ∀ (s : State) (x : List Byte) (len : BitVec 28) (order : List Nat), s.fault = false →
    laterChunks x < 2 ^ s.params.treeCountBits → (∀ i, i ∈ order ↔ 1 ≤ i ∧ i ≤ laterChunks x) →
    ∃ t, runAll [.config 0 .tree 12 168, .absorb x, .finish, .squeeze len] s = .next t ∧
      t.response = some ⟨.ok, treeOutput x (foldSlots (slotsAfter x order)) len.toNat⟩

/-! ### The whole machine -/

/-- The invariant holds after hardware reset (R32, R40). -/
def Obligations.InvariantHoldsAtReset : Prop := State.reset.Inv

/-- The invariant is kept by every step, whatever the host presents (R32; the storage and message clauses are the
model's, log 9 and R194). -/
def Obligations.StepKeepsTheInvariant : Prop :=
  ∀ s t : State, s.Inv → step s = .next t → t.Inv

/-- R247: while `fault = 1` every command but `DROP` and `STATUS` is `ERR_FAULTED` and changes nothing, `STATUS` shows the
fault, `DROP` clears it, and no step but `DROP` and hardware reset does. -/
def Obligations.FaultIsSticky : Prop :=
  (∀ (i : Instr) (s : State), s.fault = true → i ≠ .drop → i ≠ .status →
    exec i s = .next { s with response := some ⟨.errFaulted, []⟩ }) ∧
  (∀ (c : Command) (i : Instr) (s : State) (rest : List HostEvent), s.pending = .command c :: rest → decode c = .ok i →
    s.fault = true → i ≠ .drop → i ≠ .status →
    step s = .next { s with pending := rest, response := some ⟨.errFaulted, []⟩ }) ∧
  (∀ s : State, s.fault = true → ∃ out, exec .status s = .next { s with response := some ⟨.ok, out⟩ } ∧
    littleEndianValue out / 4 % 2 = 1) ∧
  (∀ s : State, ∃ t, exec .drop s = .next t ∧ t.fault = false ∧ t.cfgValid = false ∧ t.cfg = Cfg.zero ∧ t.Fresh) ∧
  (∀ (s : State) (rest : List HostEvent), s.pending = .hardwareReset :: rest → ∃ t, step s = .next t ∧ t.fault = false) ∧
  (∀ (s t : State) (e : HostEvent) (rest : List HostEvent), s.pending = e :: rest → step s = .next t → s.fault = true →
    t.fault = false → e = .hardwareReset ∨ ∃ c, e = .command c ∧ decode c = .ok .drop)

/-- R244, R246: the conditions that raise `ERR_SEQUENCE`, whose only effect is `fault <- 1`, and the commands that never
raise it; the payload is consumed with its command in every case. -/
def Obligations.SequencingViolations : Prop :=
  (∀ s : State, s.fault = false →
    let violation : Host.Outcome State Fault Refusal :=
      .next { s with fault := true, response := some ⟨.errSequence, []⟩ }
    (∀ data, exec (.absorb data) s = violation ↔ s.cfgValid = false ∨ s.mode = .squeezing) ∧
    (exec .finish s = violation ↔ s.cfgValid = false ∨ s.mode = .squeezing) ∧
    (∀ len, exec (.squeeze len) s = violation ↔ s.cfgValid = false ∨ s.mode = .absorbing) ∧
    (exec .reset s = violation ↔ s.cfgValid = false) ∧
    (∀ name cust, exec (.custom name cust) s = violation ↔ s.cfgValid = false ∨ s.cfg.dom ≠ .custom ∨
      s.mode = .squeezing ∨ s.msgStarted = true ∨ s.customDone = true)) ∧
  (∀ (i : Instr) (s t : State) (r : Response), exec i s = .next t → t.response = some r → r.status = .errSequence →
    (∃ data, i = .absorb data) ∨ i = .finish ∨ (∃ len, i = .squeeze len) ∨ i = .reset ∨ ∃ name cust, i = .custom name cust) ∧
  (∀ (c : Command) (s t : State) (rest : List HostEvent), s.pending = .command c :: rest → step s = .next t →
    t.pending = rest)

/-- R251: a command that answers with anything but `OK` leaves the state exactly as it was, except the `fault` bit for
`ERR_SEQUENCE` (and the response itself). -/
def Obligations.ErrorsArePrecise : Prop :=
  (∀ (i : Instr) (s t : State) (r : Response), exec i s = .next t → t.response = some r → r.status ≠ .ok →
    t = { s with fault := s.fault || decide (r.status = .errSequence), response := some r }) ∧
  (∀ (c : Command) (s t : State) (r : Response), runCommand c s = .next t → t.response = some r → r.status ≠ .ok →
    t = { s with fault := s.fault || decide (r.status = .errSequence), response := some r })

/-- Every command answers: it gives a next state with a response, except `ABSORB` and `FINISH` of an unfaulted absorbing
tree context, which may meet the bound of the chunk counter (R240, R251, R279, R45). No command faults the machine. -/
def Obligations.EveryCommandAnswers : Prop :=
  ∀ (i : Instr) (s : State), (∃ t r, exec i s = .next t ∧ t.response = some r) ∨
    (exec i s = .refused .treeCountOverflow ∧ s.fault = false ∧ s.cfgValid = true ∧ s.mode = .absorbing ∧
      s.cfg.dom = .tree ∧ (i = .finish ∨ ∃ data, i = .absorb data))

/-- R180: the only transitions of `ctx.mode` and of the existence of a context, and the mode each command is legal in. -/
def Obligations.ModeMachine : Prop :=
  ∀ (i : Instr) (s t : State), exec i s = .next t →
    (s.mode = .absorbing → t.mode = .squeezing → i = .finish ∧ s.cfgValid = true) ∧
    (s.mode = .squeezing → t.mode = .absorbing →
      i = .reset ∨ i = .drop ∨ ∃ var dom rounds rate, i = .config var dom rounds rate) ∧
    (s.cfgValid = false → t.cfgValid = true → t.mode = .absorbing ∧ ∃ var dom rounds rate, i = .config var dom rounds rate) ∧
    (s.cfgValid = true → t.cfgValid = false → i = .drop) ∧
    (∀ out, t.response = some ⟨.ok, out⟩ →
      ((∃ data, i = .absorb data) ∨ (∃ name cust, i = .custom name cust) ∨ i = .finish → s.mode = .absorbing) ∧
      ((∃ len, i = .squeeze len) → s.mode = .squeezing))

/-- The frame of every command: what it can write at all; `CONFIG` when it does not succeed writes only the response
(R152, R160, R163, R166, R172, R175, R178, R194, R120). No command writes the parameters or what the host presents next (model, logs 1 and 4). -/
def Obligations.CommandFrames : Prop :=
  ∀ (i : Instr) (s t : State), exec i s = .next t → t.params = s.params ∧ t.pending = s.pending ∧
    match i with
    | .config _ _ _ _ => t.response ≠ some ⟨.ok, []⟩ → t = { s with response := t.response }
    | .absorb _ => t = { s with fault := t.fault, ctx := t.ctx, msgStarted := t.msgStarted, leaf := t.leaf, t := t.t,
                                response := t.response } ∧ t.t.phase = s.t.phase ∧
        (s.cfg.dom ≠ .tree → t.leaf = s.leaf ∧ t.t = s.t) ∧ (s.cfg.dom = .tree → t.msgStarted = s.msgStarted)
    | .finish => t = { s with fault := t.fault, ctx := t.ctx, mode := t.mode, leaf := t.leaf, t := t.t,
                              response := t.response } ∧ t.t.firstCount = s.t.firstCount ∧
        (s.cfg.dom ≠ .tree → t.leaf = s.leaf ∧ t.t = s.t)
    | .squeeze _ => t = { s with fault := t.fault, ctx := t.ctx, response := t.response }
    | .reset => t = { s with fault := t.fault, ctx := t.ctx, mode := t.mode, msgStarted := t.msgStarted,
                             customDone := t.customDone, customActive := t.customActive, leaf := t.leaf, t := t.t,
                             response := t.response } ∧ (s.cfgValid = true → t.fault = s.fault)
    | .drop => t = { s.erase with response := t.response }
    | .custom _ _ => t = { s with fault := t.fault, ctx := t.ctx, customDone := t.customDone,
                                  customActive := t.customActive, response := t.response }
    | .permute _ _ _ => t = { s with response := t.response }
    | .status => t = { s with response := t.response }

/-- What a command does to everything but state bytes and output bytes, and whether it answers, is a function of the word
and of `cfg`, modes, positions, flags and counters, never of a payload byte or a state byte (R278). -/
def Obligations.ControlIsDataIndependent : Prop :=
  ∀ (i : Instr) (s : State),
    (∀ t, exec i s = .next t → ∃ u, exec i.blank s.blank = .next u ∧ u.blank = t.blank) ∧
    (∀ r, exec i s = .refused r → exec i.blank s.blank = .refused r)
end

