-- ==== Sys2Proof/Laws/State.lean ====
section
/-! SUPPORT. Laws/State.lean: every field of the state after every named write of it, one lemma per field per write. -/

namespace Sys2Proof.Machine

/-! `State.respond` -/

@[simp] theorem State.respond_cfgValid (s : State) (st : Status) (out : List Byte) : (s.respond st out).cfgValid = s.cfgValid := rfl
@[simp] theorem State.respond_cfg (s : State) (st : Status) (out : List Byte) : (s.respond st out).cfg = s.cfg := rfl
@[simp] theorem State.respond_fault (s : State) (st : Status) (out : List Byte) : (s.respond st out).fault = s.fault := rfl
@[simp] theorem State.respond_ctx (s : State) (st : Status) (out : List Byte) : (s.respond st out).ctx = s.ctx := rfl
@[simp] theorem State.respond_mode (s : State) (st : Status) (out : List Byte) : (s.respond st out).mode = s.mode := rfl
@[simp] theorem State.respond_msgStarted (s : State) (st : Status) (out : List Byte) : (s.respond st out).msgStarted = s.msgStarted := rfl
@[simp] theorem State.respond_customDone (s : State) (st : Status) (out : List Byte) : (s.respond st out).customDone = s.customDone := rfl
@[simp] theorem State.respond_customActive (s : State) (st : Status) (out : List Byte) : (s.respond st out).customActive = s.customActive := rfl
@[simp] theorem State.respond_t (s : State) (st : Status) (out : List Byte) : (s.respond st out).t = s.t := rfl
@[simp] theorem State.respond_leaf (s : State) (st : Status) (out : List Byte) : (s.respond st out).leaf = s.leaf := rfl
@[simp] theorem State.respond_params (s : State) (st : Status) (out : List Byte) : (s.respond st out).params = s.params := rfl
@[simp] theorem State.respond_pending (s : State) (st : Status) (out : List Byte) : (s.respond st out).pending = s.pending := rfl
@[simp] theorem State.respond_response (s : State) (st : Status) (out : List Byte) : (s.respond st out).response = some ⟨st, out⟩ := rfl

/-! `State.raise` -/

@[simp] theorem State.raise_cfgValid (s : State) (st : Status) : (s.raise st).cfgValid = s.cfgValid := rfl
@[simp] theorem State.raise_cfg (s : State) (st : Status) : (s.raise st).cfg = s.cfg := rfl
@[simp] theorem State.raise_fault (s : State) (st : Status) : (s.raise st).fault = (s.fault || st == .errSequence) := rfl
@[simp] theorem State.raise_ctx (s : State) (st : Status) : (s.raise st).ctx = s.ctx := rfl
@[simp] theorem State.raise_mode (s : State) (st : Status) : (s.raise st).mode = s.mode := rfl
@[simp] theorem State.raise_msgStarted (s : State) (st : Status) : (s.raise st).msgStarted = s.msgStarted := rfl
@[simp] theorem State.raise_customDone (s : State) (st : Status) : (s.raise st).customDone = s.customDone := rfl
@[simp] theorem State.raise_customActive (s : State) (st : Status) : (s.raise st).customActive = s.customActive := rfl
@[simp] theorem State.raise_t (s : State) (st : Status) : (s.raise st).t = s.t := rfl
@[simp] theorem State.raise_leaf (s : State) (st : Status) : (s.raise st).leaf = s.leaf := rfl
@[simp] theorem State.raise_params (s : State) (st : Status) : (s.raise st).params = s.params := rfl
@[simp] theorem State.raise_pending (s : State) (st : Status) : (s.raise st).pending = s.pending := rfl
@[simp] theorem State.raise_response (s : State) (st : Status) : (s.raise st).response = some ⟨st, []⟩ := rfl

/-! `State.erase` -/

@[simp] theorem State.erase_cfgValid (s : State) : s.erase.cfgValid = false := rfl
@[simp] theorem State.erase_cfg (s : State) : s.erase.cfg = Cfg.zero := rfl
@[simp] theorem State.erase_fault (s : State) : s.erase.fault = false := rfl
@[simp] theorem State.erase_ctx (s : State) : s.erase.ctx = Sponge.zero := rfl
@[simp] theorem State.erase_mode (s : State) : s.erase.mode = .absorbing := rfl
@[simp] theorem State.erase_msgStarted (s : State) : s.erase.msgStarted = false := rfl
@[simp] theorem State.erase_customDone (s : State) : s.erase.customDone = false := rfl
@[simp] theorem State.erase_customActive (s : State) : s.erase.customActive = false := rfl
@[simp] theorem State.erase_t (s : State) : s.erase.t = TreeState.zero := rfl
@[simp] theorem State.erase_leaf (s : State) : s.erase.leaf = Sponge.zero := rfl
@[simp] theorem State.erase_params (s : State) : s.erase.params = s.params := rfl
@[simp] theorem State.erase_pending (s : State) : s.erase.pending = s.pending := rfl
@[simp] theorem State.erase_response (s : State) : s.erase.response = s.response := rfl

/-! `State.construct` -/

@[simp] theorem State.construct_cfgValid (s : State) (c : Cfg) : (s.construct c).cfgValid = true := rfl
@[simp] theorem State.construct_cfg (s : State) (c : Cfg) : (s.construct c).cfg = c := rfl
@[simp] theorem State.construct_fault (s : State) (c : Cfg) : (s.construct c).fault = false := rfl
@[simp] theorem State.construct_ctx (s : State) (c : Cfg) : (s.construct c).ctx = Sponge.zero := rfl
@[simp] theorem State.construct_mode (s : State) (c : Cfg) : (s.construct c).mode = .absorbing := rfl
@[simp] theorem State.construct_msgStarted (s : State) (c : Cfg) : (s.construct c).msgStarted = false := rfl
@[simp] theorem State.construct_customDone (s : State) (c : Cfg) : (s.construct c).customDone = false := rfl
@[simp] theorem State.construct_customActive (s : State) (c : Cfg) : (s.construct c).customActive = false := rfl
@[simp] theorem State.construct_t (s : State) (c : Cfg) : (s.construct c).t = TreeState.zero := rfl
@[simp] theorem State.construct_leaf (s : State) (c : Cfg) : (s.construct c).leaf = Sponge.zero := rfl
@[simp] theorem State.construct_params (s : State) (c : Cfg) : (s.construct c).params = s.params := rfl
@[simp] theorem State.construct_pending (s : State) (c : Cfg) : (s.construct c).pending = s.pending := rfl
@[simp] theorem State.construct_response (s : State) (c : Cfg) : (s.construct c).response = s.response := rfl

/-! `State.restart` -/

@[simp] theorem State.restart_cfgValid (s : State) : s.restart.cfgValid = s.cfgValid := rfl
@[simp] theorem State.restart_cfg (s : State) : s.restart.cfg = s.cfg := rfl
@[simp] theorem State.restart_fault (s : State) : s.restart.fault = s.fault := rfl
@[simp] theorem State.restart_ctx (s : State) : s.restart.ctx = Sponge.zero := rfl
@[simp] theorem State.restart_mode (s : State) : s.restart.mode = .absorbing := rfl
@[simp] theorem State.restart_msgStarted (s : State) : s.restart.msgStarted = false := rfl
@[simp] theorem State.restart_customDone (s : State) : s.restart.customDone = false := rfl
@[simp] theorem State.restart_customActive (s : State) : s.restart.customActive = false := rfl
@[simp] theorem State.restart_t (s : State) : s.restart.t = TreeState.zero := rfl
@[simp] theorem State.restart_leaf (s : State) : s.restart.leaf = Sponge.zero := rfl
@[simp] theorem State.restart_params (s : State) : s.restart.params = s.params := rfl
@[simp] theorem State.restart_pending (s : State) : s.restart.pending = s.pending := rfl
@[simp] theorem State.restart_response (s : State) : s.restart.response = s.response := rfl

/-! `State.withCtx` -/

@[simp] theorem State.withCtx_cfgValid (s : State) (c : Sponge) : (s.withCtx c).cfgValid = s.cfgValid := rfl
@[simp] theorem State.withCtx_cfg (s : State) (c : Sponge) : (s.withCtx c).cfg = s.cfg := rfl
@[simp] theorem State.withCtx_fault (s : State) (c : Sponge) : (s.withCtx c).fault = s.fault := rfl
@[simp] theorem State.withCtx_ctx (s : State) (c : Sponge) : (s.withCtx c).ctx = c := rfl
@[simp] theorem State.withCtx_mode (s : State) (c : Sponge) : (s.withCtx c).mode = s.mode := rfl
@[simp] theorem State.withCtx_msgStarted (s : State) (c : Sponge) : (s.withCtx c).msgStarted = s.msgStarted := rfl
@[simp] theorem State.withCtx_customDone (s : State) (c : Sponge) : (s.withCtx c).customDone = s.customDone := rfl
@[simp] theorem State.withCtx_customActive (s : State) (c : Sponge) : (s.withCtx c).customActive = s.customActive := rfl
@[simp] theorem State.withCtx_t (s : State) (c : Sponge) : (s.withCtx c).t = s.t := rfl
@[simp] theorem State.withCtx_leaf (s : State) (c : Sponge) : (s.withCtx c).leaf = s.leaf := rfl
@[simp] theorem State.withCtx_params (s : State) (c : Sponge) : (s.withCtx c).params = s.params := rfl
@[simp] theorem State.withCtx_pending (s : State) (c : Sponge) : (s.withCtx c).pending = s.pending := rfl
@[simp] theorem State.withCtx_response (s : State) (c : Sponge) : (s.withCtx c).response = s.response := rfl

/-! `State.startMessage` -/

@[simp] theorem State.startMessage_cfgValid (s : State) : s.startMessage.cfgValid = s.cfgValid := rfl
@[simp] theorem State.startMessage_cfg (s : State) : s.startMessage.cfg = s.cfg := rfl
@[simp] theorem State.startMessage_fault (s : State) : s.startMessage.fault = s.fault := rfl
@[simp] theorem State.startMessage_ctx (s : State) : s.startMessage.ctx = s.ctx := rfl
@[simp] theorem State.startMessage_mode (s : State) : s.startMessage.mode = s.mode := rfl
@[simp] theorem State.startMessage_msgStarted (s : State) : s.startMessage.msgStarted = true := rfl
@[simp] theorem State.startMessage_customDone (s : State) : s.startMessage.customDone = s.customDone := rfl
@[simp] theorem State.startMessage_customActive (s : State) : s.startMessage.customActive = s.customActive := rfl
@[simp] theorem State.startMessage_t (s : State) : s.startMessage.t = s.t := rfl
@[simp] theorem State.startMessage_leaf (s : State) : s.startMessage.leaf = s.leaf := rfl
@[simp] theorem State.startMessage_params (s : State) : s.startMessage.params = s.params := rfl
@[simp] theorem State.startMessage_pending (s : State) : s.startMessage.pending = s.pending := rfl
@[simp] theorem State.startMessage_response (s : State) : s.startMessage.response = s.response := rfl

/-! `State.markCustom` -/

@[simp] theorem State.markCustom_cfgValid (s : State) : s.markCustom.cfgValid = s.cfgValid := rfl
@[simp] theorem State.markCustom_cfg (s : State) : s.markCustom.cfg = s.cfg := rfl
@[simp] theorem State.markCustom_fault (s : State) : s.markCustom.fault = s.fault := rfl
@[simp] theorem State.markCustom_ctx (s : State) : s.markCustom.ctx = s.ctx := rfl
@[simp] theorem State.markCustom_mode (s : State) : s.markCustom.mode = s.mode := rfl
@[simp] theorem State.markCustom_msgStarted (s : State) : s.markCustom.msgStarted = s.msgStarted := rfl
@[simp] theorem State.markCustom_customDone (s : State) : s.markCustom.customDone = true := rfl
@[simp] theorem State.markCustom_customActive (s : State) : s.markCustom.customActive = s.customActive := rfl
@[simp] theorem State.markCustom_t (s : State) : s.markCustom.t = s.t := rfl
@[simp] theorem State.markCustom_leaf (s : State) : s.markCustom.leaf = s.leaf := rfl
@[simp] theorem State.markCustom_params (s : State) : s.markCustom.params = s.params := rfl
@[simp] theorem State.markCustom_pending (s : State) : s.markCustom.pending = s.pending := rfl
@[simp] theorem State.markCustom_response (s : State) : s.markCustom.response = s.response := rfl

/-! `State.activateCustom` -/

@[simp] theorem State.activateCustom_cfgValid (s : State) : s.activateCustom.cfgValid = s.cfgValid := rfl
@[simp] theorem State.activateCustom_cfg (s : State) : s.activateCustom.cfg = s.cfg := rfl
@[simp] theorem State.activateCustom_fault (s : State) : s.activateCustom.fault = s.fault := rfl
@[simp] theorem State.activateCustom_ctx (s : State) : s.activateCustom.ctx = s.ctx := rfl
@[simp] theorem State.activateCustom_mode (s : State) : s.activateCustom.mode = s.mode := rfl
@[simp] theorem State.activateCustom_msgStarted (s : State) : s.activateCustom.msgStarted = s.msgStarted := rfl
@[simp] theorem State.activateCustom_customDone (s : State) : s.activateCustom.customDone = s.customDone := rfl
@[simp] theorem State.activateCustom_customActive (s : State) : s.activateCustom.customActive = true := rfl
@[simp] theorem State.activateCustom_t (s : State) : s.activateCustom.t = s.t := rfl
@[simp] theorem State.activateCustom_leaf (s : State) : s.activateCustom.leaf = s.leaf := rfl
@[simp] theorem State.activateCustom_params (s : State) : s.activateCustom.params = s.params := rfl
@[simp] theorem State.activateCustom_pending (s : State) : s.activateCustom.pending = s.pending := rfl
@[simp] theorem State.activateCustom_response (s : State) : s.activateCustom.response = s.response := rfl

/-! `State.startSqueezing` -/

@[simp] theorem State.startSqueezing_cfgValid (s : State) : s.startSqueezing.cfgValid = s.cfgValid := rfl
@[simp] theorem State.startSqueezing_cfg (s : State) : s.startSqueezing.cfg = s.cfg := rfl
@[simp] theorem State.startSqueezing_fault (s : State) : s.startSqueezing.fault = s.fault := rfl
@[simp] theorem State.startSqueezing_ctx (s : State) : s.startSqueezing.ctx = s.ctx := rfl
@[simp] theorem State.startSqueezing_mode (s : State) : s.startSqueezing.mode = .squeezing := rfl
@[simp] theorem State.startSqueezing_msgStarted (s : State) : s.startSqueezing.msgStarted = s.msgStarted := rfl
@[simp] theorem State.startSqueezing_customDone (s : State) : s.startSqueezing.customDone = s.customDone := rfl
@[simp] theorem State.startSqueezing_customActive (s : State) : s.startSqueezing.customActive = s.customActive := rfl
@[simp] theorem State.startSqueezing_t (s : State) : s.startSqueezing.t = s.t := rfl
@[simp] theorem State.startSqueezing_leaf (s : State) : s.startSqueezing.leaf = s.leaf := rfl
@[simp] theorem State.startSqueezing_params (s : State) : s.startSqueezing.params = s.params := rfl
@[simp] theorem State.startSqueezing_pending (s : State) : s.startSqueezing.pending = s.pending := rfl
@[simp] theorem State.startSqueezing_response (s : State) : s.startSqueezing.response = s.response := rfl

/-! `State.withTree` -/

@[simp] theorem State.withTree_cfgValid (s : State) (c l : Sponge) (k : TreeState) : (s.withTree c l k).cfgValid = s.cfgValid := rfl
@[simp] theorem State.withTree_cfg (s : State) (c l : Sponge) (k : TreeState) : (s.withTree c l k).cfg = s.cfg := rfl
@[simp] theorem State.withTree_fault (s : State) (c l : Sponge) (k : TreeState) : (s.withTree c l k).fault = s.fault := rfl
@[simp] theorem State.withTree_ctx (s : State) (c l : Sponge) (k : TreeState) : (s.withTree c l k).ctx = c := rfl
@[simp] theorem State.withTree_mode (s : State) (c l : Sponge) (k : TreeState) : (s.withTree c l k).mode = s.mode := rfl
@[simp] theorem State.withTree_msgStarted (s : State) (c l : Sponge) (k : TreeState) : (s.withTree c l k).msgStarted = s.msgStarted := rfl
@[simp] theorem State.withTree_customDone (s : State) (c l : Sponge) (k : TreeState) : (s.withTree c l k).customDone = s.customDone := rfl
@[simp] theorem State.withTree_customActive (s : State) (c l : Sponge) (k : TreeState) : (s.withTree c l k).customActive = s.customActive := rfl
@[simp] theorem State.withTree_t (s : State) (c l : Sponge) (k : TreeState) : (s.withTree c l k).t = k := rfl
@[simp] theorem State.withTree_leaf (s : State) (c l : Sponge) (k : TreeState) : (s.withTree c l k).leaf = l := rfl
@[simp] theorem State.withTree_params (s : State) (c l : Sponge) (k : TreeState) : (s.withTree c l k).params = s.params := rfl
@[simp] theorem State.withTree_pending (s : State) (c l : Sponge) (k : TreeState) : (s.withTree c l k).pending = s.pending := rfl
@[simp] theorem State.withTree_response (s : State) (c l : Sponge) (k : TreeState) : (s.withTree c l k).response = s.response := rfl

/-! `State.pop` -/

@[simp] theorem State.pop_cfgValid (s : State) (rest : List HostEvent) : (s.pop rest).cfgValid = s.cfgValid := rfl
@[simp] theorem State.pop_cfg (s : State) (rest : List HostEvent) : (s.pop rest).cfg = s.cfg := rfl
@[simp] theorem State.pop_fault (s : State) (rest : List HostEvent) : (s.pop rest).fault = s.fault := rfl
@[simp] theorem State.pop_ctx (s : State) (rest : List HostEvent) : (s.pop rest).ctx = s.ctx := rfl
@[simp] theorem State.pop_mode (s : State) (rest : List HostEvent) : (s.pop rest).mode = s.mode := rfl
@[simp] theorem State.pop_msgStarted (s : State) (rest : List HostEvent) : (s.pop rest).msgStarted = s.msgStarted := rfl
@[simp] theorem State.pop_customDone (s : State) (rest : List HostEvent) : (s.pop rest).customDone = s.customDone := rfl
@[simp] theorem State.pop_customActive (s : State) (rest : List HostEvent) : (s.pop rest).customActive = s.customActive := rfl
@[simp] theorem State.pop_t (s : State) (rest : List HostEvent) : (s.pop rest).t = s.t := rfl
@[simp] theorem State.pop_leaf (s : State) (rest : List HostEvent) : (s.pop rest).leaf = s.leaf := rfl
@[simp] theorem State.pop_params (s : State) (rest : List HostEvent) : (s.pop rest).params = s.params := rfl
@[simp] theorem State.pop_pending (s : State) (rest : List HostEvent) : (s.pop rest).pending = rest := rfl
@[simp] theorem State.pop_response (s : State) (rest : List HostEvent) : (s.pop rest).response = s.response := rfl

/-! The permutation and the rate depend on `cfg` and `params` only. -/

theorem State.perm_congr {s t : State} (hc : t.cfg = s.cfg) (hp : t.params = s.params) : t.perm = s.perm := by
  simp [State.perm, hc, hp]

theorem State.rate_congr {s t : State} (hc : t.cfg = s.cfg) : t.rate = s.rate := by simp [State.rate, hc]

@[simp] theorem State.respond_perm (s : State) (st : Status) (out : List Byte) : (s.respond st out).perm = s.perm := rfl
@[simp] theorem State.respond_rate (s : State) (st : Status) (out : List Byte) : (s.respond st out).rate = s.rate := rfl
@[simp] theorem State.withCtx_perm (s : State) (c : Sponge) : (s.withCtx c).perm = s.perm := rfl
@[simp] theorem State.withCtx_rate (s : State) (c : Sponge) : (s.withCtx c).rate = s.rate := rfl
@[simp] theorem State.startMessage_perm (s : State) : s.startMessage.perm = s.perm := rfl
@[simp] theorem State.startMessage_rate (s : State) : s.startMessage.rate = s.rate := rfl
@[simp] theorem State.markCustom_perm (s : State) : s.markCustom.perm = s.perm := rfl
@[simp] theorem State.markCustom_rate (s : State) : s.markCustom.rate = s.rate := rfl
@[simp] theorem State.startSqueezing_perm (s : State) : s.startSqueezing.perm = s.perm := rfl
@[simp] theorem State.startSqueezing_rate (s : State) : s.startSqueezing.rate = s.rate := rfl
@[simp] theorem State.withTree_perm (s : State) (c l : Sponge) (k : TreeState) : (s.withTree c l k).perm = s.perm := rfl
@[simp] theorem State.withTree_rate (s : State) (c l : Sponge) (k : TreeState) : (s.withTree c l k).rate = s.rate := rfl

/-- An error other than `ErrSequence` writes the response only. -/
theorem State.raise_of_ne (s : State) {st : Status} (h : st ≠ .errSequence) :
    s.raise st = { s with response := some ⟨st, []⟩ } := by
  cases st <;> simp_all [State.raise]

/-- `ErrSequence` sets the sticky fault and writes the response. -/
theorem State.raise_errSequence (s : State) :
    s.raise .errSequence = { s with fault := true, response := some ⟨.errSequence, []⟩ } := by
  simp [State.raise]

end Sys2Proof.Machine
end

