-- ==== Sys2Proof/Laws/Bytes.lean ====
section
/-! SUPPORT. Laws/Bytes.lean: reading and writing the bytes of a context, and reading lanes. -/

namespace Sys2Proof.Machine

@[simp] theorem getElem?_tabulate {α : Type} (n : Nat) (f : Nat → α) (i : Nat) :
    (tabulate n f)[i]? = if i < n then some (f i) else none := by
  by_cases h : i < n <;> simp [tabulate, h]

@[simp] theorem getElem_tabulate {α : Type} (n : Nat) (f : Nat → α) (i : Nat) (h : i < n) :
    (tabulate n f)[i] = f i := by simp [tabulate]

theorem memRead_tabulate (f : Nat → Byte) (i : Nat) :
    memRead (tabulate 200 f) i = if i < 200 then f i else 0 := by
  by_cases h : i < 200 <;> simp [memRead, h]

theorem memRead_of_le (S : Bytes) {i : Nat} (h : 200 ≤ i) : memRead S i = 0 := by
  have : ¬ i < 200 := by omega
  simp [memRead, this]

/-- The bytes read determine the storage. -/
theorem ext_memRead {S T : Bytes} (h : ∀ i, i < 200 → memRead S i = memRead T i) : S = T := by
  apply Vector.ext
  intro i hi
  have := h i hi
  simpa [memRead, hi] using this

@[simp] theorem memRead_replicate (i : Nat) : memRead (Vector.replicate 200 0) i = 0 := by
  by_cases h : i < 200 <;> simp [memRead, h]

@[simp] theorem memRead_zero (i : Nat) : memRead Sponge.zero.S i = 0 := memRead_replicate i

/-- Read after write: the byte written, where it is in the storage; every other byte as before. -/
theorem memRead_memWrite (S : Bytes) (i j : Nat) (v : Byte) :
    memRead (memWrite S i v) j = if i = j ∧ i < 200 then v else memRead S j := by
  by_cases hij : i = j
  · subst hij
    by_cases h : i < 200 <;> simp [memRead, memWrite, h]
  · simp [memRead, memWrite, hij]

theorem memRead_memXor (S : Bytes) (i j : Nat) (v : Byte) :
    memRead (memXor S i v) j = memRead S j ^^^ (if i = j ∧ i < 200 then v else 0) := by
  unfold memXor
  rw [memRead_memWrite]
  by_cases h : i = j ∧ i < 200
  · obtain ⟨rfl, h⟩ := h
    simp [h]
  · simp [h]

theorem memRead_loadBytes (s : List Byte) (i : Nat) (h : i < 200) : memRead (loadBytes s) i = s[i]?.getD 0 := by
  simp [loadBytes, memRead_tabulate, h]

@[simp] theorem lane_lanesOf {w : Nat} (f : Nat → Nat → BitVec w) (x y : Nat) :
    lane (lanesOf f) x y = f (x % 5) (y % 5) := by
  have h1 : (x % 5 + 5 * (y % 5)) % 5 = x % 5 := by omega
  have h2 : (x % 5 + 5 * (y % 5)) / 5 = y % 5 := by omega
  simp [lane, lanesOf, h1, h2]

@[simp] theorem lane_mod {w : Nat} (A : Lanes w) (x y : Nat) : lane A (x % 5) (y % 5) = lane A x y := by
  simp [lane]

theorem lane_congr {w : Nat} (A : Lanes w) {x y x' y' : Nat} (hx : x % 5 = x' % 5) (hy : y % 5 = y' % 5) :
    lane A x y = lane A x' y' := by simp [lane, hx, hy]

/-- The lanes read determine the state. -/
theorem ext_lane {w : Nat} {A B : Lanes w} (h : ∀ x y, x < 5 → y < 5 → lane A x y = lane B x y) : A = B := by
  apply Vector.ext
  intro i hi
  have := h (i % 5) (i / 5) (by omega) (by omega)
  have e : i % 5 + 5 * (i / 5 % 5) = i := by omega
  simpa [lane, e] using this

theorem lane_mul_five {w : Nat} (A : Lanes w) (i : Nat) (h : i < 25) : lane A (i % 5) (i / 5) = A[i] := by
  have e : i % 5 + 5 * (i / 5 % 5) = i := by omega
  simp [lane, e]

/-- A permutation leaves the storage above the state's bytes as it was. -/
theorem memRead_permuteBytes_of_le (o : ByteOrder) (v : Variant) (rounds : Nat) (S : Bytes) {i : Nat} (h : v.nb ≤ i) :
    memRead (permuteBytes o v rounds S) i = memRead S i := by
  have key : ∀ (n : Nat) (f : Nat → Byte), n ≤ i →
      memRead (tabulate 200 fun j => if j < n then f j else memRead S j) i = memRead S i := by
    intro n f hn
    rw [memRead_tabulate]
    by_cases h2 : i < 200
    · simp [h2, Nat.not_lt.mpr hn]
    · simp [h2, memRead_of_le S (Nat.not_lt.mp h2)]
  cases v <;> simp only [permuteBytes, keccakBytes, asconBytes] <;> exact key _ _ h

end Sys2Proof.Machine
end

