-- ==== Sys2Proof/Laws/Sponge.lean ====
section
/-! SUPPORT. Laws/Sponge.lean: what the three procedures of the sponge do (R150): they are folds, so they compose by
concatenation (R161, R168); positions and lengths depend on counts only (R278); unused storage stays (log 9). -/

namespace Sys2Proof.Machine

variable {p : Bytes → Bytes} {r : Nat}

/-! ### Absorbing -/

@[simp] theorem absorbBytes_nil (c : Sponge) : absorbBytes p r c [] = c := rfl

@[simp] theorem absorbBytes_cons (c : Sponge) (d : Byte) (s : List Byte) :
    absorbBytes p r c (d :: s) = absorbBytes p r (absorbByte p r c d) s := rfl

theorem absorbBytes_append (c : Sponge) (a b : List Byte) :
    absorbBytes p r c (a ++ b) = absorbBytes p r (absorbBytes p r c a) b := by
  simp [absorbBytes, List.foldl_append]

theorem absorbByte_pos (c : Sponge) (d : Byte) :
    (absorbByte p r c d).pos = if c.pos + 1 = r then 0 else c.pos + 1 := by
  by_cases h : c.pos + 1 = r <;> simp [absorbByte, h]

/-- In a position below the rate, one byte moves the position by one modulo the rate. -/
theorem absorbByte_pos_mod {c : Sponge} (h : c.pos < r) (d : Byte) : (absorbByte p r c d).pos = (c.pos + 1) % r := by
  rw [absorbByte_pos]
  split
  · simp_all
  · rw [Nat.mod_eq_of_lt (by omega)]

theorem absorbBytes_pos_lt {c : Sponge} (h : c.pos < r) (s : List Byte) : (absorbBytes p r c s).pos < r := by
  induction s generalizing c with
  | nil => simpa using h
  | cons d s ih =>
    apply ih
    rw [absorbByte_pos_mod h]
    exact Nat.mod_lt _ (by omega)

/-- The position after absorbing is the position before plus the length, modulo the rate (R183). -/
theorem absorbBytes_pos {c : Sponge} (h : c.pos < r) (s : List Byte) :
    (absorbBytes p r c s).pos = (c.pos + s.length) % r := by
  induction s generalizing c with
  | nil => simp [Nat.mod_eq_of_lt h]
  | cons d s ih =>
    have h' : (absorbByte p r c d).pos < r := by
      rw [absorbByte_pos_mod h]
      exact Nat.mod_lt _ (by omega)
    rw [absorbBytes_cons, ih h', absorbByte_pos_mod h, Nat.mod_add_mod]
    congr 1
    simp only [List.length_cons]
    omega

/-- The position a run of `n` absorbed bytes leaves, whatever the bytes (R278). -/
theorem absorbBytes_pos_congr {p q : Bytes → Bytes} {c d : Sponge} (hc : c.pos = d.pos) {s u : List Byte}
    (hs : s.length = u.length) : (absorbBytes p r c s).pos = (absorbBytes q r d u).pos := by
  induction s generalizing c d u with
  | nil => cases u with
    | nil => simpa using hc
    | cons _ _ => simp at hs
  | cons a s ih => cases u with
    | nil => simp at hs
    | cons b u =>
      rw [absorbBytes_cons, absorbBytes_cons]
      exact ih (by simp [absorbByte_pos, hc]) (by simpa using hs)

/-- Bytes that do not fill the block are XORed into the rate from the position on; no permutation runs (R150). -/
theorem absorbBytes_short {c : Sponge} {s : List Byte} (h : c.pos + s.length < r) (hr : r ≤ 200) :
    (absorbBytes p r c s).pos = c.pos + s.length ∧
    ∀ i, memRead (absorbBytes p r c s).S i = memRead c.S i ^^^ (if c.pos ≤ i then s[i - c.pos]?.getD 0 else 0) := by
  induction s generalizing c with
  | nil => simp
  | cons d s ih =>
    simp only [List.length_cons] at h
    have hb : absorbByte p r c d = { S := memXor c.S c.pos d, pos := c.pos + 1 } := by
      have : ¬ c.pos + 1 = r := by omega
      simp [absorbByte, this]
    have := ih (c := absorbByte p r c d) (by simp [hb]; omega)
    rw [hb] at this
    obtain ⟨h1, h2⟩ := this
    rw [absorbBytes_cons, hb]
    refine ⟨by simp [h1]; omega, fun i => ?_⟩
    rw [h2, memRead_memXor]
    simp only
    rcases Nat.lt_trichotomy i c.pos with hlt | heq | hgt
    · simp [show ¬ c.pos = i by omega, show ¬ c.pos + 1 ≤ i by omega, show ¬ c.pos ≤ i by omega]
    · subst heq
      have h3 : c.pos < 200 := by omega
      have h4 : ¬ c.pos + 1 ≤ c.pos := by omega
      simp [h3, h4]
    · simp [show ¬ c.pos = i by omega, show c.pos + 1 ≤ i by omega, show c.pos ≤ i by omega,
        show i - c.pos = (i - (c.pos + 1)) + 1 by omega]

/-! ### Squeezing -/

@[simp] theorem squeezeBytes_zero (c : Sponge) : squeezeBytes p r 0 c = ([], c) := rfl

theorem squeezeBytes_length (n : Nat) (c : Sponge) : (squeezeBytes p r n c).1.length = n := by
  induction n generalizing c with
  | zero => rfl
  | succ n ih => simp [squeezeBytes, ih]

/-- Squeezing `m` bytes and then `n` is squeezing `m + n` (R168). -/
theorem squeezeBytes_add (m n : Nat) (c : Sponge) :
    squeezeBytes p r (m + n) c =
      ((squeezeBytes p r m c).1 ++ (squeezeBytes p r n (squeezeBytes p r m c).2).1,
       (squeezeBytes p r n (squeezeBytes p r m c).2).2) := by
  induction m generalizing c with
  | zero => simp
  | succ m ih =>
    rw [show m + 1 + n = (m + n) + 1 by omega]
    simp [squeezeBytes, ih]

theorem refill_pos (c : Sponge) : (refill p r c).pos = if c.pos = r then 0 else c.pos := by
  by_cases h : c.pos = r <;> simp [refill, h]

/-- The position a run of `n` squeezed bytes leaves, whatever the state bytes (R278). -/
theorem squeezeBytes_pos_congr {p q : Bytes → Bytes} (n : Nat) {c d : Sponge} (h : c.pos = d.pos) :
    (squeezeBytes p r n c).2.pos = (squeezeBytes q r n d).2.pos := by
  induction n generalizing c d with
  | zero => simpa using h
  | succ n ih =>
    simp only [squeezeBytes]
    apply ih
    simp [refill_pos, h]

theorem squeezeBytes_pos_le {c : Sponge} (n : Nat) (hr : 0 < r) (h : c.pos ≤ r) :
    (squeezeBytes p r n c).2.pos ≤ r := by
  induction n generalizing c with
  | zero => simpa using h
  | succ n ih =>
    simp only [squeezeBytes]
    apply ih
    simp only [refill_pos]
    split <;> omega

/-! ### A property of the state bytes that the procedures keep -/

/-- Unused storage is zero: the bytes from `n` on (log 9). -/
def ZeroFrom (n : Nat) (S : Bytes) : Prop := ∀ i, n ≤ i → memRead S i = 0

theorem zeroFrom_zero (n : Nat) : ZeroFrom n Sponge.zero.S := fun i _ => memRead_zero i

theorem ZeroFrom.memXor {n : Nat} {S : Bytes} (h : ZeroFrom n S) {i : Nat} (hi : i < n) (v : Byte) :
    ZeroFrom n (memXor S i v) := by
  intro j hj
  rw [memRead_memXor, h j hj]
  simp [show ¬ i = j by omega]

theorem zeroFrom_permuteBytes (o : ByteOrder) (v : Variant) (rounds : Nat) {S : Bytes} (h : ZeroFrom v.nb S) :
    ZeroFrom v.nb (permuteBytes o v rounds S) := by
  intro i hi
  rw [memRead_permuteBytes_of_le o v rounds S hi]
  exact h i hi

theorem absorbBytes_zeroFrom {n : Nat} (hp : ∀ S, ZeroFrom n S → ZeroFrom n (p S)) (hr : r ≤ n) {c : Sponge}
    (hc : c.pos < r) (h : ZeroFrom n c.S) (s : List Byte) : ZeroFrom n (absorbBytes p r c s).S := by
  induction s generalizing c with
  | nil => simpa using h
  | cons d s ih =>
    have hx := h.memXor (i := c.pos) (by omega) d
    apply ih
    · rw [absorbByte_pos_mod hc]
      exact Nat.mod_lt _ (by omega)
    · by_cases he : c.pos + 1 = r
      · simpa [absorbByte, he] using hp _ hx
      · simpa [absorbByte, he] using hx

theorem pad_zeroFrom {n : Nat} (hp : ∀ S, ZeroFrom n S → ZeroFrom n (p S)) (hr : r ≤ n) {c : Sponge}
    (hc : c.pos < r) (h : ZeroFrom n c.S) (d : Byte) : ZeroFrom n (pad p r c d).S :=
  hp _ ((h.memXor (by omega) d).memXor (by omega) 0x80)

theorem squeezeBytes_zeroFrom {n : Nat} (hp : ∀ S, ZeroFrom n S → ZeroFrom n (p S)) {c : Sponge} (h : ZeroFrom n c.S)
    (k : Nat) : ZeroFrom n (squeezeBytes p r k c).2.S := by
  induction k generalizing c with
  | zero => simpa using h
  | succ k ih =>
    simp only [squeezeBytes]
    apply ih
    by_cases he : c.pos = r
    · simpa [refill, he] using hp _ h
    · simpa [refill, he] using h

@[simp] theorem pad_pos (c : Sponge) (d : Byte) : (pad p r c d).pos = 0 := rfl

end Sys2Proof.Machine
end

