-- ==== Sys2Proof/Laws/Encoding.lean ====
section
/-! SUPPORT. Laws/Encoding.lean: the integer and string encodings (R196 to R198, R219). -/

namespace Sys2Proof.Machine

theorem bigEndian_length (n x : Nat) : (bigEndian n x).length = n := by simp [bigEndian]

theorem bigEndian_succ (n x : Nat) : bigEndian (n + 1) x = bigEndian n (x / 256) ++ [BitVec.ofNat 8 x] := by
  simp only [bigEndian, List.range_succ, List.map_append, List.map_cons, List.map_nil]
  congr 1
  · apply List.map_congr_left
    intro k hk
    rw [List.mem_range] at hk
    congr 1
    rw [show (256 : Nat) = 2 ^ 8 by rfl, ← Nat.shiftRight_eq_div_pow, ← Nat.shiftRight_add]
    congr 1
    omega
  · simp

theorem bigEndianValue_append (l m : List Byte) :
    bigEndianValue (l ++ m) = m.foldl (fun acc b => 256 * acc + b.toNat) (bigEndianValue l) := by
  simp [bigEndianValue]

/-- Reading back what `bigEndian` wrote gives the number, where the bytes can hold it. -/
theorem bigEndianValue_bigEndian (n : Nat) {x : Nat} (h : x < 2 ^ (8 * n)) : bigEndianValue (bigEndian n x) = x := by
  induction n generalizing x with
  | zero =>
    have : x = 0 := by simpa using h
    subst this
    rfl
  | succ n ih =>
    have h' : x / 256 < 2 ^ (8 * n) := by
      rw [show 8 * (n + 1) = 8 * n + 8 by omega, Nat.pow_add] at h
      exact Nat.div_lt_of_lt_mul (by omega)
    rw [bigEndian_succ, bigEndianValue_append, ih h']
    simp
    omega

/-- `byteCount x` bytes hold `x`, and no fewer do (R196, R219). -/
theorem lt_pow_byteCount (x : Nat) : x < 2 ^ (8 * byteCount x) := by
  unfold byteCount
  split
  · simp_all
  · apply Nat.lt_of_lt_of_le (Nat.lt_log2_self (n := x))
    apply Nat.pow_le_pow_right (by omega)
    omega

theorem byteCount_le {x m : Nat} (h : x < 2 ^ (8 * m)) : byteCount x ≤ m := by
  unfold byteCount
  split
  · omega
  · rename_i hx
    have : Nat.log2 x < 8 * m := (Nat.log2_lt hx).2 h
    omega

theorem leftEncode_length_pos (x : Nat) : 0 < (leftEncode x).length := by simp [leftEncode]

theorem leftEncode_length (x : Nat) : (leftEncode x).length = max 1 (byteCount x) + 1 := by
  simp [leftEncode, bigEndian_length]

theorem encodeString_length_congr {a b : List Byte} (h : a.length = b.length) :
    (encodeString a).length = (encodeString b).length := by
  simp [encodeString, h]

/-- The length of a `bytepad` is a multiple of the rate (R198). -/
theorem bytepad_length_mod (z : List Byte) {r : Nat} (hr : 0 < r) : (bytepad z r).length % r = 0 := by
  simp only [bytepad, List.length_append, List.length_replicate]
  generalize (leftEncode r).length + z.length = n
  have hlt := Nat.mod_lt n hr
  by_cases h : n % r = 0
  · simp [h]
  · rw [Nat.mod_eq_of_lt (a := r - n % r) (by omega), Nat.add_mod, Nat.mod_eq_of_lt (a := r - n % r) (by omega),
      show n % r + (r - n % r) = r by omega, Nat.mod_self]

theorem customPrefix_length_mod (name cust : List Byte) {r : Nat} (hr : 0 < r) :
    (customPrefix name cust r).length % r = 0 := bytepad_length_mod _ hr

theorem customPrefix_length_congr {a b c d : List Byte} (r : Nat) (h : a.length = c.length) (h' : b.length = d.length) :
    (customPrefix a b r).length = (customPrefix c d r).length := by
  simp only [customPrefix, bytepad, List.length_append, List.length_replicate, encodeString_length_congr h,
    encodeString_length_congr h']

theorem customPrefix_ne_nil (name cust : List Byte) (r : Nat) : customPrefix name cust r ≠ [] := by
  intro h
  have := congrArg List.length h
  simp only [customPrefix, bytepad, List.length_append, List.length_nil] at this
  have := leftEncode_length_pos r
  omega

end Sys2Proof.Machine
end

