-- ==== Sys2Proof/Laws/Tree.lean ====
section
/-! SUPPORT. Laws/Tree.lean: the tree coordinator (R212, R216, R217): it is a fold over bytes, its counters depend on
lengths only, and it keeps the coordinator's part of the invariant. -/

namespace Sys2Proof.Machine

variable {p : Bytes → Bytes} {r : Nat}

@[simp] theorem treeAbsorb_nil (k : Coord) : treeAbsorb p r k [] = k := rfl

@[simp] theorem treeAbsorb_cons (k : Coord) (d : Byte) (s : List Byte) :
    treeAbsorb p r k (d :: s) = treeAbsorb p r (treeAbsorbByte p r k d) s := rfl

theorem treeAbsorb_append (k : Coord) (a b : List Byte) :
    treeAbsorb p r k (a ++ b) = treeAbsorb p r (treeAbsorb p r k a) b := by
  simp [treeAbsorb, List.foldl_append]

theorem chainingValue_length (leaf : Sponge) : (chainingValue p r leaf).length = cvLen := squeezeBytes_length _ _

/-! ### Counters -/

/-- What one byte does to the tree state, whatever the byte (R212, R278). -/
def TreeState.advance (t : TreeState) : TreeState :=
  if t.firstCount < chunkBytes then { t with firstCount := t.firstCount + 1 }
  else if t.leafCount + 1 = chunkBytes then { t with leafCount := 0, nLeaves := t.nLeaves + 1 }
  else { t with leafCount := t.leafCount + 1 }

theorem treeAbsorbByte_t (k : Coord) (d : Byte) : (treeAbsorbByte p r k d).t = k.t.advance := by
  unfold treeAbsorbByte TreeState.advance leafByte
  split
  · rfl
  · dsimp only
    split <;> simp_all [closeLeaf]

theorem treeAbsorb_t (k : Coord) (s : List Byte) : (treeAbsorb p r k s).t = Nat.repeat TreeState.advance s.length k.t := by
  have comm : ∀ (n : Nat) (t : TreeState), Nat.repeat TreeState.advance n t.advance = (Nat.repeat TreeState.advance n t).advance := by
    intro n t
    induction n with
    | zero => rfl
    | succ n ih => simp [Nat.repeat, ih]
  induction s generalizing k with
  | nil => rfl
  | cons d s ih => rw [treeAbsorb_cons, ih, treeAbsorbByte_t, List.length_cons, Nat.repeat, comm]

theorem TreeState.advance_phase (t : TreeState) : t.advance.phase = t.phase := by
  unfold TreeState.advance
  split
  · rfl
  · split <;> rfl

theorem TreeState.nLeaves_le_advance (t : TreeState) : t.nLeaves ≤ t.advance.nLeaves := by
  unfold TreeState.advance
  split
  · exact Nat.le_refl _
  · split <;> simp

theorem TreeState.advance_nLeaves_le (t : TreeState) : t.advance.nLeaves ≤ t.nLeaves + 1 := by
  unfold TreeState.advance
  split
  · simp
  · split <;> simp

theorem TreeState.repeat_advance_phase (n : Nat) (t : TreeState) :
    (Nat.repeat TreeState.advance n t).phase = t.phase := by
  induction n with
  | zero => rfl
  | succ n ih => simp [Nat.repeat, advance_phase, ih]

theorem TreeState.nLeaves_le_repeat (n : Nat) (t : TreeState) :
    t.nLeaves ≤ (Nat.repeat TreeState.advance n t).nLeaves := by
  induction n with
  | zero => exact Nat.le_refl _
  | succ n ih => exact Nat.le_trans ih (nLeaves_le_advance _)

theorem TreeState.repeat_nLeaves_le (n : Nat) (t : TreeState) :
    (Nat.repeat TreeState.advance n t).nLeaves ≤ t.nLeaves + n := by
  induction n with
  | zero => simp [Nat.repeat]
  | succ n ih =>
    have := advance_nLeaves_le (Nat.repeat TreeState.advance n t)
    simp only [Nat.repeat]
    omega

/-- The counters after `n` bytes: the first chunk fills to 8192 bytes, then leaves of 8192 bytes close (R212). -/
theorem TreeState.repeat_advance (n : Nat) {t : TreeState} (h1 : t.firstCount ≤ chunkBytes) (h2 : t.leafCount < chunkBytes)
    (h3 : t.firstCount < chunkBytes → t.leafCount = 0) :
    Nat.repeat TreeState.advance n t =
      { phase := t.phase, firstCount := min chunkBytes (t.firstCount + n),
        leafCount := (t.leafCount + (n - (chunkBytes - t.firstCount))) % chunkBytes,
        nLeaves := t.nLeaves + (t.leafCount + (n - (chunkBytes - t.firstCount))) / chunkBytes } := by
  obtain ⟨ph, fc, lc, nl⟩ := t
  simp only at h1 h2 h3
  induction n with
  | zero =>
    simp only [Nat.repeat, Nat.add_zero, Nat.zero_sub, Nat.min_eq_right h1, Nat.mod_eq_of_lt h2, Nat.div_eq_of_lt h2]
  | succ n ih =>
    rw [Nat.repeat, ih]
    unfold TreeState.advance
    dsimp only
    by_cases hfc : min chunkBytes (fc + n) < chunkBytes
    · have := h3 (by omega)
      subst this
      rw [if_pos hfc]
      congr 1 <;> simp only [chunkBytes] at * <;> omega
    · rw [if_neg hfc]
      by_cases hlc : (lc + (n - (chunkBytes - fc))) % chunkBytes + 1 = chunkBytes
      · rw [if_pos hlc]
        congr 1 <;> simp only [chunkBytes] at * <;> omega
      · rw [if_neg hlc]
        congr 1 <;> simp only [chunkBytes] at * <;> omega

/-! ### The coordinator's part of the invariant (R20, R26, R30, R32) -/

/-- The ranges and relations between the root, the leaf and the counters in tree mode. -/
structure Coord.Ok (k : Coord) : Prop where
  ctxPos : k.ctx.pos < treeRate
  firstCountLe : k.t.firstCount ≤ chunkBytes
  leafCountLt : k.t.leafCount < chunkBytes
  firstChunk : k.t.firstCount < chunkBytes → k.t.leafCount = 0 ∧ k.t.nLeaves = 0
  leafPos : k.leaf.pos = k.t.leafCount % treeRate
  leafClosed : k.t.leafCount = 0 → k.leaf = Sponge.zero

theorem closeLeaf_ctx_pos_lt {k : Coord} (h : k.ctx.pos < r) : (closeLeaf p r k).ctx.pos < r :=
  absorbBytes_pos_lt h _

theorem markRoot_pos_lt {k : Coord} (h : k.ctx.pos < r) : (markRoot p r k).pos < r := by
  unfold markRoot
  split
  · exact h
  · exact absorbBytes_pos_lt h _

theorem treeAbsorbByte_ok {k : Coord} (h : k.Ok) (d : Byte) : (treeAbsorbByte p treeRate k d).Ok := by
  have hz : (Sponge.zero).pos = 0 := rfl
  unfold treeAbsorbByte
  split
  · rename_i hlt
    obtain ⟨h1, h2⟩ := h.firstChunk hlt
    refine ⟨?_, hlt, h.leafCountLt, fun _ => ⟨h1, h2⟩, h.leafPos, h.leafClosed⟩
    exact absorbBytes_pos_lt h.ctxPos [d]
  · rename_i hge
    have hm := markRoot_pos_lt (p := p) (k := k) h.ctxPos
    have hc := h.leafCountLt
    have hl : k.leaf.pos < treeRate := by
      rw [h.leafPos]
      exact Nat.mod_lt _ (by decide)
    unfold leafByte
    dsimp only
    split
    · refine ⟨closeLeaf_ctx_pos_lt hm, h.firstCountLe, by simp [closeLeaf, chunkBytes], ?_, rfl, fun _ => rfl⟩
      intro hlt
      exact absurd hlt hge
    · rename_i hne
      refine ⟨hm, h.firstCountLe, ?_, fun hlt => absurd hlt hge, ?_, ?_⟩
      · simp only at hne ⊢
        omega
      · simp only
        rw [absorbByte_pos_mod hl, h.leafPos, Nat.mod_add_mod]
      · simp

theorem treeAbsorb_ok {k : Coord} (h : k.Ok) (s : List Byte) : (treeAbsorb p treeRate k s).Ok := by
  induction s generalizing k with
  | nil => exact h
  | cons d s ih => exact ih (treeAbsorbByte_ok h d)

/-- What `TreeFinish` leaves: no open leaf, position 0, a final phase, the same first chunk (R217). -/
theorem treeFinish_spec (k : Coord) (hl : k.t.leafCount = 0 → k.leaf = Sponge.zero) :
    (treeFinish p r k).ctx.pos = 0 ∧ (treeFinish p r k).t.leafCount = 0 ∧ (treeFinish p r k).leaf = Sponge.zero ∧
    (treeFinish p r k).t.phase ≠ .collecting ∧ (treeFinish p r k).t.firstCount = k.t.firstCount ∧
    (treeFinish p r k).t.nLeaves = k.t.nLeaves + if 0 < k.t.leafCount then 1 else 0 := by
  unfold treeFinish closeOpenLeaf
  split
  · dsimp only
    split
    · simp_all [closeLeaf]
    · have : k.t.leafCount = 0 := by omega
      simp_all
  · rename_i h
    have : k.t.leafCount = 0 := by simp [TreeState.inTree] at h; omega
    simp_all

end Sys2Proof.Machine
end

