-- ==== Sys2Proof/Laws/Commands.lean ====
section
/-! SUPPORT. Laws/Commands.lean: for each command, once, everything it can do: if it answers a next state, then one of
the listed cases holds. Later proofs cite these and do not unfold the meanings. -/

namespace Sys2Proof.Machine

theorem canAbsorb_iff (s : State) : canAbsorb s = true ↔ s.cfgValid = true ∧ s.mode = .absorbing := by
  simp [canAbsorb]

theorem canSqueeze_iff (s : State) : canSqueeze s = true ↔ s.cfgValid = true ∧ s.mode = .squeezing := by
  simp [canSqueeze]

theorem canCustom_iff (s : State) : canCustom s = true ↔ s.cfgValid = true ∧ s.cfg.dom = .custom ∧ s.mode = .absorbing ∧
    s.msgStarted = false ∧ s.customDone = false := by
  simp [canCustom, and_assoc]

theorem variantOf_eq_some {code : BitVec 3} {v : Variant} : variantOf code = some v ↔ v.code = code := by
  revert code
  cases v <;> decide

@[simp] theorem variantOf_code (v : Variant) : variantOf v.code = some v := variantOf_eq_some.2 rfl

theorem variantOf_eq_none {code : BitVec 3} : variantOf code = none ↔ 4 < code.toNat := by
  revert code
  decide

theorem adoptTree_eq_some {s u : State} {k : Coord} : s.adoptTree k = some u ↔
    k.t.nLeaves < 2 ^ s.params.treeCountBits ∧ u = s.withTree k.ctx k.leaf k.t := by
  unfold State.adoptTree countFits
  by_cases h : k.t.nLeaves < 2 ^ s.params.treeCountBits <;> simp [h, eq_comm]

theorem adoptTree_eq_none {s : State} {k : Coord} : s.adoptTree k = none ↔
    2 ^ s.params.treeCountBits ≤ k.t.nLeaves := by
  unfold State.adoptTree countFits
  by_cases h : k.t.nLeaves < 2 ^ s.params.treeCountBits
  · simp [h]
  · simp [h, Nat.not_lt.1 h]

/-! ### CONFIG, RESET -/

theorem execConfig_next {var : BitVec 3} {dom : Dom} {rounds : BitVec 5} {rate : BitVec 8} {s t : State}
    (h : execConfig var dom rounds rate s = .next t) :
    (s.fault = true ∧ t = s.raise .errFaulted) ∨
    (s.fault = false ∧ t = s.raise .errConfig ∧ ∀ v, v.code = var → cfgOk ⟨v, dom, rounds, rate⟩ = false) ∨
    (s.fault = false ∧ ∃ v, v.code = var ∧ cfgOk ⟨v, dom, rounds, rate⟩ = true ∧
      t = (s.construct ⟨v, dom, rounds, rate⟩).respond .ok []) := by
  unfold execConfig at h
  cases hf : s.fault
  · right
    cases hv : variantOf var with
    | none =>
      left
      simp only [hf, hv] at h
      cases h
      refine ⟨rfl, rfl, fun v hc => ?_⟩
      rw [← hc, variantOf_code] at hv
      cases hv
    | some v =>
      simp only [hf, hv] at h
      have hvc := variantOf_eq_some.1 hv
      cases hok : cfgOk ⟨v, dom, rounds, rate⟩
      · left
        simp [hok] at h
        refine ⟨rfl, h.symm, fun v' hc => ?_⟩
        rw [← hc, variantOf_code] at hv
        cases hv
        exact hok
      · right
        simp [hok] at h
        exact ⟨rfl, v, hvc, hok, h.symm⟩
  · simp [hf] at h
    exact .inl ⟨rfl, h.symm⟩

theorem execConfig_ok {v : Variant} {dom : Dom} {rounds : BitVec 5} {rate : BitVec 8} {s : State} (hf : s.fault = false)
    (h : cfgOk ⟨v, dom, rounds, rate⟩ = true) :
    execConfig v.code dom rounds rate s = .next ((s.construct ⟨v, dom, rounds, rate⟩).respond .ok []) := by
  simp [execConfig, hf, h]

theorem execReset_next {s t : State} (h : execReset s = .next t) :
    (s.fault = true ∧ t = s.raise .errFaulted) ∨ (s.fault = false ∧ s.cfgValid = false ∧ t = s.raise .errSequence) ∨
    (s.fault = false ∧ s.cfgValid = true ∧ t = s.restart.respond .ok []) := by
  unfold execReset at h
  cases hf : s.fault <;> cases hv : s.cfgValid <;> simp_all

/-! ### ABSORB -/

/-- What `ABSORB` leaves outside tree mode (R160). -/
theorem execAbsorb_plain {s : State} {d : Byte} {ds : List Byte} (hf : s.fault = false) (hv : s.cfgValid = true)
    (hm : s.mode = .absorbing) (hd : s.cfg.dom ≠ .tree) : execAbsorb (d :: ds) s =
      .next ((s.startMessage.withCtx (absorbBytes s.perm s.rate s.ctx (d :: ds))).respond .ok []) := by
  have hc := (canAbsorb_iff s).2 ⟨hv, hm⟩
  cases hdom : s.cfg.dom <;> simp_all [execAbsorb, absorbMessage]

theorem execAbsorb_nil {s : State} (hf : s.fault = false) (hv : s.cfgValid = true) (hm : s.mode = .absorbing) :
    execAbsorb [] s = .next (s.respond .ok []) := by
  simp [execAbsorb, hf, (canAbsorb_iff s).2 ⟨hv, hm⟩]

/-- What `ABSORB` leaves in tree mode (R160, R212). -/
theorem execAbsorb_tree {s : State} {d : Byte} {ds : List Byte} (hf : s.fault = false) (hv : s.cfgValid = true)
    (hm : s.mode = .absorbing) (hd : s.cfg.dom = .tree) : execAbsorb (d :: ds) s =
      answerTree (s.adoptTree (treeAbsorb s.perm s.rate s.coord (d :: ds))) := by
  have hc := (canAbsorb_iff s).2 ⟨hv, hm⟩
  simp [execAbsorb, absorbMessage, hf, hc, hd]

/-- `ABSORB` in tree mode where the chunk counter fits (R45). -/
theorem execAbsorb_tree_fits {s : State} {d : Byte} {ds : List Byte} (hf : s.fault = false) (hv : s.cfgValid = true)
    (hm : s.mode = .absorbing) (hd : s.cfg.dom = .tree)
    (hn : (treeAbsorb s.perm s.rate s.coord (d :: ds)).t.nLeaves < 2 ^ s.params.treeCountBits) :
    execAbsorb (d :: ds) s = .next ((s.withTree (treeAbsorb s.perm s.rate s.coord (d :: ds)).ctx
      (treeAbsorb s.perm s.rate s.coord (d :: ds)).leaf (treeAbsorb s.perm s.rate s.coord (d :: ds)).t).respond .ok []) := by
  rw [execAbsorb_tree hf hv hm hd, adoptTree_eq_some.2 ⟨hn, rfl⟩]
  rfl

/-- `ABSORB` in tree mode where the chunk counter would not fit (R45). -/
theorem execAbsorb_tree_overflow {s : State} {d : Byte} {ds : List Byte} (hf : s.fault = false) (hv : s.cfgValid = true)
    (hm : s.mode = .absorbing) (hd : s.cfg.dom = .tree)
    (hn : 2 ^ s.params.treeCountBits ≤ (treeAbsorb s.perm s.rate s.coord (d :: ds)).t.nLeaves) :
    execAbsorb (d :: ds) s = .refused .treeCountOverflow := by
  rw [execAbsorb_tree hf hv hm hd, adoptTree_eq_none.2 hn]
  rfl

theorem answerTree_next {r : Option State} {t : State} (h : answerTree r = .next t) :
    ∃ u, r = some u ∧ t = u.respond .ok [] := by
  cases r with
  | none => cases h
  | some u => cases h; exact ⟨u, rfl, rfl⟩

theorem execAbsorb_next {data : List Byte} {s t : State} (h : execAbsorb data s = .next t) :
    (s.fault = true ∧ t = s.raise .errFaulted) ∨
    (s.fault = false ∧ canAbsorb s = false ∧ t = s.raise .errSequence) ∨
    (s.fault = false ∧ s.cfgValid = true ∧ s.mode = .absorbing ∧ data = [] ∧ t = s.respond .ok []) ∨
    (s.fault = false ∧ s.cfgValid = true ∧ s.mode = .absorbing ∧ data ≠ [] ∧ s.cfg.dom ≠ .tree ∧
      t = (s.startMessage.withCtx (absorbBytes s.perm s.rate s.ctx data)).respond .ok []) ∨
    (s.fault = false ∧ s.cfgValid = true ∧ s.mode = .absorbing ∧ data ≠ [] ∧ s.cfg.dom = .tree ∧
      ∃ k, k = treeAbsorb s.perm s.rate s.coord data ∧ k.t.nLeaves < 2 ^ s.params.treeCountBits ∧
        t = (s.withTree k.ctx k.leaf k.t).respond .ok []) := by
  cases hf : s.fault
  · cases hc : canAbsorb s
    · simp [execAbsorb, hf, hc] at h
      exact .inr (.inl ⟨rfl, rfl, h.symm⟩)
    · obtain ⟨hv, hm⟩ := (canAbsorb_iff s).1 hc
      cases data with
      | nil =>
        rw [execAbsorb_nil hf hv hm] at h
        cases h
        exact .inr (.inr (.inl ⟨rfl, hv, hm, rfl, rfl⟩))
      | cons d ds =>
        by_cases hd : s.cfg.dom = .tree
        · rw [execAbsorb_tree hf hv hm hd] at h
          obtain ⟨u, hu, rfl⟩ := answerTree_next h
          obtain ⟨hn, rfl⟩ := adoptTree_eq_some.1 hu
          exact .inr (.inr (.inr (.inr ⟨rfl, hv, hm, by simp, hd, _, rfl, hn, rfl⟩)))
        · rw [execAbsorb_plain hf hv hm hd] at h
          cases h
          exact .inr (.inr (.inr (.inl ⟨rfl, hv, hm, by simp, hd, rfl⟩)))
  · simp [execAbsorb, hf] at h
    exact .inl ⟨rfl, h.symm⟩

/-! ### FINISH -/

/-- What `FINISH` leaves outside tree mode (R163). -/
theorem execFinish_plain {s : State} (hf : s.fault = false) (hv : s.cfgValid = true) (hm : s.mode = .absorbing)
    (hd : s.cfg.dom ≠ .tree) : execFinish s =
      .next ((s.withCtx (pad s.perm s.rate s.ctx (suffixByte s.cfg.dom s.customActive))).startSqueezing.respond .ok []) := by
  have hc := (canAbsorb_iff s).2 ⟨hv, hm⟩
  cases hdom : s.cfg.dom <;> simp_all [execFinish, finishMessage, finishPlain]

/-- What `FINISH` leaves in tree mode (R163, R217). -/
theorem execFinish_tree {s : State} (hf : s.fault = false) (hv : s.cfgValid = true) (hm : s.mode = .absorbing)
    (hd : s.cfg.dom = .tree) : execFinish s =
      answerTree ((s.adoptTree (treeFinish s.perm s.rate s.coord)).map State.startSqueezing) := by
  have hc := (canAbsorb_iff s).2 ⟨hv, hm⟩
  simp [execFinish, finishMessage, hf, hc, hd]

/-- `FINISH` in tree mode where the chunk counter fits (R45). -/
theorem execFinish_tree_fits {s : State} (hf : s.fault = false) (hv : s.cfgValid = true) (hm : s.mode = .absorbing)
    (hd : s.cfg.dom = .tree) (hn : (treeFinish s.perm s.rate s.coord).t.nLeaves < 2 ^ s.params.treeCountBits) :
    execFinish s = .next ((s.withTree (treeFinish s.perm s.rate s.coord).ctx (treeFinish s.perm s.rate s.coord).leaf
      (treeFinish s.perm s.rate s.coord).t).startSqueezing.respond .ok []) := by
  rw [execFinish_tree hf hv hm hd, adoptTree_eq_some.2 ⟨hn, rfl⟩]
  rfl

/-- `FINISH` in tree mode where the chunk counter would not fit (R45). -/
theorem execFinish_tree_overflow {s : State} (hf : s.fault = false) (hv : s.cfgValid = true) (hm : s.mode = .absorbing)
    (hd : s.cfg.dom = .tree) (hn : 2 ^ s.params.treeCountBits ≤ (treeFinish s.perm s.rate s.coord).t.nLeaves) :
    execFinish s = .refused .treeCountOverflow := by
  rw [execFinish_tree hf hv hm hd, adoptTree_eq_none.2 hn]
  rfl

theorem execFinish_next {s t : State} (h : execFinish s = .next t) :
    (s.fault = true ∧ t = s.raise .errFaulted) ∨
    (s.fault = false ∧ canAbsorb s = false ∧ t = s.raise .errSequence) ∨
    (s.fault = false ∧ s.cfgValid = true ∧ s.mode = .absorbing ∧ s.cfg.dom ≠ .tree ∧
      t = (s.withCtx (pad s.perm s.rate s.ctx (suffixByte s.cfg.dom s.customActive))).startSqueezing.respond .ok []) ∨
    (s.fault = false ∧ s.cfgValid = true ∧ s.mode = .absorbing ∧ s.cfg.dom = .tree ∧
      ∃ k, k = treeFinish s.perm s.rate s.coord ∧ k.t.nLeaves < 2 ^ s.params.treeCountBits ∧
        t = (s.withTree k.ctx k.leaf k.t).startSqueezing.respond .ok []) := by
  cases hf : s.fault
  · cases hc : canAbsorb s
    · simp [execFinish, hf, hc] at h
      exact .inr (.inl ⟨rfl, rfl, h.symm⟩)
    · obtain ⟨hv, hm⟩ := (canAbsorb_iff s).1 hc
      by_cases hd : s.cfg.dom = .tree
      · rw [execFinish_tree hf hv hm hd] at h
        obtain ⟨u, hu, rfl⟩ := answerTree_next h
        obtain ⟨w, hw, rfl⟩ := Option.map_eq_some_iff.1 hu
        obtain ⟨hn, rfl⟩ := adoptTree_eq_some.1 hw
        exact .inr (.inr (.inr ⟨rfl, hv, hm, hd, _, rfl, hn, rfl⟩))
      · rw [execFinish_plain hf hv hm hd] at h
        cases h
        exact .inr (.inr (.inl ⟨rfl, hv, hm, hd, rfl⟩))
  · simp [execFinish, hf] at h
    exact .inl ⟨rfl, h.symm⟩

/-! ### SQUEEZE, CUSTOM, PERMUTE -/

theorem execSqueeze_ok {s : State} (len : BitVec 28) (hf : s.fault = false) (hv : s.cfgValid = true)
    (hm : s.mode = .squeezing) : execSqueeze len s =
      .next ((s.withCtx (squeezeBytes s.perm s.rate len.toNat s.ctx).2).respond .ok
        (squeezeBytes s.perm s.rate len.toNat s.ctx).1) := by
  simp [execSqueeze, hf, (canSqueeze_iff s).2 ⟨hv, hm⟩]

theorem execSqueeze_next {len : BitVec 28} {s t : State} (h : execSqueeze len s = .next t) :
    (s.fault = true ∧ t = s.raise .errFaulted) ∨
    (s.fault = false ∧ canSqueeze s = false ∧ t = s.raise .errSequence) ∨
    (s.fault = false ∧ s.cfgValid = true ∧ s.mode = .squeezing ∧
      t = (s.withCtx (squeezeBytes s.perm s.rate len.toNat s.ctx).2).respond .ok
        (squeezeBytes s.perm s.rate len.toNat s.ctx).1) := by
  cases hf : s.fault
  · cases hc : canSqueeze s
    · simp [execSqueeze, hf, hc] at h
      exact .inr (.inl ⟨rfl, rfl, h.symm⟩)
    · obtain ⟨hv, hm⟩ := (canSqueeze_iff s).1 hc
      rw [execSqueeze_ok len hf hv hm] at h
      cases h
      exact .inr (.inr ⟨rfl, hv, hm, rfl⟩)
  · simp [execSqueeze, hf] at h
    exact .inl ⟨rfl, h.symm⟩

theorem execCustom_next {name cust : List Byte} {s t : State} (h : execCustom name cust s = .next t) :
    (s.fault = true ∧ t = s.raise .errFaulted) ∨
    (s.fault = false ∧ canCustom s = false ∧ t = s.raise .errSequence) ∨
    (s.fault = false ∧ canCustom s = true ∧ name.length + cust.length = 0 ∧ t = s.markCustom.respond .ok []) ∨
    (s.fault = false ∧ canCustom s = true ∧ name.length + cust.length ≠ 0 ∧
      t = (s.markCustom.activateCustom.withCtx
        (absorbBytes s.perm s.rate s.ctx (customPrefix name cust s.rate))).respond .ok []) := by
  cases hf : s.fault
  · cases hc : canCustom s
    · simp [execCustom, hf, hc] at h
      exact .inr (.inl ⟨rfl, rfl, h.symm⟩)
    · simp only [execCustom, hf, hc, if_true, Bool.false_eq_true, if_false] at h
      cases h
      by_cases hl : name.length + cust.length = 0
      · exact .inr (.inr (.inl ⟨rfl, rfl, hl, by simp only [absorbCustom, hl, if_true]⟩))
      · exact .inr (.inr (.inr ⟨rfl, rfl, hl, by simp only [absorbCustom, hl, if_false]⟩))
  · simp [execCustom, hf] at h
    exact .inl ⟨rfl, h.symm⟩

theorem execPermute_next {var : BitVec 3} {rounds : BitVec 5} {input : List Byte} {s t : State}
    (h : execPermute var rounds input s = .next t) :
    (s.fault = true ∧ t = s.raise .errFaulted) ∨ (s.fault = false ∧ t = s.raise .errConfig) ∨
    (s.fault = false ∧ t = s.raise .errLength) ∨
    (s.fault = false ∧ ∃ v, v.code = var ∧ roundsOk v rounds = true ∧ input.length = v.nb ∧
      t = s.respond .ok (permuteOutput s.params.asconOrder v rounds.toNat input)) := by
  unfold execPermute at h
  cases hf : s.fault
  · right
    cases hv : variantOf var with
    | none =>
      simp [hf, hv] at h
      exact .inl ⟨rfl, h.symm⟩
    | some v =>
      have hvc := variantOf_eq_some.1 hv
      cases hr : roundsOk v rounds
      · simp [hf, hv, hr] at h
        exact .inl ⟨rfl, h.symm⟩
      · by_cases hl : input.length = v.nb
        · simp [hf, hv, hr, hl] at h
          exact .inr (.inr ⟨rfl, v, hvc, hr, hl, h.symm⟩)
        · simp [hf, hv, hr, hl] at h
          exact .inr (.inl ⟨rfl, h.symm⟩)
  · simp [hf] at h
    exact .inl ⟨rfl, h.symm⟩

theorem permuteOutput_length (o : ByteOrder) (v : Variant) (rounds : Nat) (input : List Byte) :
    (permuteOutput o v rounds input).length = v.nb := by
  cases v <;> simp [permuteOutput, Variant.nb]

end Sys2Proof.Machine
end

