-- ==== Sys2Proof/Laws/Invariant.lean ====
section
/-! SUPPORT. Laws/Invariant.lean: the writes that keep the invariant for a reason of their own (the response, the sticky
fault, the list of host events), what a legal `cfg` says of the rate (R152, R210), and the update of `LEAF_WORKERS`. -/

namespace Sys2Proof.Machine

theorem State.Inv.raise {s : State} (h : s.Inv) (st : Status) : (s.raise st).Inv :=
  ⟨h.noContext, h.cfgLegal, h.posAbsorbing, h.posSqueezing, h.treeZero, h.customClear, h.activeDone, h.firstChunk,
    h.finished, h.leafPos, h.firstCountLe, h.leafCountLt, h.collecting, h.leafClosed, h.countFits, h.storage,
    h.treeMessage, h.noMessage⟩

theorem State.Inv.respond {s : State} (h : s.Inv) (st : Status) (out : List Byte) : (s.respond st out).Inv :=
  ⟨h.noContext, h.cfgLegal, h.posAbsorbing, h.posSqueezing, h.treeZero, h.customClear, h.activeDone, h.firstChunk,
    h.finished, h.leafPos, h.firstCountLe, h.leafCountLt, h.collecting, h.leafClosed, h.countFits, h.storage,
    h.treeMessage, h.noMessage⟩

theorem State.Inv.pop {s : State} (h : s.Inv) (rest : List HostEvent) : (s.pop rest).Inv :=
  ⟨h.noContext, h.cfgLegal, h.posAbsorbing, h.posSqueezing, h.treeZero, h.customClear, h.activeDone, h.firstChunk,
    h.finished, h.leafPos, h.firstCountLe, h.leafCountLt, h.collecting, h.leafClosed, h.countFits, h.storage,
    h.treeMessage, h.noMessage⟩

/-- The rate of a legal `cfg` is at least 1 and smaller than the state (R152). -/
theorem cfgOk_rate {c : Cfg} (h : cfgOk c = true) : 1 ≤ c.rate.toNat ∧ c.rate.toNat < c.var.nb := by
  obtain ⟨v, d, ro, ra⟩ := c
  cases v <;> simp only [cfgOk, rateOk, Bool.and_eq_true, decide_eq_true_eq] at h <;> simp [Variant.nb] at h ⊢ <;> omega

/-- A legal tree `cfg` (R152, R210). -/
theorem cfgOk_tree {c : Cfg} (h : cfgOk c = true) (hd : c.dom = .tree) :
    c.var = .k1600 ∧ c.rounds.toNat = 12 ∧ c.rate.toNat = 168 := by
  simp [cfgOk, treeOk, hd] at h
  simp_all

theorem nb_le (v : Variant) : v.nb ≤ 200 := by cases v <;> simp [Variant.nb]

/-! The number of leaf workers is a parameter and nothing else reads it (R226). -/

@[simp] theorem State.withWorkers_cfgValid (s : State) (n : Nat) : (s.withWorkers n).cfgValid = s.cfgValid := rfl
@[simp] theorem State.withWorkers_cfg (s : State) (n : Nat) : (s.withWorkers n).cfg = s.cfg := rfl
@[simp] theorem State.withWorkers_fault (s : State) (n : Nat) : (s.withWorkers n).fault = s.fault := rfl
@[simp] theorem State.withWorkers_ctx (s : State) (n : Nat) : (s.withWorkers n).ctx = s.ctx := rfl
@[simp] theorem State.withWorkers_mode (s : State) (n : Nat) : (s.withWorkers n).mode = s.mode := rfl
@[simp] theorem State.withWorkers_msgStarted (s : State) (n : Nat) : (s.withWorkers n).msgStarted = s.msgStarted := rfl
@[simp] theorem State.withWorkers_customDone (s : State) (n : Nat) : (s.withWorkers n).customDone = s.customDone := rfl
@[simp] theorem State.withWorkers_customActive (s : State) (n : Nat) : (s.withWorkers n).customActive = s.customActive := rfl
@[simp] theorem State.withWorkers_t (s : State) (n : Nat) : (s.withWorkers n).t = s.t := rfl
@[simp] theorem State.withWorkers_leaf (s : State) (n : Nat) : (s.withWorkers n).leaf = s.leaf := rfl
@[simp] theorem State.withWorkers_pending (s : State) (n : Nat) : (s.withWorkers n).pending = s.pending := rfl
@[simp] theorem State.withWorkers_response (s : State) (n : Nat) : (s.withWorkers n).response = s.response := rfl
@[simp] theorem State.withWorkers_perm (s : State) (n : Nat) : (s.withWorkers n).perm = s.perm := rfl
@[simp] theorem State.withWorkers_rate (s : State) (n : Nat) : (s.withWorkers n).rate = s.rate := rfl
@[simp] theorem State.withWorkers_coord (s : State) (n : Nat) : (s.withWorkers n).coord = s.coord := rfl
@[simp] theorem State.withWorkers_asconOrder (s : State) (n : Nat) :
    (s.withWorkers n).params.asconOrder = s.params.asconOrder := rfl
@[simp] theorem State.withWorkers_treeCountBits (s : State) (n : Nat) :
    (s.withWorkers n).params.treeCountBits = s.params.treeCountBits := rfl
@[simp] theorem State.withWorkers_leafWorkers (s : State) (n : Nat) : (s.withWorkers n).params.leafWorkers = n := rfl

end Sys2Proof.Machine
end

