-- ==== Sys2Proof/Laws/Words.lean ====
section
/-! SUPPORT. Laws/Words.lean: command words as numbers: what a field of a word is, what number each format's encoding is
(R73 to R77), and which row a word selects (R83). -/

namespace Sys2Proof

theorem toNat_append_add {m n : Nat} (a : BitVec m) (b : BitVec n) : (a ++ b).toNat = a.toNat * 2 ^ n + b.toNat := by
  rw [BitVec.toNat_append, ← Nat.shiftLeft_add_eq_or_of_lt b.isLt, Nat.shiftLeft_eq]

theorem toNat_append3 {a b c : Nat} (x : BitVec a) (y : BitVec b) (z : BitVec c) :
    (x ++ y ++ z).toNat = (x.toNat * 2 ^ b + y.toNat) * 2 ^ c + z.toNat := by
  rw [toNat_append_add, toNat_append_add]

theorem toNat_append6 {a b c d e f : Nat} (x : BitVec a) (y : BitVec b) (z : BitVec c) (u : BitVec d) (v : BitVec e)
    (w : BitVec f) : (x ++ y ++ z ++ u ++ v ++ w).toNat =
      ((((x.toNat * 2 ^ b + y.toNat) * 2 ^ c + z.toNat) * 2 ^ d + u.toNat) * 2 ^ e + v.toNat) * 2 ^ f + w.toNat := by
  rw [toNat_append_add, toNat_append_add, toNat_append_add, toNat_append_add, toNat_append_add]

/-- A field is the word shifted down and cut off (R12). -/
theorem toNat_field (w : CmdWord) (lo n : Nat) : (field w lo n).toNat = w.toNat / 2 ^ lo % 2 ^ n := by
  simp [field, BitVec.extractLsb'_toNat, Nat.shiftRight_eq_div_pow]

theorem field_eq_zero (w : CmdWord) (lo n : Nat) : (field w lo n == 0) = decide (w.toNat / 2 ^ lo % 2 ^ n = 0) := by
  rw [← toNat_field]
  by_cases h : field w lo n = 0#n
  · simp [h]
  · have : (field w lo n).toNat ≠ 0 := fun e => h (BitVec.eq_of_toNat_eq (by simpa using e))
    simp [h, this]

/-- The row a word selects, from its opcode number and its must-be-zero fields (R72, R81). -/
theorem decodeOp_of {w : CmdWord} {n : Nat} {op : Opcode} (h : w.toNat / 2 ^ 28 = n)
    (ho : opcodeOf (BitVec.ofNat 4 n) = some op) (hz : mustBeZeroOk op w = true) : decodeOp w = .ok op := by
  have hf : field w 28 4 = BitVec.ofNat 4 n := by
    apply BitVec.eq_of_toNat_eq
    rw [toNat_field, BitVec.toNat_ofNat, h]
  simp [decodeOp, hf, ho, hz]

/-! The number of each format's word. -/

theorem toNat_encodeWord_config (var : BitVec 3) (dom : Dom) (rounds : BitVec 5) (rate : BitVec 8) :
    (encodeWord (.config var dom rounds rate)).toNat =
      ((((1 * 2 ^ 3 + var.toNat) * 2 ^ 2 + dom.code.toNat) * 2 ^ 5 + rounds.toNat) * 2 ^ 10 + 0) * 2 ^ 8 + rate.toNat :=
  toNat_append6 _ _ _ _ _ _

theorem toNat_encodeWord_absorb (data : List Byte) :
    (encodeWord (.absorb data)).toNat = 2 * 2 ^ 28 + data.length % 2 ^ 28 := by
  refine (toNat_append_add _ _).trans ?_
  rw [BitVec.toNat_ofNat]
  rfl

theorem toNat_encodeWord_squeeze (len : BitVec 28) : (encodeWord (.squeeze len)).toNat = 4 * 2 ^ 28 + len.toNat :=
  toNat_append_add (4#4) len

theorem toNat_encodeWord_custom (name cust : List Byte) :
    (encodeWord (.custom name cust)).toNat = (7 * 2 ^ 14 + name.length % 2 ^ 14) * 2 ^ 14 + cust.length % 2 ^ 14 := by
  refine (toNat_append3 _ _ _).trans ?_
  rw [BitVec.toNat_ofNat, BitVec.toNat_ofNat]
  rfl

theorem toNat_encodeWord_permute (var : BitVec 3) (rounds : BitVec 5) (input : List Byte) :
    (encodeWord (.permute var rounds input)).toNat =
      ((((8 * 2 ^ 3 + var.toNat) * 2 ^ 2 + 0) * 2 ^ 5 + rounds.toNat) * 2 ^ 10 + 0) * 2 ^ 8 + input.length % 2 ^ 8 := by
  refine (toNat_append6 _ _ _ _ _ _).trans ?_
  rw [BitVec.toNat_ofNat]
  rfl

end Sys2Proof
end

