-- ==== Sys2Proof/Laws/PerInstr.lean ====
section
/-! SUPPORT. Laws/PerInstr.lean: statements for all instructions, made per instruction. Family `SizedPayload`: the word of a
well-formed instruction selects its own row, and declares exactly the payload the instruction carries (R78, R83). -/

namespace Sys2Proof.Laws.SizedPayload

/-- The row of an instruction (R72). -/
def rowOf : Instr → Opcode
  | .config _ _ _ _ => .config
  | .absorb _ => .absorb
  | .finish => .finish
  | .squeeze _ => .squeeze
  | .reset => .reset
  | .drop => .drop
  | .custom _ _ => .custom
  | .permute _ _ _ => .permute
  | .status => .status

/-- The word of a well-formed instruction selects its row and declares its payload. -/
def Statement (i : Instr) : Prop :=
  i.wellFormed = true →
    decodeOp (encodeWord i) = .ok (rowOf i) ∧ payloadLen (encodeWord i) = (payloadOf i).length

theorem config (var : BitVec 3) (dom : Dom) (rounds : BitVec 5) (rate : BitVec 8) :
    Statement (.config var dom rounds rate) := by
  intro _
  have e := toNat_encodeWord_config var dom rounds rate
  have h : decodeOp (encodeWord (.config var dom rounds rate)) = .ok .config := by
    refine decodeOp_of (n := 1) ?_ rfl ?_
    · omega
    · simp only [mustBeZeroOk, field_eq_zero, decide_eq_true_eq]
      omega
  exact ⟨h, by simp [payloadLen, h, payloadOf]⟩

theorem absorb (data : List Byte) : Statement (.absorb data) := by
  intro hw
  have hl : data.length < 2 ^ 28 := by simpa [Instr.wellFormed] using hw
  have e := toNat_encodeWord_absorb data
  have h : decodeOp (encodeWord (.absorb data)) = .ok .absorb := decodeOp_of (n := 2) (by omega) rfl rfl
  refine ⟨h, ?_⟩
  simp only [payloadLen, h, payloadOf, toNat_field]
  omega

theorem finish : Statement .finish := fun _ => ⟨rfl, rfl⟩

theorem squeeze (len : BitVec 28) : Statement (.squeeze len) := by
  intro _
  have e := toNat_encodeWord_squeeze len
  have h : decodeOp (encodeWord (.squeeze len)) = .ok .squeeze := decodeOp_of (n := 4) (by omega) rfl rfl
  exact ⟨h, by simp [payloadLen, h, payloadOf]⟩

theorem reset : Statement .reset := fun _ => ⟨rfl, rfl⟩

theorem drop : Statement .drop := fun _ => ⟨rfl, rfl⟩

theorem custom (name cust : List Byte) : Statement (.custom name cust) := by
  intro hw
  have hl : name.length < 2 ^ 14 ∧ cust.length < 2 ^ 14 := by simpa [Instr.wellFormed] using hw
  have e := toNat_encodeWord_custom name cust
  have h : decodeOp (encodeWord (.custom name cust)) = .ok .custom := decodeOp_of (n := 7) (by omega) rfl rfl
  refine ⟨h, ?_⟩
  simp only [payloadLen, h, payloadOf, toNat_field, List.length_append]
  omega

theorem permute (var : BitVec 3) (rounds : BitVec 5) (input : List Byte) : Statement (.permute var rounds input) := by
  intro hw
  have hl : input.length < 2 ^ 8 := by simpa [Instr.wellFormed] using hw
  have e := toNat_encodeWord_permute var rounds input
  have h : decodeOp (encodeWord (.permute var rounds input)) = .ok .permute := by
    refine decodeOp_of (n := 8) (by omega) rfl ?_
    simp only [mustBeZeroOk, field_eq_zero, Bool.and_eq_true, decide_eq_true_eq]
    omega
  refine ⟨h, ?_⟩
  simp only [payloadLen, h, payloadOf, toNat_field]
  omega

theorem status : Statement .status := fun _ => ⟨rfl, rfl⟩

end Sys2Proof.Laws.SizedPayload
end

