-- ==== Sys2Proof/Tests/Slice0.lean ====
section
/-! SUPPORT. Tests/Slice0.lean: tests of single steps against values the spec prints (its 95_test_vectors.md unless another
file is named), ill-formed terms the checks refuse, and for every statement with hypotheses a witness that meets them. -/

namespace Sys2Proof.Tests

open Sys2Proof.Machine

/-! ### Small states -/

/-- K200, one round, rate 9: the context of program P6. -/
def smallCfg (dom : Dom) : Cfg := { var := .k200, dom := dom, rounds := 1, rate := 9 }

/-- The tree's parameters (R210). -/
def treeCfg : Cfg := { var := .k1600, dom := .tree, rounds := 12, rate := 168 }

/-- A context of `smallCfg` in the given mode and position, state bytes as given. -/
def small (dom : Dom) (mode : Mode) (pos : Nat) (bytes : List Byte) : State :=
  { State.reset.construct (smallCfg dom) with mode := mode, ctx := { S := loadBytes bytes, pos := pos }, msgStarted := true }

/-- A tree context with the given counter width and counters, its state bytes zero. -/
def treeAt (bits pos firstCount leafCount : Nat) : State :=
  { State.reset.construct treeCfg with
    params := { Params.default with treeCountBits := bits }
    ctx := { S := Sponge.zero.S, pos := pos }
    leaf := { S := Sponge.zero.S, pos := leafCount % 168 }
    t := { phase := .collecting, firstCount := firstCount, leafCount := leafCount, nLeaves := 0 } }

/-- The state after a sequencing violation at power-on. -/
def faulted : State := State.reset.raise .errSequence

/-- A state to which the host presents one word, payload zero. -/
def presenting (s : State) (w : CmdWord) : State := { s with pending := [wordEvent w] }

/-- The response of an outcome. -/
def answer (o : Host.Outcome State Fault Refusal) : Option Response :=
  match o with
  | .next t => t.response
  | .fault _ => none
  | .refused _ => none

/-- A number read from the state an outcome leaves. -/
def left {α : Type} (f : State → α) (o : Host.Outcome State Fault Refusal) : Option α :=
  match o with
  | .next t => some (f t)
  | .fault _ => none
  | .refused _ => none

/-- The bytes 0, 1, 2, … -/
def counting (n : Nat) : List Byte := (List.range n).map (BitVec.ofNat 8)

theorem small_inv {dom : Dom} {mode : Mode} {pos : Nat} (hd : dom ≠ .tree) (hp : pos ≤ 9)
    (ha : mode = .absorbing → pos < 9) : (small dom mode pos []).Inv := by
  have hz : ∀ i, memRead (loadBytes []) i = 0 := by
    intro i
    unfold loadBytes
    rw [memRead_tabulate]
    simp
  refine ⟨fun h => by simp [small, State.construct] at h, fun _ => ?_, fun _ h => ha h, fun _ _ => hp, fun _ => ⟨rfl, rfl⟩,
    fun _ => ⟨rfl, rfl⟩, fun h => by simp [small, State.construct, State.erase] at h, fun _ => ⟨rfl, rfl⟩,
    fun _ h => absurd h hd, rfl, by simp [small, State.construct, State.erase, TreeState.zero],
    by simp [small, State.construct, State.erase, TreeState.zero], fun _ => rfl, fun _ => rfl, by
      simp [countFits, small, State.construct, State.erase, TreeState.zero, State.reset, Params.default], fun i _ => hz i,
    fun h => absurd h hd, fun _ _ h => by simp [small] at h⟩
  cases dom <;> first | rfl | exact absurd rfl hd

theorem treeAt_inv {bits pos firstCount leafCount : Nat} (hp : pos < 168) (hf : firstCount ≤ 8192) (hl : leafCount < 8192)
    (hfl : firstCount < 8192 → leafCount = 0) : (treeAt bits pos firstCount leafCount).Inv := by
  refine ⟨fun h => by simp [treeAt, State.construct] at h, fun _ => rfl, fun _ _ => hp,
    fun _ h => by simp [treeAt, State.construct, State.erase] at h, fun h => absurd rfl h, fun _ => ⟨rfl, rfl⟩,
    fun h => by simp [treeAt, State.construct, State.erase] at h, fun h => ⟨hfl h, rfl⟩,
    fun h => by simp [treeAt, State.construct, State.erase] at h, rfl, hf, hl, fun _ => rfl, fun h => ?_, ?_,
    fun i _ => memRead_zero i, fun _ => rfl, fun h => absurd rfl h⟩
  · have h0 : leafCount = 0 := h
    subst h0
    rfl
  · exact decide_eq_true (Nat.two_pow_pos bits)

/-- A CUSTOM context that has taken a non-empty string and message bytes. -/
def activeCustom : State := (small .custom .absorbing 8 []).markCustom.activateCustom

theorem activeCustom_inv : activeCustom.Inv := by
  have h : (small .custom .absorbing 8 []).Inv := small_inv (by decide) (by decide) (by decide)
  exact ⟨fun hv => absurd hv (by decide), h.cfgLegal, h.posAbsorbing, h.posSqueezing, h.treeZero, fun hd => absurd rfl hd,
    fun _ => rfl, h.firstChunk, h.finished, h.leafPos, h.firstCountLe, h.leafCountLt, h.collecting, h.leafClosed, h.countFits,
    h.storage, h.treeMessage, h.noMessage⟩

/-! ### WellFormed refuses what no command word can express (R74, R76, R77) -/

theorem test_wellFormed_refuses_long_absorb : (Instr.absorb (List.replicate (2 ^ 28) 0)).wellFormed = false := by
  rw [Instr.wellFormed, List.length_replicate]
  rfl

theorem test_wellFormed_refuses_long_name : (Instr.custom (List.replicate (2 ^ 14) 0) []).wellFormed = false := by
  rw [Instr.wellFormed, List.length_replicate]
  rfl

theorem test_wellFormed_refuses_long_customization : (Instr.custom [] (List.replicate (2 ^ 14) 0)).wellFormed = false := by
  rw [Instr.wellFormed, List.length_replicate]
  rfl

theorem test_wellFormed_refuses_long_permute : (Instr.permute 0 24 (List.replicate 256 0)).wellFormed = false := by
  rw [Instr.wellFormed, List.length_replicate]
  rfl

/-! ### Decoding: words written bit by bit from the formats of 30_encoding.md (R73 to R77) -/

theorem test_decode_config : decodeTableWord 32 0b0001_011_01_00001_0000000000_00001001 = some (.config 3 .xof 1 9) := by
  decide

theorem test_decode_absorb : decodeTableWord 32 0b0010_0000000000000000000000000100 = some (.absorb [0, 0, 0, 0]) := by
  decide

theorem test_decode_finish : decodeTableWord 32 0b0011_0000000000000000000000000000 = some .finish := by decide

theorem test_decode_squeeze : decodeTableWord 32 0b0100_1000000000000000000000001001 = some (.squeeze 0x8000009) := by
  decide

theorem test_decode_reset : decodeTableWord 32 0b0101_0000000000000000000000000000 = some .reset := by decide

theorem test_decode_drop : decodeTableWord 32 0b0110_0000000000000000000000000000 = some .drop := by decide

theorem test_decode_custom : decodeTableWord 32 0b0111_00000000000011_00000000000010 = some (.custom [0, 0, 0] [0, 0]) := by
  decide

theorem test_decode_permute : decodeTableWord 32 0b1000_110_00_00001_0000000000_00000010 = some (.permute 6 1 [0, 0]) := by
  decide

theorem test_decode_status : decodeTableWord 32 0b1001_0000000000000000000000000000 = some .status := by decide

/-- V-E1: the illegal words. -/
theorem test_decode_refuses_illegal :
    ([0x00000000, 0xA0000000, 0xFFFFFFFF, 0x30000001, 0x50000100, 0x10600188, 0x80840019].map
      fun w => decodeTableWord 32 w) = List.replicate 7 none := by decide

/-! ### Single steps -/

/-- P1, command 1: the status word 0x0088C001 after `CONFIG`. -/
theorem test_config_status :
    left statusWord (exec (.config 0 .hash 24 136) State.reset) = some 0x0088C001 := by decide

/-- V-E1: the words that are `ERR_CONFIG`. -/
theorem test_config_refuses :
    ([0x10640088, 0x10000088, 0x1A300008, 0x106000C8, 0x10600000, 0x16C80019, 0x16CC0009, 0x18B00010, 0x11E000A8, 0x11B00088,
      0x13B00044].map fun w => answer (step (State.reset.withFetchWord 32 w)))
      = List.replicate 11 (some ⟨.errConfig, []⟩) := by decide +kernel

/-- P1, command 2: `ABSORB "abc"` leaves lane 0 = 0x636261, position 3. -/
theorem test_absorb_abc :
    left (fun t => (laneOfBytes 64 t.ctx.S 0, t.ctx.pos, t.msgStarted))
      (exec (.absorb [0x61, 0x62, 0x63]) (State.reset.construct { var := .k1600, dom := .hash, rounds := 24, rate := 136 }))
      = some (0x0000000000636261, 3, true) := by decide +kernel

/-- V-T4: eight bytes past the first chunk: the marker in the root, the bytes in the leaf. -/
theorem test_absorb_into_the_leaf :
    left (fun t => (t.ctx.pos, t.leaf.pos, t.t.firstCount, t.t.leafCount, t.t.nLeaves))
      (exec (.absorb (counting 8)) (treeAt 64 128 8192 0)) = some (136, 8, 8192, 8, 0) := by decide +kernel

/-- P6, command 3: the padded and permuted state. -/
theorem test_finish_p6 :
    left (fun t => (t.ctx.S.toList.take 25, t.ctx.pos, t.mode)) (exec .finish (small .xof .absorbing 3 [1, 2, 3]))
      = some ([0x0c, 0x70, 0xee, 0x60, 0x17, 0xe1, 0x19, 0x27, 0xa0, 0xbf, 0x0a, 0xd6, 0x06, 0x97, 0x55, 0xf0, 0xc2, 0x1d, 0x72,
              0x03, 0x81, 0xc1, 0xda, 0x8b, 0x5c], 0, .squeezing) := by decide +kernel

/-- P6, commands 4 and 5: at the end of the block a permutation comes first. -/
theorem test_squeeze_p6 :
    answer (exec (.squeeze 2) (small .xof .squeezing 9
      [0x0c, 0x70, 0xee, 0x60, 0x17, 0xe1, 0x19, 0x27, 0xa0, 0xbf, 0x0a, 0xd6, 0x06, 0x97, 0x55, 0xf0, 0xc2, 0x1d, 0x72,
       0x03, 0x81, 0xc1, 0xda, 0x8b, 0x5c])) = some ⟨.ok, [0x51, 0x39]⟩ := by decide +kernel

/-- P1, command 5: `RESET` keeps `cfg` and clears the run. -/
theorem test_reset_keeps_cfg :
    left (fun t => (t.cfg, t.ctx.pos, t.mode, t.msgStarted, t.response)) (exec .reset (small .xof .squeezing 9 [1, 2]))
      = some (smallCfg .xof, 0, .absorbing, false, some ⟨.ok, []⟩) := by decide +kernel

/-- P6, command 6: `DROP` leaves the power-on state. -/
theorem test_drop_zeroes :
    exec .drop (small .xof .squeezing 2 [1, 2]) = .next (State.reset.respond .ok []) := rfl

/-- V-D2: `bytepad(encode_string("") ‖ encode_string("a"), 8)`, what `CUSTOM N="" S="a"` absorbs at rate 8. -/
theorem test_custom_prefix : customPrefix [] [0x61] 8 = [0x01, 0x08, 0x01, 0x00, 0x01, 0x08, 0x61, 0x00] := by decide

/-- V-D4: `CUSTOM` after a message byte. -/
theorem test_custom_after_message :
    left (fun t => (t.fault, t.response)) (exec (.custom [] [0x61]) (small .custom .absorbing 1 []))
      = some (true, some ⟨.errSequence, []⟩) := by decide +kernel

/-- V-K4: one K200 round. -/
theorem test_permute_k4 : answer (exec (.permute 3 1 (counting 25)) State.reset) = some ⟨.ok,
    [0x82, 0x61, 0x54, 0x93, 0x2C, 0x51, 0x21, 0xA0, 0xD3, 0x01, 0x36, 0x1A, 0x26, 0x3A, 0x38, 0x75, 0xF2, 0x0C, 0x7F, 0x89, 0xD3,
     0x23, 0xC6, 0x29, 0x7C]⟩ := by decide +kernel

/-- V-E1: the length is checked after the round count. -/
theorem test_permute_checks :
    ([0x86480018, 0x864C0018, 0x806000C7, 0x8C040000].map fun w => answer (step (State.reset.withFetchWord 32 w)))
      = [some ⟨.errLength, []⟩, some ⟨.errConfig, []⟩, some ⟨.errLength, []⟩, some ⟨.errConfig, []⟩] := by decide +kernel

/-- V-T1: the status word 0x00A86601 of a fresh tree context. -/
theorem test_status_tree : answer (exec .status (treeAt 64 0 0 0)) = some ⟨.ok, [0x01, 0x66, 0xA8, 0x00]⟩ := by decide +kernel

/-- V-E1: `STATUS` at power-on. -/
theorem test_status_power_on : answer (step (State.reset.withFetchWord 32 0x90000000)) = some ⟨.ok, [0, 0, 0, 0]⟩ := by
  decide +kernel

/-- R138 (42_ascon.md): the worked Ascon round. -/
theorem test_ascon_round :
    asconP 1 ⟨0x0123456789abcdef, 0x23456789abcdef01, 0x456789abcdef0123, 0x6789abcdef012345, 0x89abcdef01234567⟩
      = ⟨0xac2dfd80bd2cb16a, 0x40899d5456899d07, 0xc9470257ab670238, 0x68608da71c49a702, 0x1b1b7ca11b1b7ca1⟩ := by
  decide +kernel

/-- V-D2: the integer encodings at their boundaries. -/
theorem test_integer_encodings :
    [leftEncode 0, leftEncode 255, leftEncode 256, leftEncode 131064, lengthEncode 0, lengthEncode 255, lengthEncode 256,
      lengthEncode 65536] =
    [[0x01, 0x00], [0x01, 0xff], [0x02, 0x01, 0x00], [0x03, 0x01, 0xff, 0xf8], [0x00], [0xff, 0x01], [0x01, 0x00, 0x02],
      [0x01, 0x00, 0x00, 0x03]] := by decide

/-! ### Witnesses: for every statement with hypotheses, a state and operands that meet all of them -/

theorem test_witness_DecodeOfEncodeIsIdentity :
    (Instr.absorb (List.replicate (2 ^ 28 - 1) 0)).wellFormed = true ∧
    (Instr.custom (List.replicate (2 ^ 14 - 1) 0) (List.replicate (2 ^ 14 - 1) 0)).wellFormed = true ∧
    (Instr.permute 7 31 (List.replicate 255 0)).wellFormed = true := by
  simp only [Instr.wellFormed, List.length_replicate]
  decide

theorem test_witness_EncodeOfDecodeIsIdentity :
    decode (Command.zeroPayload 0x16840009) = .ok (.config 3 .xof 1 9) := rfl

theorem test_witness_RowsSelectByMatchAndMask :
    (0x106000C7 : CmdWord) &&& rowMask .config = rowMatch .config := by decide

theorem test_witness_IllegalWordIsAnswered :
    (∀ op, (Command.zeroPayload 0x30000001).word &&& rowMask op ≠ rowMatch op) ∧
    (presenting State.reset 0x30000001).pending = [HostEvent.command (Command.zeroPayload 0x30000001)] := by
  refine ⟨fun op => ?_, rfl⟩
  cases op <;> decide

theorem test_witness_PayloadLengthOfWord :
    (presenting State.reset 0x90000000).pending = [HostEvent.command (Command.zeroPayload 0x90000000)] ∧
    ∃ t, step (presenting State.reset 0x90000000) = .next t := ⟨rfl, _, rfl⟩

theorem test_witness_OutputLengthOfCommand :
    (∃ t, exec (.squeeze 3) (small .xof .squeezing 0 []) = .next t ∧ (t.response.map (·.status)) = some .ok) ∧
    decode (Command.zeroPayload 0x30000001) = .error .mustBeZero ∧
    ∃ t, runCommand (Command.zeroPayload 0x30000001) State.reset = .next t := ⟨⟨_, rfl, rfl⟩, rfl, _, rfl⟩

theorem test_witness_WordAssemblyFormulas :
    (List.replicate (2 ^ 28 - 1) (0 : Byte)).length < 2 ^ 28 ∧ (List.replicate (2 ^ 14 - 1) (0 : Byte)).length < 2 ^ 14 ∧
    (List.replicate 255 (0 : Byte)).length < 2 ^ 8 := by
  simp only [List.length_replicate]
  decide

theorem test_witness_StepRunsDecodedCommand :
    (presenting State.reset 0x90000000).pending = [HostEvent.command (Command.zeroPayload 0x90000000)] ∧
    decode (Command.zeroPayload 0x90000000) = .ok .status := ⟨rfl, rfl⟩

theorem test_witness_StepWaitsWithoutEvents : State.reset.pending = [] := rfl

theorem test_witness_HardwareResetZeroesEverything :
    ({ faulted with pending := [.hardwareReset] } : State).pending = [HostEvent.hardwareReset] := rfl

theorem test_witness_FirstCommandAfterPowerOn :
    (1 ≤ (18 : BitVec 5).toNat ∧ (18 : BitVec 5).toNat ≤ Variant.k200.nrMax) ∧ (counting 25).length = Variant.k200.nb ∧
    cfgOk (smallCfg .hash) = true := by decide

theorem test_witness_DropReturnsToPowerOn :
    ∃ t, exec .drop faulted = .next t ∧ faulted.fault = true ∧ t.fault = false := ⟨_, rfl, rfl, rfl⟩

theorem test_witness_DelimitedSuffixByte :
    2 ≤ ([false, true] : List Bool).length ∧ ([true, true, true, true] : List Bool).length ≤ 4 := by decide

theorem test_witness_ResetTableColumns :
    State.reset.fault = false ∧ cfgOk ⟨.k1600, .hash, 24, 199⟩ = true ∧ cfgOk ⟨.ascon, .xof, 12, 8⟩ = true ∧
    (small .hash .squeezing 9 []).fault = false ∧ (small .hash .squeezing 9 []).cfgValid = true := by decide

/-- Each clause of the `CONFIG` statement, the legal one at its bounds, the illegal one just past them. -/
theorem test_witness_ConfigAcceptsExactlyLegalFields :
    faulted.fault = true ∧ State.reset.fault = false ∧ cfgOk ⟨.k1600, .hash, 24, 199⟩ = true ∧
    cfgOk ⟨.k1600, .hash, 25, 199⟩ = false ∧ cfgOk ⟨.k1600, .hash, 24, 200⟩ = false ∧ cfgOk treeCfg = true ∧
    cfgOk ⟨.k1600, .tree, 12, 167⟩ = false := by decide

theorem test_witness_ResetEqualsConfig :
    (small .xof .squeezing 9 []).Inv ∧ (small .xof .squeezing 9 []).fault = false ∧
    (small .xof .squeezing 9 []).cfgValid = true := ⟨small_inv (by decide) (by decide) (by decide), rfl, rfl⟩

theorem test_witness_PermuteRunsItsPayload :
    faulted.fault = true ∧ State.reset.fault = false ∧ 4 < (5 : BitVec 3).toNat ∧ Variant.ascon.code = 4 ∧
    (1 ≤ (12 : BitVec 5).toNat ∧ (12 : BitVec 5).toNat ≤ Variant.ascon.nrMax) ∧ Variant.ascon.nrMax < (13 : BitVec 5).toNat ∧
    (counting 40).length = Variant.ascon.nb ∧ (counting 39).length ≠ Variant.ascon.nb ∧ Variant.k200.code = 3 ∧
    (counting 25).length = Variant.k200.nb := by decide

/-- `KeccakRunsTheLastRounds` and `AsconRunsTheLastRounds`: the last count that has one more. -/
theorem test_witness_RoundSchedules : (23 : Nat) < Variant.k1600.nrMax ∧ (11 : Nat) < 12 := by decide

/-- Theta, Rho, Pi, Chi and Iota, the S-box, the diffusion layer, the constant addition and the constant tables: the last
lane, the last bit of the widest lane, the last round. -/
theorem test_witness_LaneStatements :
    (4 : Nat) < 5 ∧ (63 : Nat) < 64 ∧ (24 : Nat) < 25 ∧ ((0 : Nat), (1 : Nat)) ≠ (0, 0) ∧ (64 : Nat) ≤ 64 ∧ (23 : Nat) < 24 ∧
    (11 : Nat) < 12 := by decide

/-- `KeccakIsABijection`, `KeccakByteOrder` and `AsconByteOrder`. -/
theorem test_witness_ByteOrderStatements : Variant.k200 ≠ .ascon ∧ (24 : Nat) < Variant.k200.nb ∧ (39 : Nat) < 40 := by decide

theorem test_witness_AbsorbXorsIntoTheRate :
    (small .hash .absorbing 4 []).Inv ∧ (small .hash .absorbing 4 []).fault = false ∧
    (small .hash .absorbing 4 []).cfgValid = true ∧ (small .hash .absorbing 4 []).mode = .absorbing ∧
    (small .hash .absorbing 4 []).cfg.dom ≠ .tree ∧
    (small .hash .absorbing 4 []).ctx.pos + (counting 4).length < (small .hash .absorbing 4 []).rate :=
  ⟨small_inv (by decide) (by decide) (by decide), rfl, rfl, rfl, by decide, by decide⟩

theorem test_witness_AbsorbPositionModuloRate :
    (small .xof .absorbing 8 []).Inv ∧ (small .xof .absorbing 8 []).fault = false ∧
    (small .xof .absorbing 8 []).cfgValid = true ∧ (small .xof .absorbing 8 []).mode = .absorbing ∧
    (small .xof .absorbing 8 []).cfg.dom ≠ .tree := ⟨small_inv (by decide) (by decide) (by decide), rfl, rfl, rfl, by decide⟩

theorem test_witness_AbsorbPermutesTheFullBlock :
    (small .hash .absorbing 4 []).Inv ∧ (small .hash .absorbing 4 []).fault = false ∧
    (small .hash .absorbing 4 []).cfgValid = true ∧ (small .hash .absorbing 4 []).mode = .absorbing ∧
    (small .hash .absorbing 4 []).cfg.dom ≠ .tree ∧
    (small .hash .absorbing 4 []).ctx.pos + (counting 5).length = (small .hash .absorbing 4 []).rate :=
  ⟨small_inv (by decide) (by decide) (by decide), rfl, rfl, rfl, by decide, by decide⟩

/-- Both clauses: a first part that completes, and a first part that is refused (`TREE_COUNT_BITS` = 0, the leaf one byte
short). -/
theorem test_witness_AbsorbConcatenates :
    (∃ t, exec (.absorb [1]) (small .hash .absorbing 4 []) = .next t) ∧ (treeAt 0 0 8192 8191).fault = false ∧
    (treeAt 0 0 8192 8191).cfgValid = true ∧ (treeAt 0 0 8192 8191).mode = .absorbing ∧
    exec (.absorb [1]) (treeAt 0 0 8192 8191) = .refused .treeCountOverflow := by
  refine ⟨⟨_, rfl⟩, rfl, rfl, rfl, execAbsorb_tree_overflow rfl rfl rfl rfl ?_⟩
  rw [treeAbsorb_t]
  decide

theorem test_witness_AbsorbCompletes :
    (small .xof .absorbing 8 []).fault = false ∧ (small .xof .absorbing 8 []).cfgValid = true ∧
    (small .xof .absorbing 8 []).mode = .absorbing ∧ (small .xof .absorbing 8 []).cfg.dom ≠ .tree ∧
    (treeAt 64 128 8192 0).cfg.dom = .tree ∧
    (treeAt 64 128 8192 0).t.nLeaves + (counting 8).length < 2 ^ (treeAt 64 128 8192 0).params.treeCountBits := by decide

/-- The clauses: `ABSORB` past the bound and within it, `FINISH` past it and within it, with a leaf open and with none. -/
theorem test_witness_TreeCountersAndTheirBound :
    (treeAt 0 0 8192 8191).Inv ∧ (treeAt 0 0 8192 8191).fault = false ∧ (treeAt 0 0 8192 8191).cfgValid = true ∧
    (treeAt 0 0 8192 8191).mode = .absorbing ∧ (treeAt 0 0 8192 8191).cfg.dom = .tree ∧
    2 ^ 0 ≤ (treeAt 0 0 8192 8191).t.nLeaves + ((treeAt 0 0 8192 8191).t.leafCount + ([1] : List Byte).length) / 8192 ∧
    0 < (treeAt 0 0 8192 8191).t.leafCount ∧ 2 ^ 0 ≤ (treeAt 0 0 8192 8191).t.nLeaves + 1 ∧
    (treeAt 1 0 8192 8191).Inv ∧ (treeAt 1 0 8192 8191).t.nLeaves + (8191 + ([1] : List Byte).length) / 8192 < 2 ^ 1 ∧
    (treeAt 1 0 8192 8191).t.nLeaves + 1 < 2 ^ 1 ∧
    (treeAt 0 0 8192 0).Inv ∧ (treeAt 0 0 8192 0).t.leafCount = 0 ∧ (treeAt 0 0 8192 0).t.nLeaves < 2 ^ 0 :=
  ⟨treeAt_inv (by decide) (by decide) (by decide) (by decide), rfl, rfl, rfl, rfl, by decide, by decide, by decide,
    treeAt_inv (by decide) (by decide) (by decide) (by decide), by decide, by decide,
    treeAt_inv (by decide) (by decide) (by decide) (by decide), rfl, by decide⟩

/-- HASH, XOF, and CUSTOM without and with an active customization, at the last position of the block. -/
theorem test_witness_FinishPadsWithTheSuffix :
    (∀ dom, dom = .hash ∨ dom = .xof ∨ dom = .custom →
      (small dom .absorbing 8 []).Inv ∧ (small dom .absorbing 8 []).fault = false ∧
      (small dom .absorbing 8 []).cfgValid = true ∧ (small dom .absorbing 8 []).mode = .absorbing ∧
      (small dom .absorbing 8 []).cfg.dom = dom ∧ dom ≠ .tree ∧ (small dom .absorbing 8 []).customActive = false) ∧
    activeCustom.Inv ∧ activeCustom.fault = false ∧ activeCustom.cfgValid = true ∧ activeCustom.mode = .absorbing ∧
    activeCustom.cfg.dom = .custom ∧ activeCustom.customActive = true := by
  refine ⟨fun dom h => ?_, activeCustom_inv, rfl, rfl, rfl, rfl, rfl⟩
  have hd : dom ≠ .tree := by rcases h with rfl | rfl | rfl <;> decide
  exact ⟨small_inv hd (by decide) (by decide), rfl, rfl, rfl, rfl, hd, rfl⟩

/-- Both clauses: a single node, and a leaf open with the last count that fits. -/
theorem test_witness_FinishTakesTheTreePaths :
    (treeAt 64 128 8192 0).Inv ∧ (treeAt 64 128 8192 0).fault = false ∧ (treeAt 64 128 8192 0).cfgValid = true ∧
    (treeAt 64 128 8192 0).mode = .absorbing ∧ (treeAt 64 128 8192 0).cfg.dom = .tree ∧
    (treeAt 64 128 8192 0).t.nLeaves = 0 ∧ (treeAt 64 128 8192 0).t.leafCount = 0 ∧
    (treeAt 1 136 8192 1).Inv ∧ 0 < (treeAt 1 136 8192 1).t.leafCount ∧ (treeAt 1 136 8192 1).t.nLeaves + 1 < 2 ^ 1 :=
  ⟨treeAt_inv (by decide) (by decide) (by decide) (by decide), rfl, rfl, rfl, rfl, rfl, rfl,
    treeAt_inv (by decide) (by decide) (by decide) (by decide), by decide, by decide⟩

/-- At the last position of the block, and at its end. -/
theorem test_witness_SqueezeStreamClosedForm :
    (small .xof .squeezing 9 []).Inv ∧ (small .xof .squeezing 9 []).fault = false ∧
    (small .xof .squeezing 9 []).cfgValid = true ∧ (small .xof .squeezing 9 []).mode = .squeezing ∧
    (small .xof .squeezing 8 []).Inv ∧ 0 < (2 : BitVec 28).toNat :=
  ⟨small_inv (by decide) (by decide) (by decide), rfl, rfl, rfl, small_inv (by decide) (by decide) (by decide), by decide⟩

theorem test_witness_SqueezeStreamSplits :
    (small .xof .squeezing 0 []).fault = false ∧ (small .xof .squeezing 0 []).cfgValid = true ∧
    (small .xof .squeezing 0 []).mode = .squeezing ∧ (0xFFFFFFE : BitVec 28).toNat + (1 : BitVec 28).toNat < 2 ^ 28 := by decide

/-- Two states that differ in the first capacity byte only. -/
theorem test_witness_SqueezeReadsOnlyTheRate :
    (small .xof .squeezing 0 []).ctx.pos + (9 : BitVec 28).toNat ≤ (small .xof .squeezing 0 []).rate ∧
    (∀ i, i < (small .xof .squeezing 0 []).rate →
      memRead (memWrite (small .xof .squeezing 0 []).ctx.S 9 1) i = memRead (small .xof .squeezing 0 []).ctx.S i) ∧
    ∃ t, exec (.squeeze 9) (small .xof .squeezing 0 []) = .next t ∧ t.response.map (·.status) = some .ok := by
  refine ⟨by decide, fun i hi => ?_, _, rfl, rfl⟩
  have h9 : i < 9 := hi
  rw [memRead_memWrite]
  simp [show ¬ 9 = i by omega]

/-- The clauses: faulted, out of sequence, two empty strings, a string. -/
theorem test_witness_CustomIsAnOrdinaryAbsorb :
    faulted.fault = true ∧ (State.reset.fault = false ∧ State.reset.cfgValid = false) ∧
    (let s := State.reset.construct (smallCfg .custom)
     s.fault = false ∧ s.cfgValid = true ∧ s.cfg.dom = .custom ∧ s.mode = .absorbing ∧ s.msgStarted = false ∧
     s.customDone = false) ∧ 0 < ([] : List Byte).length + ([0x61] : List Byte).length := by decide

theorem test_witness_BytepadAligns :
    0 < (8 : Nat) ∧ ((leftEncode 8).length + (encodeString [] ++ encodeString [0x61]).length + 1) % 8 = 0 := by decide

theorem test_witness_LeftEncodeIsMinimal : 2 ^ 2040 - 1 < 2 ^ 2040 ∧ 1 ≤ 255 ∧ 2 ^ 2040 - 1 < 2 ^ (8 * 255) := by
  decide +kernel

theorem test_witness_LengthEncodeIsMinimal :
    2 ^ 2040 - 1 < 2 ^ 2040 ∧ 0 < 2 ^ (8 * 0) ∧ 255 < 2 ^ (8 * 1) ∧ 256 < 2 ^ (8 * 2) := by decide +kernel

theorem test_witness_EmptyCustomIsXof : State.reset.fault = false ∧ cfgOk (smallCfg .xof) = true := by decide

/-- At the edge of the single node, and with one later chunk. -/
theorem test_witness_TreeOutputClosedForm :
    (treeAt 0 0 0 0).fault = false ∧ laterChunks (List.replicate 8192 0) < 2 ^ (treeAt 0 0 0 0).params.treeCountBits ∧
    laterChunks (List.replicate 8193 0) < 2 ^ (treeAt 1 0 0 0).params.treeCountBits := by
  simp only [laterChunks, List.length_replicate]
  decide

theorem test_witness_LeafCompletionOrderIsInvisible :
    (∃ t, exec .finish (small .hash .absorbing 4 []) = .next t) ∧
    exec (.absorb [1]) (treeAt 0 0 8192 8191) = .refused .treeCountOverflow ∧
    State.reset.fault = false ∧ laterChunks (List.replicate 16385 0) < 2 ^ State.reset.params.treeCountBits ∧
    ∀ i, i ∈ [2, 1] ↔ 1 ≤ i ∧ i ≤ laterChunks (List.replicate 16385 0) := by
  have h : laterChunks (List.replicate 16385 0) = 2 := by
    rw [laterChunks, List.length_replicate]
    rfl
  rw [h]
  refine ⟨⟨_, rfl⟩, test_witness_AbsorbConcatenates.2.2.2.2, rfl, by decide, fun i => ?_⟩
  simp only [List.mem_cons, List.not_mem_nil, or_false]
  omega

theorem test_witness_StepKeepsTheInvariant :
    (presenting (small .hash .absorbing 4 []) 0x30000000).Inv ∧
    ∃ t, step (presenting (small .hash .absorbing 4 []) 0x30000000) = .next t ∧ t.mode = .squeezing :=
  ⟨(small_inv (dom := .hash) (by decide) (by decide) (by decide)).pop _, _, rfl, rfl⟩

/-- A faulted state stays faulted, until `DROP` or hardware reset. -/
theorem test_witness_FaultIsSticky :
    faulted.fault = true ∧ Instr.finish ≠ .drop ∧ Instr.finish ≠ .status ∧
    decode (Command.zeroPayload 0x30000000) = .ok .finish ∧
    (presenting faulted 0x30000000).pending = [HostEvent.command (Command.zeroPayload 0x30000000)] ∧
    ({ faulted with pending := [.hardwareReset] } : State).pending = [HostEvent.hardwareReset] ∧
    ∃ t, step (presenting faulted 0x60000000) = .next t ∧ (presenting faulted 0x60000000).fault = true ∧ t.fault = false :=
  ⟨rfl, by decide, by decide, rfl, rfl, rfl, _, rfl, rfl, rfl⟩

theorem test_witness_SequencingViolations :
    State.reset.fault = false ∧ State.reset.cfgValid = false ∧
    (∃ t, exec .finish State.reset = .next t ∧ t.response.map (·.status) = some .errSequence) ∧
    (presenting State.reset 0x30000000).pending = [HostEvent.command (Command.zeroPayload 0x30000000)] ∧
    ∃ t, step (presenting State.reset 0x30000000) = .next t := ⟨rfl, rfl, ⟨_, rfl, rfl⟩, rfl, _, rfl⟩

theorem test_witness_ErrorsArePrecise :
    (∃ t r, exec (.permute 0 24 []) State.reset = .next t ∧ t.response = some r ∧ r.status ≠ .ok) ∧
    ∃ t r, runCommand (Command.zeroPayload 0xA0000000) State.reset = .next t ∧ t.response = some r ∧ r.status ≠ .ok :=
  ⟨⟨_, _, rfl, rfl, by decide⟩, _, _, rfl, rfl, by decide⟩

/-- The five clauses of the mode machine: in, back, created, released, in the mode each command needs. -/
theorem test_witness_ModeMachine :
    (∃ t, exec .finish (small .hash .absorbing 4 []) = .next t ∧ t.mode = .squeezing) ∧
    (∃ t, exec .reset (small .hash .squeezing 4 []) = .next t ∧ t.mode = .absorbing) ∧
    (∃ t, exec (.config 0 .hash 24 136) State.reset = .next t ∧ t.cfgValid = true) ∧
    (∃ t, exec .drop (small .hash .squeezing 4 []) = .next t ∧ t.cfgValid = false) ∧
    (∃ t out, exec (.squeeze 1) (small .hash .squeezing 4 []) = .next t ∧ t.response = some ⟨.ok, out⟩) :=
  ⟨⟨_, rfl, rfl⟩, ⟨_, rfl, rfl⟩, ⟨_, rfl, rfl⟩, ⟨_, rfl, rfl⟩, ⟨_, _, rfl, rfl⟩⟩

theorem test_witness_CommandFrames :
    (∃ t, exec .finish (small .hash .absorbing 4 []) = .next t) ∧ (small .hash .absorbing 4 []).cfg.dom ≠ .tree ∧
    (∃ t, exec (.config 0 .hash 25 136) State.reset = .next t ∧ t.response ≠ some ⟨.ok, []⟩) :=
  ⟨⟨_, rfl⟩, by decide, _, rfl, by decide⟩

theorem test_witness_ControlIsDataIndependent :
    (∃ t, exec (.absorb (counting 3)) (small .hash .absorbing 4 []) = .next t) ∧
    exec (.absorb [1]) (treeAt 0 0 8192 8191) = .refused .treeCountOverflow :=
  ⟨⟨_, rfl⟩, test_witness_AbsorbConcatenates.2.2.2.2⟩

end Sys2Proof.Tests
end

