-- ==== Sys2Proof/Proofs/Step.lean ====
section
/-! Proofs: one step of the block (R16, R62), by the oldest event the host presents. -/

namespace Sys2Proof.Machine

/-- With an event presented, the step is the run of that event on the state with the event taken off. -/
theorem step_of_pending_cons {s : State} {e : HostEvent} {rest : List HostEvent} (h : s.pending = e :: rest) :
    step s = runEvent e (s.pop rest) := by
  rw [step, h]

theorem runEvent_command (c : Command) (s : State) : runEvent (.command c) s = runCommand c s := rfl

/-- A command that decodes is run as its instruction. -/
theorem runCommand_of_decode_ok {c : Command} {i : Instr} (h : decode c = .ok i) (s : State) :
    runCommand c s = exec i s := by
  rw [runCommand, h]

/-- Settles O9: the step runs the oldest event, here a command, and a command that decodes runs as its instruction. -/
theorem stepRunsDecodedCommand : Obligations.StepRunsDecodedCommand := by
  intro s c rest i hpending hdecode
  calc step s = runEvent (.command c) (s.pop rest) := step_of_pending_cons hpending
    _ = runCommand c (s.pop rest) := runEvent_command c _
    _ = exec i (s.pop rest) := runCommand_of_decode_ok hdecode _

end Sys2Proof.Machine
end

