-- ==== Sys2Proof/Proofs/FreshContext.lean ====
section
/-! Proofs: the four events that initialise the state (R40) leave it fresh, and a fresh state meets the invariant (R32). -/

namespace Sys2Proof.Machine

/-! ### Fresh states -/

/-- A fresh state from its fields as whole values. -/
theorem State.Fresh.of_zero {s : State} (hctx : s.ctx = Sponge.zero) (hmode : s.mode = .absorbing)
    (hmsg : s.msgStarted = false) (hdone : s.customDone = false) (hactive : s.customActive = false)
    (ht : s.t = TreeState.zero) (hleaf : s.leaf = Sponge.zero) : s.Fresh where
  ctxBytes i _ := hctx ▸ memRead_zero i
  ctxPos := by rw [hctx]; rfl
  mode := hmode
  msgStarted := hmsg
  customDone := hdone
  customActive := hactive
  phase := by rw [ht]; rfl
  firstCount := by rw [ht]; rfl
  leafCount := by rw [ht]; rfl
  nLeaves := by rw [ht]; rfl
  leafBytes i _ := hleaf ▸ memRead_zero i
  leafPos := by rw [hleaf]; rfl

/-- A sponge whose 200 bytes read zero, at position 0, is the sponge of zeros. -/
theorem Sponge.eq_zero {c : Sponge} (hbytes : ∀ i, i < 200 → memRead c.S i = 0) (hpos : c.pos = 0) : c = Sponge.zero := by
  obtain ⟨S, pos⟩ := c
  have hS : S = Sponge.zero.S := ext_memRead fun i hi => (hbytes i hi).trans (memRead_zero i).symm
  exact congr (congrArg Sponge.mk hS) hpos

theorem State.Fresh.ctx_eq {s : State} (h : s.Fresh) : s.ctx = Sponge.zero := Sponge.eq_zero h.ctxBytes h.ctxPos

theorem State.Fresh.leaf_eq {s : State} (h : s.Fresh) : s.leaf = Sponge.zero := Sponge.eq_zero h.leafBytes h.leafPos

theorem State.Fresh.t_eq {s : State} (h : s.Fresh) : s.t = TreeState.zero := by
  have hphase := h.phase
  have hfirst := h.firstCount
  have hleaf := h.leafCount
  have hn := h.nLeaves
  cases ht : s.t
  simp_all [TreeState.zero]

theorem takeReset_fresh (s : State) : (takeReset s).Fresh := .of_zero rfl rfl rfl rfl rfl rfl rfl

theorem State.erase_respond_fresh (s : State) (st : Status) (out : List Byte) : (s.erase.respond st out).Fresh :=
  .of_zero rfl rfl rfl rfl rfl rfl rfl

theorem State.construct_respond_fresh (s : State) (c : Cfg) (st : Status) (out : List Byte) :
    ((s.construct c).respond st out).Fresh :=
  .of_zero rfl rfl rfl rfl rfl rfl rfl

theorem State.restart_respond_fresh (s : State) (st : Status) (out : List Byte) : (s.restart.respond st out).Fresh :=
  .of_zero rfl rfl rfl rfl rfl rfl rfl

/-- A fresh state meets the invariant, as soon as its `cfg` does: zero without a context (R24), legal with one (R152). -/
theorem State.Fresh.inv {s : State} (h : s.Fresh) (hnone : s.cfgValid = false → s.cfg = Cfg.zero)
    (hlegal : s.cfgValid = true → cfgOk s.cfg = true) : s.Inv where
  noContext hv := ⟨hnone hv, h.ctx_eq, h.mode, h.msgStarted, h.customDone, h.customActive, h.t_eq, h.leaf_eq⟩
  cfgLegal := hlegal
  posAbsorbing hv _ := h.ctxPos.symm ▸ (cfgOk_rate (hlegal hv)).1
  posSqueezing _ _ := h.ctxPos.symm ▸ Nat.zero_le _
  treeZero _ := ⟨h.t_eq, h.leaf_eq⟩
  customClear _ := ⟨h.customDone, h.customActive⟩
  activeDone ha := absurd (h.customActive.symm.trans ha) Bool.false_ne_true
  firstChunk _ := ⟨h.leafCount, h.nLeaves⟩
  finished hm := nomatch h.mode.symm.trans hm
  leafPos := by rw [h.leafPos, h.leafCount]
  firstCountLe := h.firstCount.symm ▸ Nat.zero_le _
  leafCountLt := by rw [h.leafCount]; decide
  collecting _ := h.phase
  leafClosed _ := h.leaf_eq
  countFits := by simp [Machine.countFits, h.nLeaves]
  storage i _ := h.ctx_eq.symm ▸ memRead_zero i
  treeMessage _ := h.msgStarted
  noMessage _ _ _ := h.ctxPos

/-- Hardware reset leaves a state of the invariant, whatever ran before (R270). -/
theorem takeReset_inv (s : State) : (takeReset s).Inv := (takeReset_fresh s).inv (fun _ => rfl) nofun

/-- Settles O52: `State.reset` is what a hardware reset leaves of it. -/
theorem invariantHoldsAtReset : Obligations.InvariantHoldsAtReset := takeReset_inv State.reset

/-! ### The reset table -/

theorem execReset_ok {s : State} (hf : s.fault = false) (hv : s.cfgValid = true) :
    execReset s = .next (s.restart.respond .ok []) := by
  simp [execReset, hf, hv]

/-- Settles O13: each of the three commands completes, and it leaves a fresh state. -/
theorem resetTableColumns : Obligations.ResetTableColumns := by
  refine ⟨⟨rfl, rfl, rfl, takeReset_fresh State.reset⟩, ?config, ?reset, ?drop⟩
  case config =>
    intro s v dom rounds rate hf hok
    exact ⟨_, execConfig_ok hf hok, rfl, rfl, rfl, rfl, State.construct_respond_fresh s _ _ _⟩
  case reset =>
    intro s hf hv
    exact ⟨_, execReset_ok hf hv, rfl, hv, rfl, hf, State.restart_respond_fresh s _ _⟩
  case drop =>
    intro s
    exact ⟨_, rfl, rfl, rfl, rfl, rfl, State.erase_respond_fresh s _ _⟩

/-- Clearing everything but `cfg` is constructing a context with the same `cfg` (R42, R172). -/
theorem State.restart_eq_construct {s : State} (hf : s.fault = false) (hv : s.cfgValid = true) :
    s.restart = s.construct s.cfg := by
  simp [State.restart, State.construct, State.erase, hf, hv]

/-- Settles O15: the context's own fields are legal, so `CONFIG` constructs with them the state `RESET` leaves. -/
theorem resetEqualsConfig : Obligations.ResetEqualsConfig := by
  intro s hinv hf hv
  calc execReset s = .next (s.restart.respond .ok []) := execReset_ok hf hv
    _ = .next ((s.construct s.cfg).respond .ok []) := by rw [State.restart_eq_construct hf hv]
    _ = execConfig s.cfg.var.code s.cfg.dom s.cfg.rounds s.cfg.rate s := (execConfig_ok hf (hinv.cfgLegal hv)).symm

end Sys2Proof.Machine
end

