-- ==== Sys2Proof/Proofs/TreeStorage.lean ====
section
/-! Proofs: the tree coordinator keeps the root's unused storage at zero (log 9), and `TreeFinish` keeps the
coordinator's ranges (R32, R217). -/

namespace Sys2Proof.Machine

variable {p : Bytes → Bytes} {n : Nat}

theorem markRoot_zeroFrom (hp : ∀ S, ZeroFrom n S → ZeroFrom n (p S)) (hr : treeRate ≤ n) {k : Coord}
    (hc : k.ctx.pos < treeRate) (h : ZeroFrom n k.ctx.S) : ZeroFrom n (markRoot p treeRate k).S := by
  unfold markRoot
  split
  · exact h
  · exact absorbBytes_zeroFrom hp hr hc h _

theorem closeLeaf_zeroFrom (hp : ∀ S, ZeroFrom n S → ZeroFrom n (p S)) (hr : treeRate ≤ n) {k : Coord}
    (hc : k.ctx.pos < treeRate) (h : ZeroFrom n k.ctx.S) : ZeroFrom n (closeLeaf p treeRate k).ctx.S :=
  absorbBytes_zeroFrom hp hr hc h _

theorem treeAbsorbByte_zeroFrom (hp : ∀ S, ZeroFrom n S → ZeroFrom n (p S)) (hr : treeRate ≤ n) {k : Coord}
    (hc : k.ctx.pos < treeRate) (h : ZeroFrom n k.ctx.S) (d : Byte) :
    ZeroFrom n (treeAbsorbByte p treeRate k d).ctx.S := by
  have hroot := markRoot_zeroFrom hp hr hc h
  unfold treeAbsorbByte leafByte
  split
  · exact absorbBytes_zeroFrom hp hr hc h [d]
  · dsimp only
    split
    · exact closeLeaf_zeroFrom hp hr (markRoot_pos_lt hc) hroot
    · exact hroot

theorem treeAbsorb_zeroFrom (hp : ∀ S, ZeroFrom n S → ZeroFrom n (p S)) (hr : treeRate ≤ n) {k : Coord} (hk : k.Ok)
    (h : ZeroFrom n k.ctx.S) (s : List Byte) : ZeroFrom n (treeAbsorb p treeRate k s).ctx.S := by
  induction s generalizing k with
  | nil => exact h
  | cons d s ih => exact ih (treeAbsorbByte_ok hk d) (treeAbsorbByte_zeroFrom hp hr hk.ctxPos h d)

theorem closeOpenLeaf_pos_lt {k : Coord} (hc : k.ctx.pos < treeRate) : (closeOpenLeaf p treeRate k).ctx.pos < treeRate := by
  unfold closeOpenLeaf
  split
  · exact closeLeaf_ctx_pos_lt hc
  · exact hc

theorem closeOpenLeaf_zeroFrom (hp : ∀ S, ZeroFrom n S → ZeroFrom n (p S)) (hr : treeRate ≤ n) {k : Coord}
    (hc : k.ctx.pos < treeRate) (h : ZeroFrom n k.ctx.S) : ZeroFrom n (closeOpenLeaf p treeRate k).ctx.S := by
  unfold closeOpenLeaf
  split
  · exact closeLeaf_zeroFrom hp hr hc h
  · exact h

theorem treeFinish_zeroFrom (hp : ∀ S, ZeroFrom n S → ZeroFrom n (p S)) (hr : treeRate ≤ n) {k : Coord}
    (hc : k.ctx.pos < treeRate) (h : ZeroFrom n k.ctx.S) : ZeroFrom n (treeFinish p treeRate k).ctx.S := by
  unfold treeFinish
  split
  · have hpos := closeOpenLeaf_pos_lt (p := p) hc
    exact pad_zeroFrom hp hr (absorbBytes_pos_lt hpos _)
      (absorbBytes_zeroFrom hp hr hpos (closeOpenLeaf_zeroFrom hp hr hc h) _) _
  · exact pad_zeroFrom hp hr hc h _

/-- `TreeFinish` leaves no open leaf, so it keeps the coordinator's ranges. -/
theorem treeFinish_ok {k : Coord} (hk : k.Ok) : (treeFinish p treeRate k).Ok := by
  obtain ⟨hpos, hlc, hleaf, -, hfc, hn⟩ := treeFinish_spec (p := p) (r := treeRate) k hk.leafClosed
  refine ⟨by rw [hpos]; decide, hfc ▸ hk.firstCountLe, by rw [hlc]; decide, fun hlt => ⟨hlc, ?_⟩,
    by rw [hleaf, hlc]; rfl, fun _ => hleaf⟩
  obtain ⟨hl0, hn0⟩ := hk.firstChunk (hfc ▸ hlt)
  simp [hn, hl0, hn0]

end Sys2Proof.Machine
end

