-- ==== Sys2Proof/Proofs/InvariantStep.lean ====
section
/-! Proofs: every step keeps the invariant (R32). First the writes of the sponge commands, each with what it must know of
the values written; then the commands, each from its case lemma; then one event and one step. -/

namespace Sys2Proof.Machine

/-! ### What the invariant says of the sponge -/

theorem State.perm_zeroFrom (s : State) (S : Bytes) (h : ZeroFrom s.cfg.var.nb S) : ZeroFrom s.cfg.var.nb (s.perm S) :=
  zeroFrom_permuteBytes _ _ _ h

theorem State.Inv.rate_pos {s : State} (h : s.Inv) (hv : s.cfgValid = true) : 0 < s.rate := (cfgOk_rate (h.cfgLegal hv)).1

theorem State.Inv.rate_le {s : State} (h : s.Inv) (hv : s.cfgValid = true) : s.rate ≤ s.cfg.var.nb :=
  (cfgOk_rate (h.cfgLegal hv)).2.le

theorem State.Inv.rate_tree {s : State} (h : s.Inv) (hv : s.cfgValid = true) (hd : s.cfg.dom = .tree) :
    s.rate = treeRate := by
  obtain ⟨-, -, hrate⟩ := cfgOk_tree (h.cfgLegal hv) hd
  exact hrate

theorem State.Inv.coord_ok {s : State} (h : s.Inv) (hv : s.cfgValid = true) (hm : s.mode = .absorbing)
    (hd : s.cfg.dom = .tree) : s.coord.Ok :=
  ⟨h.rate_tree hv hd ▸ h.posAbsorbing hv hm, h.firstCountLe, h.leafCountLt, h.firstChunk, h.leafPos, h.leafClosed⟩

/-! ### Writes -/

/-- A new root sponge: its position in the range of the mode, its unused storage zero, and at the start of the block as
long as there is no message. -/
theorem State.Inv.withCtx {s : State} (h : s.Inv) (hv : s.cfgValid = true) {c : Sponge}
    (habs : s.mode = .absorbing → c.pos < s.rate) (hsq : s.mode = .squeezing → c.pos ≤ s.rate)
    (hzero : ZeroFrom s.cfg.var.nb c.S)
    (hno : s.cfg.dom ≠ .tree → s.mode = .absorbing → s.msgStarted = false → c.pos = 0) : (s.withCtx c).Inv :=
  { h with
    noContext := fun hv' => nomatch hv.symm.trans hv'
    posAbsorbing := fun _ => habs
    posSqueezing := fun _ => hsq
    storage := hzero
    noMessage := hno }

theorem State.Inv.startMessage {s : State} (h : s.Inv) (hv : s.cfgValid = true) (hd : s.cfg.dom ≠ .tree) :
    s.startMessage.Inv :=
  { h with
    noContext := fun hv' => nomatch hv.symm.trans hv'
    treeMessage := fun hd' => absurd hd' hd
    noMessage := nofun }

theorem State.Inv.markCustom {s : State} (h : s.Inv) (hv : s.cfgValid = true) (hd : s.cfg.dom = .custom) :
    s.markCustom.Inv :=
  { h with
    noContext := fun hv' => nomatch hv.symm.trans hv'
    customClear := fun hd' => absurd hd hd'
    activeDone := fun _ => rfl }

theorem State.Inv.activateCustom {s : State} (h : s.Inv) (hv : s.cfgValid = true) (hd : s.cfg.dom = .custom)
    (hdone : s.customDone = true) : s.activateCustom.Inv :=
  { h with
    noContext := fun hv' => nomatch hv.symm.trans hv'
    customClear := fun hd' => absurd hd hd'
    activeDone := fun _ => hdone }

theorem State.Inv.startSqueezing {s : State} (h : s.Inv) (hv : s.cfgValid = true) (hm : s.mode = .absorbing)
    (hd : s.cfg.dom ≠ .tree) : s.startSqueezing.Inv :=
  { h with
    noContext := fun hv' => nomatch hv.symm.trans hv'
    posAbsorbing := nofun
    posSqueezing := fun _ _ => (h.posAbsorbing hv hm).le
    finished := fun _ hd' => absurd hd' hd
    collecting := nofun
    noMessage := nofun }

/-- The coordinator's result in tree mode, in the mode `m`: absorbing while it collects, squeezing after `TreeFinish`. -/
theorem State.Inv.withTree {s : State} (h : s.Inv) (hv : s.cfgValid = true) (hd : s.cfg.dom = .tree) {k : Coord}
    (hk : k.Ok) (hzero : ZeroFrom s.cfg.var.nb k.ctx.S) (hfits : k.t.nLeaves < 2 ^ s.params.treeCountBits) {m : Mode}
    (hcollecting : m = .absorbing → k.t.phase = .collecting)
    (hfinished : m = .squeezing → k.t.phase ≠ .collecting ∧ k.t.leafCount = 0) :
    State.Inv { s.withTree k.ctx k.leaf k.t with mode := m } :=
  have hpos : k.ctx.pos < s.rate := (h.rate_tree hv hd).symm ▸ hk.ctxPos
  { h with
    noContext := fun hv' => nomatch hv.symm.trans hv'
    posAbsorbing := fun _ _ => hpos
    posSqueezing := fun _ _ => hpos.le
    treeZero := fun hd' => absurd hd hd'
    firstChunk := hk.firstChunk
    finished := fun hm _ => hfinished hm
    leafPos := hk.leafPos
    firstCountLe := hk.firstCountLe
    leafCountLt := hk.leafCountLt
    collecting := hcollecting
    leafClosed := hk.leafClosed
    countFits := decide_eq_true hfits
    storage := hzero
    noMessage := fun hd' => absurd hd hd' }

/-! ### Commands -/

theorem execConfig_keeps_inv {s t : State} (h : s.Inv) {var : BitVec 3} {dom : Dom} {rounds : BitVec 5} {rate : BitVec 8}
    (hx : execConfig var dom rounds rate s = .next t) : t.Inv := by
  obtain ⟨-, rfl⟩ | ⟨-, rfl, -⟩ | ⟨-, v, -, hok, rfl⟩ := execConfig_next hx
  · exact h.raise _
  · exact h.raise _
  · exact (State.construct_respond_fresh s _ _ _).inv nofun fun _ => hok

theorem execReset_keeps_inv {s t : State} (h : s.Inv) (hx : execReset s = .next t) : t.Inv := by
  obtain ⟨-, rfl⟩ | ⟨-, -, rfl⟩ | ⟨-, hv, rfl⟩ := execReset_next hx
  · exact h.raise _
  · exact h.raise _
  · exact (State.restart_respond_fresh s _ _).inv (fun hv' => nomatch hv.symm.trans hv') h.cfgLegal

theorem execDrop_keeps_inv {s t : State} (hx : execDrop s = .next t) : t.Inv := by
  cases hx
  exact (State.erase_respond_fresh s _ _).inv (fun _ => rfl) nofun

theorem execStatus_keeps_inv {s t : State} (h : s.Inv) (hx : execStatus s = .next t) : t.Inv := by
  cases hx
  exact h.respond _ _

/-- A plain `ABSORB` moves the root's position within the block and writes rate bytes only (R150). -/
theorem State.Inv.absorb_plain {s : State} (h : s.Inv) (hv : s.cfgValid = true) (hm : s.mode = .absorbing)
    (hd : s.cfg.dom ≠ .tree) (data : List Byte) :
    (s.startMessage.withCtx (absorbBytes s.perm s.rate s.ctx data)).Inv :=
  have hpos := h.posAbsorbing hv hm
  (h.startMessage hv hd).withCtx hv (fun _ => absorbBytes_pos_lt hpos data)
    (fun _ => (absorbBytes_pos_lt hpos data).le)
    (absorbBytes_zeroFrom s.perm_zeroFrom (h.rate_le hv) hpos h.storage data) nofun

theorem State.Inv.absorb_tree {s : State} (h : s.Inv) (hv : s.cfgValid = true) (hm : s.mode = .absorbing)
    (hd : s.cfg.dom = .tree) (data : List Byte)
    (hfits : (treeAbsorb s.perm s.rate s.coord data).t.nLeaves < 2 ^ s.params.treeCountBits) :
    (s.withTree (treeAbsorb s.perm s.rate s.coord data).ctx (treeAbsorb s.perm s.rate s.coord data).leaf
      (treeAbsorb s.perm s.rate s.coord data).t).Inv := by
  have hrate := h.rate_tree hv hd
  have hok := h.coord_ok hv hm hd
  have hphase : (treeAbsorb s.perm s.rate s.coord data).t.phase = .collecting := by
    rw [treeAbsorb_t, TreeState.repeat_advance_phase]
    exact h.collecting hm
  refine h.withTree hv hd (m := s.mode) ?_ ?_ hfits (fun _ => hphase) fun hm' => nomatch hm.symm.trans hm'
  · rw [hrate]
    exact treeAbsorb_ok hok data
  · rw [hrate]
    exact treeAbsorb_zeroFrom s.perm_zeroFrom (hrate ▸ h.rate_le hv) hok h.storage data

theorem execAbsorb_keeps_inv {s t : State} (h : s.Inv) {data : List Byte} (hx : execAbsorb data s = .next t) : t.Inv := by
  obtain ⟨-, rfl⟩ | ⟨-, -, rfl⟩ | ⟨-, -, -, -, rfl⟩ | ⟨-, hv, hm, -, hd, rfl⟩ | ⟨-, hv, hm, -, hd, _, rfl, hfits, rfl⟩ :=
    execAbsorb_next hx
  · exact h.raise _
  · exact h.raise _
  · exact h.respond _ _
  · exact (h.absorb_plain hv hm hd data).respond _ _
  · exact (h.absorb_tree hv hm hd data hfits).respond _ _

/-- A plain `FINISH` permutes the padded block and goes back to position 0 (R150, R163). -/
theorem State.Inv.finish_plain {s : State} (h : s.Inv) (hv : s.cfgValid = true) (hm : s.mode = .absorbing)
    (hd : s.cfg.dom ≠ .tree) (d : Byte) : (s.withCtx (pad s.perm s.rate s.ctx d)).startSqueezing.Inv :=
  have hpadded : (s.withCtx (pad s.perm s.rate s.ctx d)).Inv :=
    h.withCtx hv (fun _ => h.rate_pos hv) (fun _ => Nat.zero_le _)
      (pad_zeroFrom s.perm_zeroFrom (h.rate_le hv) (h.posAbsorbing hv hm) h.storage d) fun _ _ _ => rfl
  hpadded.startSqueezing hv hm hd

theorem State.Inv.finish_tree {s : State} (h : s.Inv) (hv : s.cfgValid = true) (hm : s.mode = .absorbing)
    (hd : s.cfg.dom = .tree) (hfits : (treeFinish s.perm s.rate s.coord).t.nLeaves < 2 ^ s.params.treeCountBits) :
    (s.withTree (treeFinish s.perm s.rate s.coord).ctx (treeFinish s.perm s.rate s.coord).leaf
      (treeFinish s.perm s.rate s.coord).t).startSqueezing.Inv := by
  have hrate := h.rate_tree hv hd
  have hok := h.coord_ok hv hm hd
  obtain ⟨-, hlc, -, hphase, -, -⟩ := treeFinish_spec (p := s.perm) (r := s.rate) s.coord h.leafClosed
  refine h.withTree hv hd (m := .squeezing) ?_ ?_ hfits nofun fun _ => ⟨hphase, hlc⟩
  · rw [hrate]
    exact treeFinish_ok hok
  · rw [hrate]
    exact treeFinish_zeroFrom s.perm_zeroFrom (hrate ▸ h.rate_le hv) hok.ctxPos h.storage

theorem execFinish_keeps_inv {s t : State} (h : s.Inv) (hx : execFinish s = .next t) : t.Inv := by
  obtain ⟨-, rfl⟩ | ⟨-, -, rfl⟩ | ⟨-, hv, hm, hd, rfl⟩ | ⟨-, hv, hm, hd, _, rfl, hfits, rfl⟩ := execFinish_next hx
  · exact h.raise _
  · exact h.raise _
  · exact (h.finish_plain hv hm hd _).respond _ _
  · exact (h.finish_tree hv hm hd hfits).respond _ _

theorem execSqueeze_keeps_inv {s t : State} (h : s.Inv) {len : BitVec 28} (hx : execSqueeze len s = .next t) : t.Inv := by
  obtain ⟨-, rfl⟩ | ⟨-, -, rfl⟩ | ⟨-, hv, hm, rfl⟩ := execSqueeze_next hx
  · exact h.raise _
  · exact h.raise _
  · have hne : s.mode ≠ .absorbing := by simp [hm]
    exact (h.withCtx hv (fun hm' => absurd hm' hne)
      (fun _ => squeezeBytes_pos_le len.toNat (h.rate_pos hv) (h.posSqueezing hv hm))
      (squeezeBytes_zeroFrom s.perm_zeroFrom h.storage len.toNat) fun _ hm' => absurd hm' hne).respond _ _

/-- What `CUSTOM` absorbs is whole blocks, so it leaves the position where it was, at 0 (R194, R198). -/
theorem State.Inv.absorb_customPrefix {s : State} (h : s.Inv) (hc : canCustom s = true) (name cust : List Byte) :
    (s.markCustom.activateCustom.withCtx (absorbBytes s.perm s.rate s.ctx (customPrefix name cust s.rate))).Inv := by
  obtain ⟨hv, hd, hm, hmsg, -⟩ := (canCustom_iff s).1 hc
  have hpos := h.posAbsorbing hv hm
  have hstart : s.ctx.pos = 0 := h.noMessage (by simp [hd]) hm hmsg
  have hzero : (absorbBytes s.perm s.rate s.ctx (customPrefix name cust s.rate)).pos = 0 := by
    rw [absorbBytes_pos hpos, hstart, Nat.zero_add, customPrefix_length_mod name cust (h.rate_pos hv)]
  refine ((h.markCustom hv hd).activateCustom hv hd rfl).withCtx hv ?_ ?_ ?_ fun _ _ _ => hzero
  · exact fun _ => absorbBytes_pos_lt hpos _
  · exact fun _ => (absorbBytes_pos_lt hpos _).le
  · exact absorbBytes_zeroFrom s.perm_zeroFrom (h.rate_le hv) hpos h.storage _

theorem execCustom_keeps_inv {s t : State} (h : s.Inv) {name cust : List Byte} (hx : execCustom name cust s = .next t) :
    t.Inv := by
  obtain ⟨-, rfl⟩ | ⟨-, -, rfl⟩ | ⟨-, hc, -, rfl⟩ | ⟨-, hc, -, rfl⟩ := execCustom_next hx
  · exact h.raise _
  · exact h.raise _
  · obtain ⟨hv, hd, -⟩ := (canCustom_iff s).1 hc
    exact (h.markCustom hv hd).respond _ _
  · exact (h.absorb_customPrefix hc name cust).respond _ _

theorem execPermute_keeps_inv {s t : State} (h : s.Inv) {var : BitVec 3} {rounds : BitVec 5} {input : List Byte}
    (hx : execPermute var rounds input s = .next t) : t.Inv := by
  obtain ⟨-, rfl⟩ | ⟨-, rfl⟩ | ⟨-, rfl⟩ | ⟨-, v, -, -, -, rfl⟩ := execPermute_next hx
  · exact h.raise _
  · exact h.raise _
  · exact h.raise _
  · exact h.respond _ _

/-! ### Events and steps -/

theorem exec_keeps_inv {s t : State} (h : s.Inv) {i : Instr} (hx : exec i s = .next t) : t.Inv := by
  cases i with
  | config var dom rounds rate => exact execConfig_keeps_inv h hx
  | absorb data => exact execAbsorb_keeps_inv h hx
  | finish => exact execFinish_keeps_inv h hx
  | squeeze len => exact execSqueeze_keeps_inv h hx
  | reset => exact execReset_keeps_inv h hx
  | drop => exact execDrop_keeps_inv hx
  | custom name cust => exact execCustom_keeps_inv h hx
  | permute var rounds input => exact execPermute_keeps_inv h hx
  | status => exact execStatus_keeps_inv h hx

/-- A command whose word is illegal is answered and does nothing else (R248). -/
theorem runCommand_of_decode_error {c : Command} {e : Illegal} (h : decode c = .error e) (s : State) :
    runCommand c s = .next (s.raise .errIllegal) := by
  rw [runCommand, h]

theorem runCommand_keeps_inv {s t : State} (h : s.Inv) {c : Command} (hx : runCommand c s = .next t) : t.Inv := by
  cases hdecode : decode c with
  | ok i =>
    rw [runCommand_of_decode_ok hdecode] at hx
    exact exec_keeps_inv h hx
  | error e =>
    rw [runCommand_of_decode_error hdecode] at hx
    cases hx
    exact h.raise _

theorem runEvent_keeps_inv {s t : State} (h : s.Inv) {e : HostEvent} (hx : runEvent e s = .next t) : t.Inv := by
  cases e with
  | command c => exact runCommand_keeps_inv h hx
  | hardwareReset =>
    cases hx
    exact takeReset_inv s

/-- With no event presented, the step changes nothing (R271; log 2). -/
theorem step_of_pending_nil {s : State} (h : s.pending = []) : step s = .next s := by
  rw [step, h]

/-- Settles O53: a step waits, or it runs one event on a state that differs in the list of events only. -/
theorem stepKeepsTheInvariant : Obligations.StepKeepsTheInvariant := by
  intro s t h hx
  cases hpending : s.pending with
  | nil =>
    rw [step_of_pending_nil hpending] at hx
    cases hx
    exact h
  | cons e rest =>
    rw [step_of_pending_cons hpending] at hx
    exact runEvent_keeps_inv (h.pop rest) hx

end Sys2Proof.Machine
end

