-- ==== Sys2Proof/Proofs/StatusWord.lean ====
section
/-! Proofs: `STATUS` outputs the status word, least significant byte first (R31, R178). -/

namespace Sys2Proof.Machine

/-- The status word as a number: its fields at their bit positions (R31). -/
theorem toNat_statusWord (s : State) : (statusWord s).toNat =
    s.cfgValid.toNat + 2 * (modeBit s).toNat + 4 * s.fault.toNat + 8 * s.customActive.toNat + 16 * s.t.phase.code.toNat
      + 64 * s.cfg.var.code.toNat + 512 * s.cfg.dom.code.toNat + 2048 * s.cfg.rounds.toNat
      + 65536 * s.cfg.rate.toNat := by
  simp only [statusWord, toNat_append_add, BitVec.toNat_ofBool, BitVec.toNat_ofNat]
  omega

/-- The four bytes of a 32-bit word stand for the word. -/
theorem littleEndianValue_statusBytes (s : State) : littleEndianValue (statusBytes s) = (statusWord s).toNat := by
  have hlt := (statusWord s).isLt
  simp only [statusBytes, littleEndianValue, BitVec.extractLsb'_toNat, Nat.shiftRight_eq_div_pow]
  omega

theorem toNat_modeBit (s : State) : (modeBit s).toNat = if s.cfgValid = true ∧ s.mode = .squeezing then 1 else 0 := by
  cases hv : s.cfgValid <;> cases hm : s.mode <;> simp [modeBit, Mode.code, hv, hm]

/-- Settles O17: each field of the number the output stands for is cut out at its bit position. -/
theorem statusReportsTheWord : Obligations.StatusReportsTheWord := by
  intro s
  refine ⟨statusBytes s, rfl, rfl, ?_⟩
  have hword := (littleEndianValue_statusBytes s).trans (toNat_statusWord s)
  have hvalid := s.cfgValid.toNat_lt
  have hmode := (modeBit s).isLt
  have hfault := s.fault.toNat_lt
  have hactive := s.customActive.toNat_lt
  have hphase := s.t.phase.code.isLt
  have hvar := s.cfg.var.code.isLt
  have hdom := s.cfg.dom.code.isLt
  have hrounds := s.cfg.rounds.isLt
  have hrate := s.cfg.rate.isLt
  refine ⟨?valid, ?mode, ?fault, ?active, ?phase, ?var, ?dom, ?rounds, ?rate, ?zero⟩
  case mode =>
    rw [← toNat_modeBit]
    omega
  case phase =>
    have hcut : littleEndianValue (statusBytes s) / 16 % 4 = s.t.phase.code.toNat := by omega
    rw [hcut]
    cases s.t.phase <;> rfl
  case var =>
    have hcut : littleEndianValue (statusBytes s) / 64 % 8 = s.cfg.var.code.toNat := by omega
    rw [hcut]
    cases s.cfg.var <;> rfl
  case dom =>
    have hcut : littleEndianValue (statusBytes s) / 512 % 4 = s.cfg.dom.code.toNat := by omega
    rw [hcut]
    cases s.cfg.dom <;> rfl
  all_goals omega

end Sys2Proof.Machine
end

