-- ==== Sys2Proof/Proofs/AbsorbCounts.lean ====
section
/-! Proofs: what `ABSORB` and `FINISH` leave in the position and in the tree counters, for every payload length, the
empty one included (R26, R29, R45). -/

namespace Sys2Proof.Machine

/-- Settles O36: the position is that of `AbsorbBytes`; an empty payload leaves it where it was, below the rate. -/
theorem absorbPositionModuloRate : Obligations.AbsorbPositionModuloRate := by
  intro s data hinv hf hv hm hd
  have hpos := hinv.posAbsorbing hv hm
  cases data with
  | nil => exact ⟨_, execAbsorb_nil hf hv hm, (Nat.mod_eq_of_lt hpos).symm⟩
  | cons d ds => exact ⟨_, execAbsorb_plain hf hv hm hd, absorbBytes_pos hpos _⟩

/-- In tree mode `ABSORB` leaves the counters of `TreeAbsorb` where they fit, and is refused where they do not (R45);
with an empty payload they are the counters before, which the invariant says fit. -/
theorem execAbsorb_tree_counters {s : State} (hinv : s.Inv) (hf : s.fault = false) (hv : s.cfgValid = true)
    (hm : s.mode = .absorbing) (hd : s.cfg.dom = .tree) (data : List Byte) :
    ((treeAbsorb s.perm s.rate s.coord data).t.nLeaves < 2 ^ s.params.treeCountBits →
      ∃ t, execAbsorb data s = .next t ∧ t.response = some ⟨.ok, []⟩ ∧ t.t = (treeAbsorb s.perm s.rate s.coord data).t) ∧
    (2 ^ s.params.treeCountBits ≤ (treeAbsorb s.perm s.rate s.coord data).t.nLeaves →
      execAbsorb data s = .refused .treeCountOverflow) := by
  cases data with
  | nil =>
    have hfits : s.t.nLeaves < 2 ^ s.params.treeCountBits := of_decide_eq_true hinv.countFits
    exact ⟨fun _ => ⟨_, execAbsorb_nil hf hv hm, rfl, rfl⟩, fun hover => absurd hfits (Nat.not_lt.2 hover)⟩
  | cons d ds =>
    exact ⟨fun hfits => ⟨_, execAbsorb_tree_fits hf hv hm hd hfits, rfl, rfl⟩, execAbsorb_tree_overflow hf hv hm hd⟩

/-- Settles O38: the counters of `TreeAbsorb` in closed form, those of `TreeFinish` by its open leaf, and the bound on
either side. -/
theorem treeCountersAndTheirBound : Obligations.TreeCountersAndTheirBound := by
  intro s data hinv hf hv hm hd total closed
  have habsorb := (treeAbsorb_t (p := s.perm) (r := s.rate) s.coord data).trans
    (TreeState.repeat_advance data.length hinv.firstCountLe hinv.leafCountLt fun hlt => (hinv.firstChunk hlt).1)
  have hleaves : (treeAbsorb s.perm s.rate s.coord data).t.nLeaves = s.t.nLeaves + total / 8192 := by
    rw [habsorb]
    rfl
  obtain ⟨hfits, hover⟩ := execAbsorb_tree_counters hinv hf hv hm hd data
  obtain ⟨-, hopen, -, -, hfirst, hclosed⟩ := treeFinish_spec (p := s.perm) (r := s.rate) s.coord hinv.leafClosed
  refine ⟨?absorbFits, ?absorbOver, ?finishFits, ?finishOver, rfl⟩
  case absorbFits =>
    intro hn
    obtain ⟨t, hx, hresponse, ht⟩ := hfits (hleaves ▸ hn)
    refine ⟨t, hx, hresponse, ?_⟩
    rw [ht, habsorb]
    exact ⟨rfl, rfl, rfl, rfl⟩
  case absorbOver => exact fun hn => hover (hleaves ▸ hn)
  case finishFits =>
    exact fun hn => ⟨_, execFinish_tree_fits hf hv hm hd (hclosed ▸ hn), rfl, hfirst, hopen, hclosed⟩
  case finishOver => exact fun hn => execFinish_tree_overflow hf hv hm hd (hclosed ▸ hn)

end Sys2Proof.Machine
end

