-- ==== Sys2Proof/Proofs/ByteOrder.lean ====
section
/-! Proofs: the byte orders of Keccak lanes (R55) and Ascon words (R57). Both are one packing of bytes into a word, least
significant byte first, once the bytes of a big-endian word are taken in reverse. -/

namespace Sys2Proof.Machine

/-! ### Byte strings as numbers -/

theorem littleEndianValue_lt (l : List Byte) : littleEndianValue l < 2 ^ (8 * l.length) := by
  induction l with
  | nil => simp [littleEndianValue]
  | cons b bs ih =>
    have hb := b.isLt
    rw [List.length_cons, Nat.mul_succ, Nat.pow_add]
    simp only [littleEndianValue]
    omega

/-- A byte put at the end is the most significant one. -/
theorem littleEndianValue_concat (l : List Byte) (b : Byte) :
    littleEndianValue (l ++ [b]) = littleEndianValue l + 2 ^ (8 * l.length) * b.toNat := by
  induction l with
  | nil => simp [littleEndianValue]
  | cons a l ih =>
    rw [List.cons_append, littleEndianValue, littleEndianValue, ih, List.length_cons, Nat.mul_succ, Nat.pow_add]
    ring

/-- Byte `k` of the number is byte `k` of the string. -/
theorem littleEndianValue_byte (l : List Byte) (k : Nat) :
    littleEndianValue l / 2 ^ (8 * k) % 256 = (l[k]?.getD 0).toNat := by
  induction l generalizing k with
  | nil => simp [littleEndianValue]
  | cons b bs ih =>
    have hb := b.isLt
    cases k with
    | zero =>
      simp only [littleEndianValue, Nat.mul_zero, Nat.pow_zero, Nat.div_one, List.getElem?_cons_zero, Option.getD_some]
      omega
    | succ k =>
      have hrest : littleEndianValue (b :: bs) / 2 ^ 8 = littleEndianValue bs := by
        simp only [littleEndianValue]
        omega
      rw [Nat.mul_succ, Nat.add_comm, Nat.pow_add, ← Nat.div_div_eq_div_mul, hrest, ih, List.getElem?_cons_succ]

/-- Reading most significant byte first is reading the reversed string least significant byte first. -/
theorem bigEndianValue_eq_littleEndianValue_reverse (l : List Byte) :
    bigEndianValue l = littleEndianValue l.reverse := by
  induction l using List.reverseRecOn with
  | nil => rfl
  | append_singleton l b ih =>
    rw [bigEndianValue_append, ih, List.reverse_concat]
    simp only [List.foldl_cons, List.foldl_nil, littleEndianValue]
    omega

/-! ### Packing bytes into a word -/

/-- The bytes `f 0` to `f (n - 1)` as a word, least significant first: the loop of `laneOfBytes` and `wordOfBytes`. -/
def packBytes (w : Nat) (f : Nat → Byte) (n : Nat) : BitVec w :=
  (List.range n).foldl (fun acc k => acc ||| ((f k).setWidth w <<< (8 * k))) 0

theorem packBytes_succ (w : Nat) (f : Nat → Byte) (n : Nat) :
    packBytes w f (n + 1) = packBytes w f n ||| ((f n).setWidth w <<< (8 * n)) := by
  simp [packBytes, List.range_succ]

/-- Bytes that fit the word make the little-endian number: each falls into bits that are still zero. -/
theorem toNat_packBytes {w n : Nat} (f : Nat → Byte) (h : 8 * n ≤ w) :
    (packBytes w f n).toNat = littleEndianValue ((List.range n).map f) := by
  induction n with
  | zero => simp [packBytes, littleEndianValue]
  | succ n ih =>
    have hlow : littleEndianValue ((List.range n).map f) < 2 ^ (8 * n) := by
      simpa using littleEndianValue_lt ((List.range n).map f)
    have hbyte : 2 ^ (8 * n) * (f n).toNat < 2 ^ w := calc
      2 ^ (8 * n) * (f n).toNat < 2 ^ (8 * n) * 2 ^ 8 := Nat.mul_lt_mul_of_pos_left (f n).isLt (Nat.two_pow_pos _)
      _ = 2 ^ (8 * n + 8) := (Nat.pow_add ..).symm
      _ ≤ 2 ^ w := Nat.pow_le_pow_right (by omega) h
    have hshift : ((f n).setWidth w <<< (8 * n)).toNat = 2 ^ (8 * n) * (f n).toNat := by
      rw [BitVec.toNat_shiftLeft, BitVec.toNat_setWidth_of_le (by omega), Nat.shiftLeft_eq, Nat.mul_comm,
        Nat.mod_eq_of_lt hbyte]
    rw [packBytes_succ, BitVec.toNat_or, ih (by omega), hshift, List.range_succ, List.map_append, List.map_singleton,
      littleEndianValue_concat, List.length_map, List.length_range, Nat.or_comm, ← Nat.two_pow_add_eq_or_of_lt hlow,
      Nat.add_comm]

/-- Byte `k` of the word is byte `k` of those packed. -/
theorem packBytes_byte {w n k : Nat} (f : Nat → Byte) (h : 8 * n ≤ w) (hk : k < n) :
    (packBytes w f n >>> (8 * k)).setWidth 8 = f k := by
  apply BitVec.eq_of_toNat_eq
  rw [BitVec.toNat_setWidth, BitVec.toNat_ushiftRight, toNat_packBytes f h, Nat.shiftRight_eq_div_pow,
    littleEndianValue_byte]
  simp [hk]

/-! ### Keccak lanes -/

/-- The bytes of a Keccak state are those of its 25 lanes (R8), and the storage holds them. -/
theorem Variant.keccak_sizes {v : Variant} (hv : v ≠ .ascon) :
    v.nb = v.w / 8 * 25 ∧ 0 < v.w / 8 ∧ v.nb ≤ 200 := by
  cases v with
  | ascon => exact absurd rfl hv
  | k1600 | k800 | k400 | k200 => decide

/-- The byte view of 25 lanes by lane coordinates (R55). -/
theorem byteOfLanes_eq_lane {w i : Nat} (A : Lanes w) (h : i / (w / 8) < 25) :
    byteOfLanes A i = (lane A (i / (w / 8) % 5) (i / (w / 8) / 5) >>> (8 * (i % (w / 8)))).setWidth 8 := by
  rw [byteOfLanes, lane_mul_five A _ h, Vector.getElem?_eq_getElem h, Option.getD_some]

theorem laneOfBytes_eq_packBytes (w : Nat) (S : Bytes) (j : Nat) :
    laneOfBytes w S j = packBytes w (fun k => memRead S (w / 8 * j + k)) (w / 8) := rfl

theorem lane_lanesOfBytes {w j : Nat} (S : Bytes) (h : j < 25) :
    lane (lanesOfBytes w S) (j % 5) (j / 5) = laneOfBytes w S j := by
  rw [lane_mul_five _ _ h, lanesOfBytes, getElem_tabulate]

/-- Taking lanes from bytes and bytes from lanes gives the bytes back. -/
theorem byteOfLanes_lanesOfBytes {w i : Nat} (S : Bytes) (hw : 0 < w / 8) (h : i / (w / 8) < 25) :
    byteOfLanes (lanesOfBytes w S) i = memRead S i := by
  rw [byteOfLanes_eq_lane _ h, lane_lanesOfBytes S h, laneOfBytes_eq_packBytes,
    packBytes_byte _ (Nat.mul_div_le w 8) (Nat.mod_lt _ hw), Nat.div_add_mod]

theorem memRead_keccakBytes {v : Variant} {i : Nat} (rounds : Nat) (S : Bytes) (hi : i < v.nb) (h : i < 200) :
    memRead (keccakBytes v rounds S) i = byteOfLanes (keccakP v.nrMax rounds (lanesOfBytes v.w S)) i := by
  rw [keccakBytes, memRead_tabulate, if_pos h, if_pos hi]

/-- Settles O31: a lane packs its bytes, and each byte is cut out of its lane where it was packed. -/
theorem keccakByteOrder : Obligations.KeccakByteOrder := by
  intro v S rounds hv lb
  obtain ⟨hnb, hpos, hle⟩ := Variant.keccak_sizes hv
  have hlane {i : Nat} (hi : i < v.nb) : i / lb < 25 := Nat.div_lt_of_lt_mul (hnb ▸ hi)
  refine ⟨?lane, ?byte, ?permuted⟩
  case lane =>
    intro j hj
    rw [lane_lanesOfBytes S hj, laneOfBytes_eq_packBytes, toNat_packBytes _ (Nat.mul_div_le v.w 8)]
  case byte =>
    intro i hi
    rw [← byteOfLanes_eq_lane _ (hlane hi), byteOfLanes_lanesOfBytes S hpos (hlane hi)]
  case permuted =>
    intro i hi
    rw [memRead_keccakBytes rounds S hi (by omega), byteOfLanes_eq_lane _ (hlane hi)]

/-! ### Ascon words -/

/-- Where byte `k` of a word stands, counted in bytes from the least significant one (R57). -/
def bytePlace (o : ByteOrder) (k : Nat) : Nat :=
  match o with
  | .big => 7 - k
  | .little => k

theorem bytePlace_lt (o : ByteOrder) {k : Nat} (h : k < 8) : bytePlace o k < 8 := by
  cases o <;> simp only [bytePlace] <;> omega

theorem bytePlace_bytePlace (o : ByteOrder) {k : Nat} (h : k < 8) : bytePlace o (bytePlace o k) = k := by
  cases o with
  | big => exact Nat.sub_sub_self (Nat.le_of_lt_succ h)
  | little => rfl

theorem asconShift_eq_bytePlace (o : ByteOrder) {k : Nat} (h : k < 8) : asconShift o k = 8 * bytePlace o k := by
  cases o with
  | big =>
    simp only [asconShift, bytePlace]
    omega
  | little => rfl

/-- The eight places of a word are the eight bytes in another order. -/
theorem map_bytePlace_perm (o : ByteOrder) : ((List.range 8).map (bytePlace o)).Perm (List.range 8) := by
  cases o <;> decide

/-- A word packs its eight bytes, big-endian in reverse: the order in which the bytes are combined is immaterial. -/
theorem wordOfBytes_eq_packBytes (o : ByteOrder) (S : Bytes) (j : Nat) :
    wordOfBytes o S j = packBytes 64 (fun k => memRead S (8 * j + bytePlace o k)) 8 := by
  rw [wordOfBytes, ← (map_bytePlace_perm o).foldl_eq' fun a _ b _ acc => by ac_rfl]
  cases o <;> rfl

theorem word_wordsOfBytes (o : ByteOrder) (S : Bytes) {j : Nat} (h : j < 5) :
    (wordsOfBytes o S).word j = wordOfBytes o S j := by
  interval_cases j <;> rfl

theorem toNat_word_little (S : Bytes) {j : Nat} (h : j < 5) : ((wordsOfBytes .little S).word j).toNat =
    littleEndianValue ((List.range 8).map fun k => memRead S (8 * j + k)) := by
  rw [word_wordsOfBytes _ S h, wordOfBytes_eq_packBytes, toNat_packBytes _ (by decide)]
  rfl

theorem toNat_word_big (S : Bytes) {j : Nat} (h : j < 5) : ((wordsOfBytes .big S).word j).toNat =
    bigEndianValue ((List.range 8).map fun k => memRead S (8 * j + k)) := by
  rw [word_wordsOfBytes _ S h, wordOfBytes_eq_packBytes, toNat_packBytes _ (by decide),
    bigEndianValue_eq_littleEndianValue_reverse]
  rfl

/-- Taking words from bytes and bytes from words gives the bytes back, in either order. -/
theorem byteOfWords_wordsOfBytes (o : ByteOrder) (S : Bytes) {i : Nat} (h : i < 40) :
    byteOfWords o (wordsOfBytes o S) i = memRead S i := by
  have hk : i % 8 < 8 := Nat.mod_lt _ (by decide)
  rw [byteOfWords, word_wordsOfBytes o S (by omega), wordOfBytes_eq_packBytes, asconShift_eq_bytePlace o hk,
    packBytes_byte _ (by decide) (bytePlace_lt o hk), bytePlace_bytePlace o hk, Nat.div_add_mod]

theorem memRead_asconBytes (o : ByteOrder) (rounds : Nat) (S : Bytes) {i : Nat} (h : i < 40) :
    memRead (asconBytes o rounds S) i = byteOfWords o (asconP rounds (wordsOfBytes o S)) i := by
  rw [asconBytes, memRead_tabulate, if_pos (by omega), if_pos h]

/-- Settles O32: a word packs its bytes in either order, and each byte is cut out of its word where it was packed. -/
theorem asconByteOrder : Obligations.AsconByteOrder := by
  intro S rounds
  refine ⟨?bigWord, ?littleWord, ?bigByte, ?littleByte, ?bigPermuted, ?littlePermuted, rfl⟩
  case bigWord => exact fun j hj => toNat_word_big S hj
  case littleWord => exact fun j hj => toNat_word_little S hj
  case bigByte => exact fun i hi => (byteOfWords_wordsOfBytes .big S hi).symm
  case littleByte => exact fun i hi => (byteOfWords_wordsOfBytes .little S hi).symm
  case bigPermuted => exact fun i hi => memRead_asconBytes .big rounds S hi
  case littlePermuted => exact fun i hi => memRead_asconBytes .little rounds S hi

end Sys2Proof.Machine
end

