-- ==== Sys2Proof/Proofs/SqueezeWithinBlock.lean ====
section
/-! Proofs: a `SQUEEZE` that ends within the block runs no permutation and outputs rate bytes only (R150, R59, R60). -/

namespace Sys2Proof.Machine

/-- Bytes that end within the block are the state bytes from the position on; the state bytes stay (R150). -/
theorem squeezeBytes_short {p : Bytes → Bytes} {r n : Nat} {c : Sponge} (h : c.pos + n ≤ r) :
    squeezeBytes p r n c = ((List.range' c.pos n).map (memRead c.S), { S := c.S, pos := c.pos + n }) := by
  induction n generalizing c with
  | zero => rfl
  | succ n ih =>
    have hnoPermute : refill p r c = c := if_neg (by omega)
    have hrest := ih (c := { S := c.S, pos := c.pos + 1 }) (by simp only; omega)
    simp only [squeezeBytes, hnoPermute, hrest, List.range'_succ, List.map_cons, Nat.add_assoc, Nat.add_comm 1 n]

/-- The output of a squeeze within the block is the same from any two states with the same rate bytes. -/
theorem squeezeBytes_output_congr {p : Bytes → Bytes} {r n : Nat} {c : Sponge} {S : Bytes} (h : c.pos + n ≤ r)
    (hrate : ∀ i, i < r → memRead S i = memRead c.S i) :
    (squeezeBytes p r n { S := S, pos := c.pos }).1 = (squeezeBytes p r n c).1 := by
  rw [squeezeBytes_short h, squeezeBytes_short (c := { S := S, pos := c.pos }) h]
  apply List.map_congr_left
  intro i hi
  obtain ⟨-, hlt⟩ := List.mem_range'_1.1 hi
  exact hrate i (Nat.lt_of_lt_of_le hlt h)

theorem execSqueeze_of_fault {s : State} (len : BitVec 28) (hf : s.fault = true) :
    execSqueeze len s = .next (s.raise .errFaulted) := by
  rw [execSqueeze, if_pos hf]

theorem execSqueeze_of_not_canSqueeze {s : State} (len : BitVec 28) (hf : s.fault = false) (hc : canSqueeze s = false) :
    execSqueeze len s = .next (s.raise .errSequence) := by
  simp [execSqueeze, hf, hc]

/-- Settles O44: the checks do not look at the state bytes, and the output is the same rate bytes. -/
theorem squeezeReadsOnlyTheRate : Obligations.SqueezeReadsOnlyTheRate := by
  intro s S len hlen hrate t hx
  obtain ⟨hf, rfl⟩ | ⟨hf, hc, rfl⟩ | ⟨hf, hv, hm, rfl⟩ := execSqueeze_next hx
  · exact ⟨_, execSqueeze_of_fault len hf, rfl⟩
  · exact ⟨_, execSqueeze_of_not_canSqueeze len hf hc, rfl⟩
  · refine ⟨_, execSqueeze_ok len hf hv hm, ?_⟩
    exact congrArg (fun out => some (Response.mk .ok out)) (squeezeBytes_output_congr hlen hrate)

end Sys2Proof.Machine
end

