-- ==== Sys2Proof/Proofs/Decoder.lean ====
section
/-! Proofs: the decoder and the encoder, each fact once. A word is its fields laid side by side (R73 to R77), so an
equation between words is one equation per field; decoding reads the row of a word (R83) and then the row's fields. -/

namespace Sys2Proof

/-! ### A word is its fields -/

theorem append_eq_append_iff {m n : Nat} {a c : BitVec m} {b d : BitVec n} : a ++ b = c ++ d ↔ a = c ∧ b = d := by
  constructor
  · intro h
    obtain rfl : b = d := by
      simpa only [BitVec.setWidth_append_eq_right] using congrArg (BitVec.setWidth n) h
    exact ⟨(BitVec.append_left_inj b).1 h, rfl⟩
  · rintro ⟨rfl, rfl⟩
    rfl

/-- A word in the formats L and N (R74, R75). -/
theorem word_eq_fields2 (w : CmdWord) : w = field w 28 4 ++ field w 0 28 := by
  apply BitVec.eq_of_toNat_eq
  rw [toNat_append_add, toNat_field, toNat_field]
  have hw := w.isLt
  omega

/-- A word in the format U (R76). -/
theorem word_eq_fields3 (w : CmdWord) : w = field w 28 4 ++ field w 14 14 ++ field w 0 14 := by
  apply BitVec.eq_of_toNat_eq
  rw [toNat_append3, toNat_field, toNat_field, toNat_field]
  have hw := w.isLt
  omega

/-- A word in the formats C and P, whose fields have the same bounds (R73, R77). -/
theorem word_eq_fields6 (w : CmdWord) :
    w = field w 28 4 ++ field w 25 3 ++ field w 23 2 ++ field w 18 5 ++ field w 8 10 ++ field w 0 8 := by
  apply BitVec.eq_of_toNat_eq
  rw [toNat_append6, toNat_field, toNat_field, toNat_field, toNat_field, toNat_field, toNat_field]
  have hw := w.isLt
  omega

theorem eq_append2_iff {w : CmdWord} {a : BitVec 4} {b : BitVec 28} :
    w = a ++ b ↔ field w 28 4 = a ∧ field w 0 28 = b := by
  conv_lhs => rw [word_eq_fields2 w, append_eq_append_iff]

theorem eq_append3_iff {w : CmdWord} {a : BitVec 4} {b c : BitVec 14} :
    w = a ++ b ++ c ↔ field w 28 4 = a ∧ field w 14 14 = b ∧ field w 0 14 = c := by
  conv_lhs => rw [word_eq_fields3 w, append_eq_append_iff, append_eq_append_iff, and_assoc]

theorem eq_append6_iff {w : CmdWord} {a : BitVec 4} {b : BitVec 3} {c : BitVec 2} {d : BitVec 5} {e : BitVec 10}
    {f : BitVec 8} : w = a ++ b ++ c ++ d ++ e ++ f ↔ field w 28 4 = a ∧ field w 25 3 = b ∧ field w 23 2 = c ∧
      field w 18 5 = d ∧ field w 8 10 = e ∧ field w 0 8 = f := by
  conv_lhs => rw [word_eq_fields6 w, append_eq_append_iff, append_eq_append_iff, append_eq_append_iff,
    append_eq_append_iff, append_eq_append_iff, and_assoc, and_assoc, and_assoc, and_assoc]

/-! ### The row of a word -/

theorem opcodeOf_eq_some {v : BitVec 4} {op : Opcode} : opcodeOf v = some op ↔ v = op.code := by
  revert v
  cases op <;> decide

theorem mustBeZeroOk_config_iff {w : CmdWord} : mustBeZeroOk .config w = true ↔ field w 8 10 = 0#10 := beq_iff_eq

theorem mustBeZeroOk_permute_iff {w : CmdWord} :
    mustBeZeroOk .permute w = true ↔ field w 23 2 = 0#2 ∧ field w 8 10 = 0#10 := by
  rw [mustBeZeroOk, Bool.and_eq_true, beq_iff_eq, beq_iff_eq]
  rfl

/-- A word selects a row by its opcode and the row's must-be-zero fields (R72, R81). -/
theorem decodeOp_eq_ok_iff {w : CmdWord} {op : Opcode} :
    decodeOp w = .ok op ↔ field w 28 4 = op.code ∧ mustBeZeroOk op w = true := by
  rw [← opcodeOf_eq_some, decodeOp]
  cases opcodeOf (field w 28 4) with
  | none => simp
  | some op' =>
    simp only [Option.some.injEq]
    constructor
    · intro h
      split at h
      next hz => cases h; exact ⟨rfl, hz⟩
      next => cases h
    · rintro ⟨rfl, hz⟩
      rw [if_pos hz]

/-- The instruction a row reads from a command (R73 to R77). -/
def instrOf (c : Command) : Opcode → Instr
  | .config => .config (field c.word 25 3) (domOf (field c.word 23 2)) (field c.word 18 5) (field c.word 0 8)
  | .absorb => .absorb c.payload
  | .finish => .finish
  | .squeeze => .squeeze (field c.word 0 28)
  | .reset => .reset
  | .drop => .drop
  | .custom => .custom (c.payload.take (field c.word 14 14).toNat) (c.payload.drop (field c.word 14 14).toNat)
  | .permute => .permute (field c.word 25 3) (field c.word 18 5) c.payload
  | .status => .status

theorem decode_eq_map_instrOf (c : Command) : decode c = (decodeOp c.word).map (instrOf c) := by
  rw [decode]
  cases decodeOp c.word with
  | error e => rfl
  | ok op => cases op <;> rfl

theorem decode_of_decodeOp {c : Command} {op : Opcode} (h : decodeOp c.word = .ok op) : decode c = .ok (instrOf c op) := by
  rw [decode_eq_map_instrOf, h]
  rfl

theorem decode_eq_ok {c : Command} {i : Instr} (h : decode c = .ok i) :
    ∃ op, decodeOp c.word = .ok op ∧ instrOf c op = i := by
  rw [decode_eq_map_instrOf] at h
  cases hrow : decodeOp c.word with
  | error e => rw [hrow] at h; cases h
  | ok op => rw [hrow] at h; cases h; exact ⟨op, rfl, rfl⟩

/-! ### The formats -/

theorem encodeWord_config (var : BitVec 3) (dom : Dom) (rounds : BitVec 5) (rate : BitVec 8) :
    encodeWord (.config var dom rounds rate) = Opcode.code .config ++ var ++ dom.code ++ rounds ++ 0#10 ++ rate := rfl

theorem encodeWord_absorb (data : List Byte) :
    encodeWord (.absorb data) = Opcode.code .absorb ++ BitVec.ofNat 28 data.length := rfl

theorem encodeWord_squeeze (len : BitVec 28) : encodeWord (.squeeze len) = Opcode.code .squeeze ++ len := rfl

theorem encodeWord_custom (name cust : List Byte) : encodeWord (.custom name cust) =
    Opcode.code .custom ++ BitVec.ofNat 14 name.length ++ BitVec.ofNat 14 cust.length := rfl

theorem encodeWord_permute (var : BitVec 3) (rounds : BitVec 5) (input : List Byte) :
    encodeWord (.permute var rounds input) =
      Opcode.code .permute ++ var ++ 0#2 ++ rounds ++ 0#10 ++ BitVec.ofNat 8 input.length := rfl

/-! ### The codes of dom -/

theorem domOf_code (d : Dom) : domOf d.code = d := by cases d <;> rfl

theorem code_domOf (v : BitVec 2) : (domOf v).code = v := by
  revert v
  decide

end Sys2Proof
end

