-- ==== Sys2Proof/Proofs/RoundTrip.lean ====
section
/-! Proofs: encoding and decoding undo each other (R72 to R78). -/

namespace Sys2Proof

open Laws.SizedPayload (rowOf Statement)

/-- The family `SizedPayload`, for every instruction. -/
theorem sizedPayload (i : Instr) : Statement i := by
  cases i with
  | config var dom rounds rate => exact Laws.SizedPayload.config var dom rounds rate
  | absorb data => exact Laws.SizedPayload.absorb data
  | finish => exact Laws.SizedPayload.finish
  | squeeze len => exact Laws.SizedPayload.squeeze len
  | reset => exact Laws.SizedPayload.reset
  | drop => exact Laws.SizedPayload.drop
  | custom name cust => exact Laws.SizedPayload.custom name cust
  | permute var rounds input => exact Laws.SizedPayload.permute var rounds input
  | status => exact Laws.SizedPayload.status

theorem wellFormed_custom_iff {name cust : List Byte} :
    (Instr.custom name cust).wellFormed = true ↔ name.length < 2 ^ 14 ∧ cust.length < 2 ^ 14 := by
  simp [Instr.wellFormed]

/-- The row of an instruction reads the instruction back from its word and payload. -/
theorem instrOf_rowOf {i : Instr} (hi : i.wellFormed = true) {c : Command} (hword : c.word = encodeWord i)
    (hpayload : c.payload = payloadOf i) : instrOf c (rowOf i) = i := by
  cases i with
  | config var dom rounds rate =>
    rw [encodeWord_config, eq_append6_iff] at hword
    obtain ⟨-, hvar, hdom, hrounds, -, hrate⟩ := hword
    simp only [rowOf, instrOf, hvar, hdom, domOf_code, hrounds, hrate]
  | absorb data => exact congrArg Instr.absorb hpayload
  | finish => rfl
  | squeeze len =>
    rw [encodeWord_squeeze, eq_append2_iff] at hword
    exact congrArg Instr.squeeze hword.2
  | reset => rfl
  | drop => rfl
  | custom name cust =>
    rw [encodeWord_custom, eq_append3_iff] at hword
    obtain ⟨-, hfield, -⟩ := hword
    have hname : (field c.word 14 14).toNat = name.length := by
      rw [hfield, BitVec.toNat_ofNat, Nat.mod_eq_of_lt (wellFormed_custom_iff.1 hi).1]
    simp only [rowOf, instrOf, hname, hpayload, payloadOf, List.take_left, List.drop_left]
  | permute var rounds input =>
    rw [encodeWord_permute, eq_append6_iff] at hword
    obtain ⟨-, hvar, -, hrounds, -, -⟩ := hword
    simp only [rowOf, instrOf, hvar, hrounds, hpayload, payloadOf]
  | status => rfl

/-- The command of a well-formed instruction. -/
def commandOf (i : Instr) (hi : i.wellFormed = true) : Command := ⟨encodeWord i, payloadOf i, (sizedPayload i hi).2.symm⟩

theorem encode_of_wellFormed {i : Instr} (hi : i.wellFormed = true) : encode i = some (commandOf i hi) := by
  rw [encode, if_pos hi, Command.ofParts, dif_pos (sizedPayload i hi).2.symm]
  rfl

theorem decode_commandOf {i : Instr} (hi : i.wellFormed = true) : decode (commandOf i hi) = .ok i := by
  have hrow : decodeOp (commandOf i hi).word = .ok (rowOf i) := (sizedPayload i hi).1
  rw [decode_of_decodeOp hrow, instrOf_rowOf hi (c := commandOf i hi) rfl rfl]

/-- Settles O1: the word of a well-formed instruction selects its row and declares its payload, and the row reads the
operands back. -/
theorem decodeOfEncodeIsIdentity : Obligations.DecodeOfEncodeIsIdentity := fun i hi =>
  ⟨commandOf i hi, encode_of_wellFormed hi, rfl, rfl, decode_commandOf hi⟩

/-- The payload length a row declares in its word (R78). -/
def rowPayloadLen (w : CmdWord) : Opcode → Nat
  | .absorb => (field w 0 28).toNat
  | .custom => (field w 14 14).toNat + (field w 0 14).toNat
  | .permute => (field w 0 8).toNat
  | .config | .finish | .squeeze | .reset | .drop | .status => 0

theorem payloadLen_of_row {w : CmdWord} {op : Opcode} (h : decodeOp w = .ok op) : payloadLen w = rowPayloadLen w op := by
  simp only [payloadLen, h]
  cases op <;> rfl

theorem payload_length_of_row {c : Command} {op : Opcode} (h : decodeOp c.word = .ok op) :
    c.payload.length = rowPayloadLen c.word op :=
  c.sized.trans (payloadLen_of_row h)

theorem payloadOf_instrOf {c : Command} {op : Opcode} (h : decodeOp c.word = .ok op) :
    payloadOf (instrOf c op) = c.payload := by
  have hlength := payload_length_of_row h
  cases op with
  | absorb => rfl
  | custom => exact List.take_append_drop _ _
  | permute => rfl
  | config | finish | squeeze | reset | drop | status => exact (List.eq_nil_of_length_eq_zero hlength).symm

theorem eq_ofNat_of_eq_toNat {n k : Nat} {v : BitVec n} (h : k = v.toNat) : v = BitVec.ofNat n k := by
  rw [h, BitVec.ofNat_toNat, BitVec.setWidth_eq]

theorem wellFormed_instrOf {c : Command} {op : Opcode} (h : decodeOp c.word = .ok op) :
    (instrOf c op).wellFormed = true := by
  have hlength := payload_length_of_row h
  cases op with
  | absorb => exact decide_eq_true (hlength ▸ (field c.word 0 28).isLt)
  | custom =>
    simp only [rowPayloadLen] at hlength
    have hname := (field c.word 14 14).isLt
    have hcust := (field c.word 0 14).isLt
    rw [instrOf, wellFormed_custom_iff, List.length_take, List.length_drop]
    omega
  | permute => exact decide_eq_true (hlength ▸ (field c.word 0 8).isLt)
  | config | finish | squeeze | reset | drop | status => rfl

theorem encodeWord_instrOf {c : Command} {op : Opcode} (h : decodeOp c.word = .ok op) :
    encodeWord (instrOf c op) = c.word := by
  obtain ⟨hcode, hzero⟩ := decodeOp_eq_ok_iff.1 h
  have hlength := payload_length_of_row h
  symm
  cases op with
  | config =>
    rw [instrOf, encodeWord_config, eq_append6_iff, code_domOf]
    exact ⟨hcode, rfl, rfl, rfl, mustBeZeroOk_config_iff.1 hzero, rfl⟩
  | absorb =>
    rw [instrOf, encodeWord_absorb, eq_append2_iff]
    exact ⟨hcode, eq_ofNat_of_eq_toNat hlength⟩
  | squeeze =>
    rw [instrOf, encodeWord_squeeze, eq_append2_iff]
    exact ⟨hcode, rfl⟩
  | custom =>
    simp only [rowPayloadLen] at hlength
    rw [instrOf, encodeWord_custom, eq_append3_iff, List.length_take, List.length_drop]
    exact ⟨hcode, eq_ofNat_of_eq_toNat (by omega), eq_ofNat_of_eq_toNat (by omega)⟩
  | permute =>
    obtain ⟨hhigh, hlow⟩ := mustBeZeroOk_permute_iff.1 hzero
    rw [instrOf, encodeWord_permute, eq_append6_iff]
    exact ⟨hcode, rfl, hhigh, rfl, hlow, eq_ofNat_of_eq_toNat hlength⟩
  | finish | reset | drop | status => exact eq_append2_iff.2 ⟨hcode, eq_of_beq hzero⟩

/-- Settles O2: the row of the word reads a well-formed instruction, whose fields and payload are the command's own. -/
theorem encodeOfDecodeIsIdentity : Obligations.EncodeOfDecodeIsIdentity := by
  intro c i hdecode
  obtain ⟨op, hrow, rfl⟩ := decode_eq_ok hdecode
  refine ⟨wellFormed_instrOf hrow, ?_⟩
  rw [encode, if_pos (wellFormed_instrOf hrow), encodeWord_instrOf hrow, payloadOf_instrOf hrow, Command.ofParts,
    dif_pos c.sized]

end Sys2Proof
end

