-- ==== Sys2Proof/Proofs/DecoderTable.lean ====
section
/-! Proofs: the decoder table (R83). Under a row's mask every field of the word is either whole or cleared, so the masked
word equals the row's match exactly when the whole fields have the row's values. -/

namespace Sys2Proof.Machine

theorem append_and_append_eq_iff {m n : Nat} {a c e : BitVec m} {b d f : BitVec n} :
    (a ++ b) &&& (c ++ d) = e ++ f ↔ a &&& c = e ∧ b &&& d = f := by
  rw [BitVec.and_append, append_eq_append_iff]

/-- The formats L, U and N: the opcode and the other 28 bits. -/
theorem and_append2_eq_iff {w : CmdWord} {m a : BitVec 4} {n b : BitVec 28} :
    w &&& (m ++ n) = a ++ b ↔ field w 28 4 &&& m = a ∧ field w 0 28 &&& n = b := by
  conv_lhs => rw [word_eq_fields2 w, append_and_append_eq_iff]

/-- The formats C and P. -/
theorem and_append6_eq_iff {w : CmdWord} {m a : BitVec 4} {n b : BitVec 3} {o c : BitVec 2} {p d : BitVec 5}
    {q e : BitVec 10} {r f : BitVec 8} :
    w &&& (m ++ n ++ o ++ p ++ q ++ r) = a ++ b ++ c ++ d ++ e ++ f ↔
      field w 28 4 &&& m = a ∧ field w 25 3 &&& n = b ∧ field w 23 2 &&& o = c ∧ field w 18 5 &&& p = d ∧
        field w 8 10 &&& q = e ∧ field w 0 8 &&& r = f := by
  conv_lhs => rw [word_eq_fields6 w, append_and_append_eq_iff, append_and_append_eq_iff, append_and_append_eq_iff,
    append_and_append_eq_iff, append_and_append_eq_iff, and_assoc, and_assoc, and_assoc, and_assoc]

theorem rowMatch_eq_append (op : Opcode) : rowMatch op = op.code ++ 0#28 := by cases op <;> rfl

theorem masked_eq_match_iff_of_opcodeMask {op : Opcode} (h : rowMask op = BitVec.allOnes 4 ++ 0#28) (w : CmdWord) :
    w &&& rowMask op = rowMatch op ↔ field w 28 4 = op.code := by
  rw [h, rowMatch_eq_append, and_append2_eq_iff, BitVec.and_allOnes]
  exact and_iff_left BitVec.and_zero

theorem masked_eq_match_iff_of_fullMask {op : Opcode} (h : rowMask op = BitVec.allOnes 4 ++ BitVec.allOnes 28)
    (w : CmdWord) : w &&& rowMask op = rowMatch op ↔ field w 28 4 = op.code ∧ field w 0 28 = 0#28 := by
  rw [h, rowMatch_eq_append, and_append2_eq_iff, BitVec.and_allOnes, BitVec.and_allOnes]

/-- A row's mask is all ones on the opcode and on the row's must-be-zero fields, and 0 elsewhere. -/
theorem masked_eq_match_iff (w : CmdWord) (op : Opcode) :
    w &&& rowMask op = rowMatch op ↔ field w 28 4 = op.code ∧ mustBeZeroOk op w = true := by
  cases op with
  | config =>
    have hmask : rowMask .config = BitVec.allOnes 4 ++ 0#3 ++ 0#2 ++ 0#5 ++ BitVec.allOnes 10 ++ 0#8 := rfl
    have hmatch : rowMatch .config = Opcode.code .config ++ 0#3 ++ 0#2 ++ 0#5 ++ 0#10 ++ 0#8 := rfl
    rw [hmask, hmatch, and_append6_eq_iff]
    simp only [BitVec.and_allOnes, BitVec.and_zero, true_and, and_true, mustBeZeroOk_config_iff]
  | permute =>
    have hmask : rowMask .permute =
        BitVec.allOnes 4 ++ 0#3 ++ BitVec.allOnes 2 ++ 0#5 ++ BitVec.allOnes 10 ++ 0#8 := rfl
    have hmatch : rowMatch .permute = Opcode.code .permute ++ 0#3 ++ 0#2 ++ 0#5 ++ 0#10 ++ 0#8 := rfl
    rw [hmask, hmatch, and_append6_eq_iff]
    simp only [BitVec.and_allOnes, BitVec.and_zero, true_and, and_true, mustBeZeroOk_permute_iff]
  | absorb | squeeze | custom => exact (masked_eq_match_iff_of_opcodeMask rfl w).trans (and_iff_left rfl).symm
  | finish | reset | drop | status =>
    exact (masked_eq_match_iff_of_fullMask rfl w).trans (and_congr_right' beq_iff_eq.symm)

/-- Settles O3: a row's mask selects its must-be-zero fields and the opcode, which names one row at most. -/
theorem rowsSelectByMatchAndMask : Obligations.RowsSelectByMatchAndMask := by
  have hselects : ∀ (w : CmdWord) (op : Opcode), decodeOp w = .ok op ↔ w &&& rowMask op = rowMatch op :=
    fun w op => decodeOp_eq_ok_iff.trans (masked_eq_match_iff w op).symm
  refine ⟨hselects, ?disjoint, ?illegal⟩
  case disjoint =>
    intro w a b ha hb
    exact Except.ok.inj (((hselects w a).2 ha).symm.trans ((hselects w b).2 hb))
  case illegal =>
    intro w
    simp only [ne_eq, ← hselects]
    cases decodeOp w with
    | ok op => simp
    | error e => simp

end Sys2Proof.Machine
end

