-- ==== Sys2Proof/Proofs/Responses.lean ====
section
/-! Proofs: what a command that answers leaves of the response and of the host's list, in one inversion for all commands:
it failed with an error and no output, or it completed with the output its row of R79 says. -/

namespace Sys2Proof.Machine

/-- The state size of the variant a `var` field names (R8). No command with the codes 5 to 7 completes, so what they give
here is never used. -/
def outputNb (var : BitVec 3) : Nat :=
  if var = 0 then 200 else if var = 1 then 100 else if var = 2 then 50 else if var = 3 then 25 else 40

theorem outputNb_code (v : Variant) : outputNb v.code = v.nb := by cases v <;> rfl

/-- The number of output bytes of a command that completes (R79). -/
def outputLen : Instr → Nat
  | .squeeze len => len.toNat
  | .permute var _ _ => outputNb var
  | .status => 4
  | .config _ _ _ _ | .absorb _ | .finish | .reset | .drop | .custom _ _ => 0

/-- The state a command can leave when it answers: an error was raised, or the command completed, on a state with the
host's list as before. `STATUS` raises none (R178). -/
inductive Answered (i : Instr) (s : State) : State → Prop where
  | raised (st : Status) (herr : st ≠ .ok) (hi : i ≠ .status) : Answered i s (s.raise st)
  | completed (u : State) (out : List Byte) (hpending : u.pending = s.pending) (hlen : out.length = outputLen i) :
      Answered i s (u.respond .ok out)

/-- Every command that gives a next state has answered in one of the two ways. -/
theorem exec_answered {i : Instr} {s t : State} (h : exec i s = .next t) : Answered i s t := by
  cases i with
  | config var dom rounds rate =>
    obtain ⟨-, rfl⟩ | ⟨-, rfl, -⟩ | ⟨-, v, -, -, rfl⟩ := execConfig_next h
    · exact .raised _ nofun nofun
    · exact .raised _ nofun nofun
    · exact .completed _ _ rfl rfl
  | absorb data =>
    obtain ⟨-, rfl⟩ | ⟨-, -, rfl⟩ | ⟨-, -, -, -, rfl⟩ | ⟨-, -, -, -, -, rfl⟩ | ⟨-, -, -, -, -, k, -, -, rfl⟩ :=
      execAbsorb_next h
    · exact .raised _ nofun nofun
    · exact .raised _ nofun nofun
    · exact .completed _ _ rfl rfl
    · exact .completed _ _ rfl rfl
    · exact .completed _ _ rfl rfl
  | finish =>
    obtain ⟨-, rfl⟩ | ⟨-, -, rfl⟩ | ⟨-, -, -, -, rfl⟩ | ⟨-, -, -, -, k, -, -, rfl⟩ := execFinish_next h
    · exact .raised _ nofun nofun
    · exact .raised _ nofun nofun
    · exact .completed _ _ rfl rfl
    · exact .completed _ _ rfl rfl
  | squeeze len =>
    obtain ⟨-, rfl⟩ | ⟨-, -, rfl⟩ | ⟨-, -, -, rfl⟩ := execSqueeze_next h
    · exact .raised _ nofun nofun
    · exact .raised _ nofun nofun
    · exact .completed _ _ rfl (squeezeBytes_length _ _)
  | reset =>
    obtain ⟨-, rfl⟩ | ⟨-, -, rfl⟩ | ⟨-, -, rfl⟩ := execReset_next h
    · exact .raised _ nofun nofun
    · exact .raised _ nofun nofun
    · exact .completed _ _ rfl rfl
  | drop =>
    cases h
    exact .completed _ _ rfl rfl
  | custom name cust =>
    obtain ⟨-, rfl⟩ | ⟨-, -, rfl⟩ | ⟨-, -, -, rfl⟩ | ⟨-, -, -, rfl⟩ := execCustom_next h
    · exact .raised _ nofun nofun
    · exact .raised _ nofun nofun
    · exact .completed _ _ rfl rfl
    · exact .completed _ _ rfl rfl
  | permute var rounds input =>
    obtain ⟨-, rfl⟩ | ⟨-, rfl⟩ | ⟨-, rfl⟩ | ⟨-, v, rfl, -, -, rfl⟩ := execPermute_next h
    · exact .raised _ nofun nofun
    · exact .raised _ nofun nofun
    · exact .raised _ nofun nofun
    · exact .completed _ _ rfl ((permuteOutput_length _ _ _ _).trans (outputNb_code v).symm)
  | status =>
    cases h
    exact .completed _ _ rfl rfl

theorem Answered.pending_eq {i : Instr} {s t : State} (h : Answered i s t) : t.pending = s.pending := by
  cases h with
  | raised st herr hi => rfl
  | completed u out hpending hlen => exact hpending

theorem runCommand_pending {c : Command} {s t : State} (h : runCommand c s = .next t) : t.pending = s.pending := by
  cases hdecode : decode c with
  | ok i =>
    rw [runCommand_of_decode_ok hdecode] at h
    exact (exec_answered h).pending_eq
  | error e =>
    rw [runCommand_of_decode_error hdecode] at h
    cases h
    rfl

/-- Settles O5: the fields of the rows as numbers, the payload by construction, and the step, which takes the command off
and then runs it without touching the list. -/
theorem payloadLengthOfWord : Obligations.PayloadLengthOfWord := by
  refine ⟨?length, Command.sized, ?consumed⟩
  case length =>
    intro w
    cases hrow : decodeOp w with
    | error e => simp only [payloadLen, hrow]
    | ok op =>
      rw [payloadLen_of_row hrow]
      cases op with
      | absorb | custom | permute => simp only [rowPayloadLen, toNat_field, pow_zero, Nat.div_one]
      | config | finish | squeeze | reset | drop | status => rfl
  case consumed =>
    intro c s t rest hpending hstep
    rw [step_of_pending_cons hpending, runEvent_command] at hstep
    exact runCommand_pending hstep

/-- Settles O6: an error has no output, a completed command the output of its row; an illegal word raises an error. -/
theorem outputLengthOfCommand : Obligations.OutputLengthOfCommand := by
  constructor
  · intro i s t h
    cases exec_answered h with
    | raised st herr hi =>
      exact ⟨⟨st, []⟩, rfl, fun _ => rfl, fun hstatus => absurd hstatus hi, fun hok => absurd hok herr⟩
    | completed u out hpending hlen =>
      refine ⟨⟨.ok, out⟩, rfl, fun hne => absurd rfl hne, fun _ => rfl, fun _ => hlen.trans ?_⟩
      cases i <;> rfl
  · intro c e s t hdecode h
    rw [runCommand_of_decode_error hdecode] at h
    cases h
    exact ⟨⟨.errIllegal, []⟩, rfl, nofun, rfl⟩

end Sys2Proof.Machine
end

