-- ==== Sys2Proof/Proofs/WordFormulas.lean ====
section
/-! Proofs: the words as the OR of the opcode and the shifted fields (R85), and the written words of R84. Fields laid side
by side are the fields widened to the word, each shifted past those after it. -/

namespace Sys2Proof.Machine

/-- The formats L and N. -/
theorem append2_eq_or (a : BitVec 4) (b : BitVec 28) : a ++ b = a.setWidth 32 <<< 28 ||| b.setWidth 32 :=
  (BitVec.setWidth_eq (a ++ b)).symm.trans BitVec.setWidth_append_eq_shiftLeft_setWidth_or

/-- The format U. -/
theorem append3_eq_or (a : BitVec 4) (b c : BitVec 14) :
    a ++ b ++ c = a.setWidth 32 <<< 28 ||| b.setWidth 32 <<< 14 ||| c.setWidth 32 :=
  (BitVec.setWidth_eq (a ++ b ++ c)).symm.trans BitVec.setWidth_append_append_eq_shiftLeft_setWidth_or

/-- The formats C and P, whose bits 17 to 8 are zero. -/
theorem append6_eq_or (a : BitVec 4) (b : BitVec 3) (c : BitVec 2) (d : BitVec 5) (f : BitVec 8) :
    a ++ b ++ c ++ d ++ 0#10 ++ f = a.setWidth 32 <<< 28 ||| b.setWidth 32 <<< 25 ||| c.setWidth 32 <<< 23 |||
      d.setWidth 32 <<< 18 ||| f.setWidth 32 := by
  rw [← BitVec.setWidth_eq (a ++ b ++ c ++ d ++ 0#10 ++ f)]
  simp only [BitVec.setWidth_append_eq_shiftLeft_setWidth_or, BitVec.shiftLeft_or_distrib, ← BitVec.shiftLeft_add,
    BitVec.setWidth_zero, BitVec.or_zero]

/-- The opcode in its place is the row's match (R83). -/
theorem code_shiftLeft_eq_rowMatch (op : Opcode) : op.code.setWidth 32 <<< 28 = rowMatch op := by cases op <;> rfl

theorem encodeWord_config_eq_or (var : BitVec 3) (dom : Dom) (rounds : BitVec 5) (rate : BitVec 8) :
    encodeWord (.config var dom rounds rate) = rowMatch .config ||| var.setWidth 32 <<< 25 |||
      dom.code.setWidth 32 <<< 23 ||| rounds.setWidth 32 <<< 18 ||| rate.setWidth 32 := by
  rw [encodeWord_config, append6_eq_or, code_shiftLeft_eq_rowMatch]

theorem encodeWord_absorb_eq_or {data : List Byte} (h : data.length < 2 ^ 28) :
    encodeWord (.absorb data) = rowMatch .absorb ||| BitVec.ofNat 32 data.length := by
  rw [encodeWord_absorb, append2_eq_or, code_shiftLeft_eq_rowMatch,
    BitVec.setWidth_ofNat_of_le_of_lt (v := 32) (by decide) h]

theorem encodeWord_squeeze_eq_or (len : BitVec 28) :
    encodeWord (.squeeze len) = rowMatch .squeeze ||| len.setWidth 32 := by
  rw [encodeWord_squeeze, append2_eq_or, code_shiftLeft_eq_rowMatch]

theorem encodeWord_custom_eq_or {name cust : List Byte} (hname : name.length < 2 ^ 14) (hcust : cust.length < 2 ^ 14) :
    encodeWord (.custom name cust) =
      rowMatch .custom ||| BitVec.ofNat 32 name.length <<< 14 ||| BitVec.ofNat 32 cust.length := by
  rw [encodeWord_custom, append3_eq_or, code_shiftLeft_eq_rowMatch,
    BitVec.setWidth_ofNat_of_le_of_lt (v := 32) (by decide) hname,
    BitVec.setWidth_ofNat_of_le_of_lt (v := 32) (by decide) hcust]

theorem encodeWord_permute_eq_or (var : BitVec 3) (rounds : BitVec 5) {input : List Byte} (h : input.length < 2 ^ 8) :
    encodeWord (.permute var rounds input) = rowMatch .permute ||| var.setWidth 32 <<< 25 |||
      rounds.setWidth 32 <<< 18 ||| BitVec.ofNat 32 input.length := by
  rw [encodeWord_permute, append6_eq_or, code_shiftLeft_eq_rowMatch,
    BitVec.setWidth_ofNat_of_le_of_lt (v := 32) (by decide) h,
    BitVec.setWidth_zero, BitVec.zero_shiftLeft, BitVec.or_zero]

/-- Settles O7: one formula per format, with the row's match for the opcode; the worked words by evaluation. -/
theorem wordAssemblyFormulas : Obligations.WordAssemblyFormulas :=
  ⟨encodeWord_config_eq_or, fun _ => encodeWord_absorb_eq_or, rfl, encodeWord_squeeze_eq_or, rfl, rfl,
    fun _ _ => encodeWord_custom_eq_or, fun var rounds _ => encodeWord_permute_eq_or var rounds, rfl, rfl, rfl, rfl⟩

/-- Settles O8: the decoder evaluates on each of the ten words. -/
theorem writtenWordsDecode : Obligations.WrittenWordsDecode :=
  ⟨rfl, rfl, rfl, rfl, rfl, rfl, rfl, rfl, rfl, rfl⟩

end Sys2Proof.Machine
end

