-- ==== Sys2Proof/Proofs/Rotations.lean ====
section
/-! Proofs: rotations of a `w`-bit lane (R13, R112), for every width and every distance. All follow from where one bit
goes. -/

namespace Sys2Proof.Machine

/-- A rotation to the left by `n` moves bit `z` to bit `z + n`, modulo the width. -/
theorem getLsbD_rotateLeft_add_mod {w : Nat} (x : BitVec w) (n : Nat) {z : Nat} (hz : z < w) :
    (x.rotateLeft n).getLsbD ((z + n) % w) = x.getLsbD z := by
  have hn : n % w < w := Nat.mod_lt _ (by omega)
  rw [← Nat.add_mod_mod, BitVec.getLsbD_rotateLeft]
  rcases Nat.lt_or_ge (z + n % w) w with hstays | hwraps
  · rw [Nat.mod_eq_of_lt hstays]
    simp [hstays]
  · have hplace : (z + n % w) % w = z + n % w - w := by
      rw [Nat.mod_eq_sub_mod hwraps, Nat.mod_eq_of_lt (by omega)]
    have hsource : w - n % w + (z + n % w - w) = z := by omega
    rw [hplace, decide_eq_true (by omega), cond_true, hsource]

/-- The places a rotation by `n` moves bits to are all the places. -/
theorem eq_of_getLsbD_add_mod {w : Nat} {x y : BitVec w} (n : Nat)
    (h : ∀ z, z < w → x.getLsbD ((z + n) % w) = y.getLsbD ((z + n) % w)) : x = y := by
  apply BitVec.eq_of_getLsbD_eq
  intro i hi
  have hn : n % w < w := Nat.mod_lt _ (by omega)
  have hplace : ((i + (w - n % w)) % w + n) % w = i := by
    rw [Nat.mod_add_mod, ← Nat.add_mod_mod, Nat.add_assoc, Nat.sub_add_cancel hn.le, Nat.add_mod_right,
      Nat.mod_eq_of_lt hi]
  simpa only [hplace] using h ((i + (w - n % w)) % w) (Nat.mod_lt _ (by omega))

theorem rotateLeft_xor {w : Nat} (x y : BitVec w) (n : Nat) :
    (x ^^^ y).rotateLeft n = x.rotateLeft n ^^^ y.rotateLeft n := by
  refine eq_of_getLsbD_add_mod n fun z hz => ?_
  simp only [BitVec.getLsbD_xor, getLsbD_rotateLeft_add_mod _ _ hz]

theorem rotateLeft_rotateLeft {w : Nat} (x : BitVec w) (m n : Nat) :
    (x.rotateLeft m).rotateLeft n = x.rotateLeft (m + n) := by
  refine eq_of_getLsbD_add_mod (m + n) fun z hz => ?_
  rw [getLsbD_rotateLeft_add_mod x _ hz, ← Nat.add_assoc, ← Nat.mod_add_mod,
    getLsbD_rotateLeft_add_mod _ _ (Nat.mod_lt _ (by omega)), getLsbD_rotateLeft_add_mod x _ hz]

theorem rotateLeft_width {w : Nat} (x : BitVec w) : x.rotateLeft w = x := by
  refine eq_of_getLsbD_add_mod w fun z hz => ?_
  rw [getLsbD_rotateLeft_add_mod x _ hz, Nat.add_mod_right, Nat.mod_eq_of_lt hz]

theorem rotateLeft_injective {w : Nat} (n : Nat) : Function.Injective fun x : BitVec w => x.rotateLeft n := by
  intro x y hxy
  apply BitVec.eq_of_getLsbD_eq
  intro z hz
  calc x.getLsbD z = (x.rotateLeft n).getLsbD ((z + n) % w) := (getLsbD_rotateLeft_add_mod x n hz).symm
    _ = (y.rotateLeft n).getLsbD ((z + n) % w) := congrArg (fun a => a.getLsbD ((z + n) % w)) hxy
    _ = y.getLsbD z := getLsbD_rotateLeft_add_mod y n hz

end Sys2Proof.Machine
end

