-- ==== Sys2Proof/Proofs/KeccakSteps.lean ====
section
/-! Proofs: what each of the five steps of a Keccak round leaves in a lane (R104 to R108), the schedule of a call (R102),
and the tables (R109 to R111). -/

namespace Sys2Proof.Machine

/-! ### Lanes by coordinates -/

theorem lane_mod_left {w : Nat} (A : Lanes w) (x y : Nat) : lane A (x % 5) y = lane A x y :=
  lane_congr A (Nat.mod_mod x 5) rfl

/-- The entry of the vector at a lane's coordinates is the lane (R101). -/
theorem getElem?_coordinates {w : Nat} (A : Lanes w) (x y : Nat) : A[x % 5 + 5 * (y % 5)]? = some (lane A x y) :=
  Vector.getElem?_eq_getElem (by omega)

theorem getElem?_eq_lane {w i : Nat} (A : Lanes w) (h : i < 25) : A[i]? = some (lane A (i % 5) (i / 5)) := by
  rw [lane_mul_five A i h, Vector.getElem?_eq_getElem h]

theorem columnParity_congr {w : Nat} (A : Lanes w) {i j : Nat} (h : i % 5 = j % 5) :
    columnParity A i = columnParity A j := by
  simp only [columnParity, lane_congr A h rfl]

/-! ### Theta -/

@[simp] theorem lane_theta {w : Nat} (A : Lanes w) (x y : Nat) : lane (theta A) x y =
    lane A x y ^^^ (columnParity A (x + 4) ^^^ (columnParity A (x + 1)).rotateLeft 1) := by
  simp only [theta, lane_lanesOf, lane_mod, getElem_tabulate, Nat.mod_mod, thetaEffect]
  rw [columnParity_congr A (Nat.mod_add_mod x 5 4), columnParity_congr A (Nat.mod_add_mod x 5 1)]

/-- Settles O21: bit `z` of a lane rotated by one is bit `z - 1` of the lane. -/
theorem thetaAddsTwoColumnParities : Obligations.ThetaAddsTwoColumnParities := by
  intro w A x y z hx hy hz bit parity
  have hparity (x z : Nat) : (columnParity A x).getLsbD z = parity (x % 5) z := by
    simp only [columnParity, BitVec.getLsbD_xor, parity, bit, lane_mod_left]
  have hplace : ((z + (w - 1)) % w + 1) % w = z := by
    rw [Nat.mod_add_mod, Nat.add_assoc, Nat.sub_add_cancel (by omega), Nat.add_mod_right, Nat.mod_eq_of_lt hz]
  have hrotated : ((columnParity A (x + 1)).rotateLeft 1).getLsbD z =
      (columnParity A (x + 1)).getLsbD ((z + (w - 1)) % w) := by
    rw [← getLsbD_rotateLeft_add_mod _ 1 (Nat.mod_lt _ (by omega)), hplace]
  rw [lane_theta, BitVec.getLsbD_xor, BitVec.getLsbD_xor, hrotated, hparity, hparity]

/-! ### Rho -/

@[simp] theorem lane_rho {w : Nat} (A : Lanes w) (x y : Nat) :
    lane (rho A) x y = (lane A x y).rotateLeft (rhoOffset x y % w) := by
  simp [rho, rhoOffset]

/-- Settles O22: the model's table is the one of the rule, and the rotation moves bit `z` on by its entry. -/
theorem rhoRotatesByTheTable : Obligations.RhoRotatesByTheTable := by
  unfold Obligations.RhoRotatesByTheTable
  extract_lets offsets
  intro w A x y z hx hy hz
  have htable : ∀ x < 5, ∀ y < 5, offsets[x + 5 * y]?.getD 0 = rhoOffset x y := by decide
  rw [htable x hx y hy, lane_rho, ← Nat.add_mod_mod, getLsbD_rotateLeft_add_mod _ _ hz]

/-! ### Pi -/

/-- The lane that arrives at `(x, y)` (R106). -/
@[simp] theorem lane_pi {w : Nat} (A : Lanes w) (x y : Nat) : lane (pi A) x y = lane A (x + 3 * y) x := by
  rw [pi, lane_lanesOf]
  exact lane_congr A (by omega) (by omega)

/-- Where the lane at `(x, y)` moves to (R106). -/
theorem lane_pi_moved {w : Nat} (A : Lanes w) (x y : Nat) : lane (pi A) y (2 * x + 3 * y) = lane A x y := by
  rw [lane_pi]
  exact lane_congr A (by omega) rfl

/-- Settles O23: the two tables are the two formulas on lane indices, entry by entry. -/
theorem piMovesLanesByTheTable : Obligations.PiMovesLanesByTheTable := by
  unfold Obligations.PiMovesLanesByTheTable
  extract_lets destination source
  intro w A
  refine ⟨fun x y _ _ => lane_pi_moved A x y, ?destination, ?source⟩
  case destination =>
    intro i hi
    have htable : ∀ i < 25, destination[i]?.getD 0 = i / 5 % 5 + 5 * ((2 * (i % 5) + 3 * (i / 5)) % 5) := by decide
    rw [htable i hi, getElem?_coordinates, lane_pi_moved, getElem?_eq_lane A hi]
  case source =>
    intro j hj
    have htable : ∀ j < 25, source[j]?.getD 0 = (j % 5 + 3 * (j / 5)) % 5 + 5 * (j % 5 % 5) := by decide
    rw [htable j hj, getElem?_coordinates, getElem?_eq_lane _ hj, lane_pi]

/-! ### Chi and Iota -/

@[simp] theorem lane_chi {w : Nat} (A : Lanes w) (x y : Nat) :
    lane (chi A) x y = lane A x y ^^^ (~~~lane A (x + 1) y &&& lane A (x + 2) y) := by
  rw [chi, lane_lanesOf, lane_mod, lane_congr A (Nat.mod_add_mod x 5 1) (Nat.mod_mod y 5),
    lane_congr A (Nat.mod_add_mod x 5 2) (Nat.mod_mod y 5)]

theorem getLsbD_lane_chi {w : Nat} (A : Lanes w) (x y : Nat) {z : Nat} (hz : z < w) : (lane (chi A) x y).getLsbD z =
    ((lane A x y).getLsbD z ^^ (!(lane A (x + 1) y).getLsbD z && (lane A (x + 2) y).getLsbD z)) := by
  simp [hz]

theorem lane_iota_zero {w : Nat} (ir : Nat) (A : Lanes w) :
    lane (iota ir A) 0 0 = lane A 0 0 ^^^ roundConstant w ir := by
  simp [iota, lane]

theorem lane_iota_of_ne {w : Nat} (ir : Nat) (A : Lanes w) {x y : Nat} (hx : x < 5) (hy : y < 5) (h : (x, y) ≠ (0, 0)) :
    lane (iota ir A) x y = lane A x y := by
  have hindex : ¬ (0 = x % 5 + 5 * (y % 5)) := by
    rw [ne_eq, Prod.mk.injEq] at h
    omega
  simp [iota, lane, hindex]

/-- Settles O24: Chi by its lanes, and Iota with the constants of the rule, which are those of the model's table. -/
theorem chiAndIotaLanes : Obligations.ChiAndIotaLanes := by
  unfold Obligations.ChiAndIotaLanes
  extract_lets constants
  intro w A
  refine ⟨?chi, ?iotaZero, fun ir x y hx hy hne => lane_iota_of_ne ir A hx hy hne⟩
  case chi =>
    intro x y z hx hy hz
    rw [getLsbD_lane_chi A x y hz, lane_mod_left, lane_mod_left]
  case iotaZero =>
    intro ir hw hir
    have htable : ∀ ir < 24, (rcTable.lookup ir).getD 0 = BitVec.ofNat 64 ((constants.lookup ir).getD 0) := by decide
    rw [lane_iota_zero, roundConstant, htable ir hir, BitVec.setWidth_ofNat_of_le hw]

/-! ### The schedule and the tables -/

theorem keccakP_zero {w : Nat} (nr : Nat) (A : Lanes w) : keccakP nr 0 A = A := rfl

/-- The round that one more round adds runs first (R102). -/
theorem keccakP_succ {w nr rounds : Nat} (h : rounds < nr) (A : Lanes w) :
    keccakP nr (rounds + 1) A = keccakP nr rounds (keccakRound (nr - (rounds + 1)) A) := by
  have hnext : nr - (rounds + 1) + 1 = nr - rounds := by omega
  rw [keccakP, List.range'_succ, hnext, List.foldl_cons, keccakP]

/-- Settles O19: the two equations of the schedule, and a round by its definition. -/
theorem keccakRunsTheLastRounds : Obligations.KeccakRunsTheLastRounds :=
  fun _ _ _ _ A => ⟨keccakP_zero _ A, fun h => keccakP_succ h A, rfl⟩

/-- Settles O25: four tables of offsets, three of constants, and the feedback register, each by evaluation. -/
theorem constantTables : Obligations.ConstantTables :=
  ⟨by decide, by decide, by decide, by decide, by decide, by decide, by decide, by decide⟩

end Sys2Proof.Machine
end

