-- ==== Sys2Proof/Proofs/KeccakBijection.lean ====
section
/-! Proofs: the Keccak permutation is a bijection (R100). Each step of a round is injective, and there are finitely many
states. Theta is the hard one: its `w`-th power, for `w` a power of two, adds columns without a rotation, and the third
power of that is the identity. -/

namespace Sys2Proof.Machine

/-! ### The parities that Theta and its powers add -/

theorem xor_xor_cancel_left {w : Nat} (a b : BitVec w) : a ^^^ (a ^^^ b) = b := by
  rw [← BitVec.xor_assoc, BitVec.xor_self, BitVec.zero_xor]

theorem xor_xor_cancel_right {w : Nat} (a b : BitVec w) : a ^^^ b ^^^ b = a := by
  rw [BitVec.xor_assoc, BitVec.xor_self, BitVec.xor_zero]

/-- What the columns `x - m` and `x + m` add to column `x`, the latter rotated by `m`; Theta has `m = 1` (R104). -/
def columnEffect {w : Nat} (m : Nat) (C : Nat → BitVec w) (x : Nat) : BitVec w :=
  C (x + 4 * m) ^^^ (C (x + m)).rotateLeft m

theorem columnEffect_xor {w : Nat} (m : Nat) (C D : Nat → BitVec w) (x : Nat) :
    columnEffect m (fun x => C x ^^^ D x) x = columnEffect m C x ^^^ columnEffect m D x := by
  simp only [columnEffect, rotateLeft_xor]
  ac_rfl

section
variable {w : Nat} {C : Nat → BitVec w} (hC : ∀ {i j : Nat}, i % 5 = j % 5 → C i = C j)
include hC

theorem columnEffect_congr (m : Nat) {i j : Nat} (h : i % 5 = j % 5) : columnEffect m C i = columnEffect m C j := by
  rw [columnEffect, columnEffect, hC (i := i + 4 * m) (j := j + 4 * m) (by omega),
    hC (i := i + m) (j := j + m) (by omega)]

/-- Squaring doubles the distance: the two mixed terms are equal and cancel. -/
theorem columnEffect_columnEffect (m x : Nat) : columnEffect m (columnEffect m C) x = columnEffect (2 * m) C x := by
  have hmixed : C (x + 4 * m + m) = C (x + m + 4 * m) := hC (by omega)
  have hbefore : C (x + 4 * m + 4 * m) = C (x + 4 * (2 * m)) := hC (by omega)
  have hafter : C (x + m + m) = C (x + 2 * m) := hC (by omega)
  simp only [columnEffect, rotateLeft_xor, rotateLeft_rotateLeft, hmixed, hbefore, hafter, ← Nat.two_mul]
  rw [BitVec.xor_assoc, xor_xor_cancel_left]

/-- At the distance `w` no rotation is left, and the third power adds what the first and the second add: the distances
`8 + 4`, `8 + 1`, `2 + 4` and `2 + 1` are `2`, `4`, `1` and `8` modulo 5. -/
theorem columnEffect_width_cubed (x : Nat) :
    columnEffect (2 * w) (columnEffect w C) x = columnEffect w C x ^^^ columnEffect (2 * w) C x := by
  have hrotate (a : BitVec w) : a.rotateLeft (2 * w) = a := by
    rw [Nat.two_mul, ← rotateLeft_rotateLeft, rotateLeft_width, rotateLeft_width]
  have hdist2 : C (x + 4 * (2 * w) + 4 * w) = C (x + 2 * w) := hC (by omega)
  have hdist4 : C (x + 4 * (2 * w) + w) = C (x + 4 * w) := hC (by omega)
  have hdist1 : C (x + 2 * w + 4 * w) = C (x + w) := hC (by omega)
  have hdist8 : C (x + 2 * w + w) = C (x + 4 * (2 * w)) := hC (by omega)
  simp only [columnEffect, rotateLeft_width, hrotate, hdist2, hdist4, hdist1, hdist8]
  ac_rfl

end

/-! ### The powers of Theta -/

/-- Theta with the distance `m` in place of 1, between columns and in the rotation. -/
def thetaBy {w : Nat} (m : Nat) (A : Lanes w) : Lanes w :=
  lanesOf fun x y => lane A x y ^^^ columnEffect m (columnParity A) x

@[simp] theorem lane_thetaBy {w : Nat} (m : Nat) (A : Lanes w) (x y : Nat) :
    lane (thetaBy m A) x y = lane A x y ^^^ columnEffect m (columnParity A) x := by
  rw [thetaBy, lane_lanesOf, lane_mod, columnEffect_congr (columnParity_congr A) m (Nat.mod_mod x 5)]

theorem thetaBy_one {w : Nat} : thetaBy (w := w) 1 = theta := by
  funext A
  exact ext_lane fun x y _ _ => by rw [lane_thetaBy, lane_theta, columnEffect]

/-- A column gets the same addition in its five lanes, so its parity gets it once. -/
theorem columnParity_thetaBy {w : Nat} (m : Nat) (A : Lanes w) :
    columnParity (thetaBy m A) = fun x => columnParity A x ^^^ columnEffect m (columnParity A) x := by
  funext x
  have hfive (a b c d e f : BitVec w) :
      (a ^^^ f) ^^^ (b ^^^ f) ^^^ (c ^^^ f) ^^^ (d ^^^ f) ^^^ (e ^^^ f) = (a ^^^ b ^^^ c ^^^ d ^^^ e) ^^^ f := by
    grind
  rw [columnParity]
  simp only [lane_thetaBy]
  exact hfive ..

theorem thetaBy_thetaBy {w : Nat} (m : Nat) (A : Lanes w) : thetaBy m (thetaBy m A) = thetaBy (2 * m) A := by
  refine ext_lane fun x y _ _ => ?_
  rw [lane_thetaBy, lane_thetaBy, lane_thetaBy, columnParity_thetaBy, columnEffect_xor,
    columnEffect_columnEffect (columnParity_congr A), BitVec.xor_assoc, xor_xor_cancel_left]

theorem thetaBy_two_pow {w : Nat} (k : Nat) : thetaBy (w := w) (2 ^ k) = theta^[2 ^ k] := by
  induction k with
  | zero => exact thetaBy_one
  | succ k ih =>
    funext A
    rw [Nat.pow_succ', ← thetaBy_thetaBy, ih, ← Function.iterate_add_apply, Nat.two_mul]

/-- The third power of Theta at the distance `w` is the identity. -/
theorem thetaBy_width_leftInverse {w : Nat} : Function.LeftInverse (thetaBy (w := w) (2 * w)) (thetaBy w) := by
  intro A
  refine ext_lane fun x y _ _ => ?_
  rw [lane_thetaBy, lane_thetaBy, columnParity_thetaBy, columnEffect_xor, columnEffect_width_cubed (columnParity_congr A),
    BitVec.xor_comm (columnEffect w (columnParity A) x), xor_xor_cancel_left, xor_xor_cancel_right]

/-! ### The five steps are injective -/

/-- The `2 ^ k`-th power of Theta is injective, hence so is Theta. -/
theorem theta_injective {w k : Nat} (hw : w = 2 ^ k) : Function.Injective (theta (w := w)) := by
  have hpower : Function.Injective (theta (w := w))^[2 ^ k - 1 + 1] := by
    rw [Nat.sub_add_cancel Nat.one_le_two_pow, ← thetaBy_two_pow, ← hw]
    exact thetaBy_width_leftInverse.injective
  exact Function.Injective.of_comp hpower

theorem rho_injective {w : Nat} : Function.Injective (rho (w := w)) := by
  intro A B hAB
  refine ext_lane fun x y _ _ => rotateLeft_injective (rhoOffset x y % w) ?_
  simpa only [lane_rho] using congrArg (lane · x y) hAB

theorem pi_injective {w : Nat} : Function.Injective (pi (w := w)) := by
  intro A B hAB
  refine ext_lane fun x y _ _ => ?_
  rw [← lane_pi_moved A, hAB, lane_pi_moved]

/-- Bit `z` of the five lanes of row `y` (R101). -/
def row {w : Nat} (A : Lanes w) (y z : Nat) (x : Fin 5) : Bool := (lane A x y).getLsbD z

/-- Chi on the five bits of a row (R107). -/
def chiRow (r : Fin 5 → Bool) (x : Fin 5) : Bool := r x ^^ (!r (x + 1) && r (x + 2))

theorem row_chi {w : Nat} (A : Lanes w) (y : Nat) {z : Nat} (hz : z < w) : row (chi A) y z = chiRow (row A y z) := by
  funext x
  have hnext (k : Fin 5) : lane A (x + k : Fin 5) y = lane A (x + k : Nat) y := lane_mod_left A _ y
  rw [row, getLsbD_lane_chi A x y hz, chiRow, row, row, row, hnext, hnext]
  rfl

/-- A row has 32 values, and Chi takes no two of them to one. -/
theorem chiRow_injective : Function.Injective chiRow := by decide

theorem chi_injective {w : Nat} : Function.Injective (chi (w := w)) := by
  intro A B hAB
  refine ext_lane fun x y hx _ => BitVec.eq_of_getLsbD_eq fun z hz => ?_
  have hrow : row A y z = row B y z := chiRow_injective (by rw [← row_chi A y hz, hAB, row_chi B y hz])
  exact congrFun hrow ⟨x, hx⟩

theorem iota_involutive {w : Nat} (ir : Nat) : Function.Involutive (iota (w := w) ir) := by
  intro A
  refine ext_lane fun x y hx hy => ?_
  by_cases h : (x, y) = (0, 0)
  · cases h
    rw [lane_iota_zero, lane_iota_zero, xor_xor_cancel_right]
  · rw [lane_iota_of_ne ir _ hx hy h, lane_iota_of_ne ir A hx hy h]

/-! ### Rounds and calls -/

theorem keccakRound_injective {w k : Nat} (hw : w = 2 ^ k) (ir : Nat) : Function.Injective (keccakRound (w := w) ir) :=
  (iota_involutive ir).injective.comp <| chi_injective.comp <| pi_injective.comp <| rho_injective.comp <|
    theta_injective hw

theorem keccakRounds_injective {w k : Nat} (hw : w = 2 ^ k) (irs : List Nat) :
    Function.Injective fun A : Lanes w => irs.foldl (fun B ir => keccakRound ir B) A := by
  induction irs with
  | nil => exact Function.injective_id
  | cons ir irs ih => exact ih.comp (keccakRound_injective hw ir)

theorem finite_lanes (w : Nat) : Finite (Lanes w) :=
  Finite.of_injective (fun (A : Lanes w) (i : Fin 25) => A[i]) fun _ _ h => Vector.ext fun i hi => congrFun h ⟨i, hi⟩

theorem Variant.w_eq_two_pow (v : Variant) : ∃ k, v.w = 2 ^ k := by
  cases v with
  | k1600 | ascon => exact ⟨6, rfl⟩
  | k800 => exact ⟨5, rfl⟩
  | k400 => exact ⟨4, rfl⟩
  | k200 => exact ⟨3, rfl⟩

/-- Settles O26: every round is injective, and an injective function on a finite type is a bijection. -/
theorem keccakIsABijection : Obligations.KeccakIsABijection := by
  intro v rounds _
  obtain ⟨k, hw⟩ := Variant.w_eq_two_pow v
  have hfinite : Finite (Lanes v.w) := finite_lanes v.w
  exact Finite.injective_iff_bijective.1 (keccakRounds_injective hw _)

end Sys2Proof.Machine
end

