-- ==== Sys2Proof/Proofs/PermuteCommand.lean ====
section
/-! Proofs: `PERMUTE`, its checks in their order and the bytes it puts out (R120, R250). -/

namespace Sys2Proof.Machine

theorem roundsOk_iff {v : Variant} {rounds : BitVec 5} :
    roundsOk v rounds = true ↔ 1 ≤ rounds.toNat ∧ rounds.toNat ≤ v.nrMax := by
  simp [roundsOk]

theorem exec_permute_of_fault {s : State} (var : BitVec 3) (rounds : BitVec 5) (input : List Byte)
    (hf : s.fault = true) : exec (.permute var rounds input) s = .next (s.raise .errFaulted) :=
  if_pos hf

theorem exec_permute_of_no_variant {s : State} {var : BitVec 3} (rounds : BitVec 5) (input : List Byte)
    (hf : s.fault = false) (hvar : 4 < var.toNat) :
    exec (.permute var rounds input) s = .next (s.raise .errConfig) := by
  simp [exec, execPermute, hf, variantOf_eq_none.2 hvar]

/-- Without the fault and with a variant, the round count is looked at first, then the length. -/
theorem exec_permute_of_variant {s : State} (v : Variant) (rounds : BitVec 5) (input : List Byte)
    (hf : s.fault = false) : exec (.permute v.code rounds input) s =
      if roundsOk v rounds then
        if input.length = v.nb then .next (s.respond .ok (permuteOutput s.params.asconOrder v rounds.toNat input))
        else .next (s.raise .errLength)
      else .next (s.raise .errConfig) := by
  simp [exec, execPermute, hf]

/-- The storage holds the bytes of every variant (R8, log 9). -/
theorem Variant.nb_le (v : Variant) : v.nb ≤ 200 := by cases v <;> decide

theorem permuteBytes_of_ne_ascon (o : ByteOrder) {v : Variant} (hv : v ≠ .ascon) (rounds : Nat) (S : Bytes) :
    permuteBytes o v rounds S = keccakBytes v rounds S := by
  cases v with
  | ascon => exact absurd rfl hv
  | k1600 | k800 | k400 | k200 => rfl

theorem permuteOutput_byte (o : ByteOrder) (v : Variant) (rounds : Nat) (input : List Byte) {i : Nat} (hi : i < v.nb) :
    (permuteOutput o v rounds input)[i]?.getD 0 = memRead (permuteBytes o v rounds (loadBytes input)) i := by
  rw [permuteOutput, List.getElem?_take_of_lt hi, Vector.getElem?_toList, memRead]

/-- Settles O18: each check by its branch, and the output byte by byte in the byte order of the variant's family. -/
theorem permuteRunsItsPayload : Obligations.PermuteRunsItsPayload := by
  refine ⟨⟨rfl, rfl⟩, fun s var rounds input => ⟨?faulted, ?noVariant, ?variant⟩⟩
  case faulted =>
    intro hf
    rw [exec_permute_of_fault var rounds input hf, s.raise_of_ne (by decide)]
  case noVariant =>
    intro hf hvar
    rw [exec_permute_of_no_variant rounds input hf hvar, s.raise_of_ne (by decide)]
  case variant =>
    rintro v hf rfl
    rw [exec_permute_of_variant v rounds input hf]
    refine ⟨?rounds, ?length, ?completes⟩
    case rounds =>
      intro hrounds
      rw [if_neg (by rw [roundsOk_iff]; omega), s.raise_of_ne (by decide)]
    case length =>
      intro hlow hhigh hlen
      rw [if_pos (roundsOk_iff.2 ⟨hlow, hhigh⟩), if_neg hlen, s.raise_of_ne (by decide)]
    case completes =>
      intro hlow hhigh hlen
      rw [if_pos (roundsOk_iff.2 ⟨hlow, hhigh⟩), if_pos hlen]
      have hstored {i : Nat} (hi : i < v.nb) : i < 200 := Nat.lt_of_lt_of_le hi (Variant.nb_le v)
      refine ⟨_, rfl, permuteOutput_length .., fun i hi => memRead_loadBytes input i (hstored hi), ?keccak, ?ascon⟩
      case keccak =>
        intro hv i hi
        rw [permuteOutput_byte _ _ _ _ hi, permuteBytes_of_ne_ascon _ hv, memRead_keccakBytes _ _ hi (hstored hi)]
      case ascon =>
        rintro rfl i hi
        rw [permuteOutput_byte _ _ _ _ hi, permuteBytes, memRead_asconBytes _ _ _ hi]

end Sys2Proof.Machine
end

