-- ==== Sys2Proof/Proofs/AsconLayers.lean ====
section
/-! Proofs: what each of the three layers of an Ascon round does, bit by bit (R134 to R136), and the schedule of a call
(R132). -/

namespace Sys2Proof.Machine

/-! ### Constant addition -/

/-- A byte put into a wider word has no bit from 8 up. -/
theorem setWidth_byte_ushiftRight {w : Nat} (b : Byte) : b.setWidth w >>> 8 = 0#w := by
  refine BitVec.eq_of_getLsbD_eq fun i _ => ?_
  rw [BitVec.getLsbD_ushiftRight, BitVec.getLsbD_setWidth, BitVec.getLsbD_of_ge b _ (by omega), Bool.and_false,
    BitVec.getLsbD_zero]

/-- Settles O30: the model's table is the formula of R134, and an entry of it is one byte. -/
theorem asconConstantAddition : Obligations.AsconConstantAddition := by
  intro X i hi
  have htable : ∀ i < 12, (arcTable[i]?.getD 0).setWidth 64 = BitVec.ofNat 64 (((15 - i) <<< 4) ||| i) := by decide
  constructor
  · rw [addConst, htable i hi]
  · rw [addConst, BitVec.ushiftRight_xor_distrib, setWidth_byte_ushiftRight, BitVec.xor_zero]

/-! ### The S-box layer -/

/-- The published 5-bit table (R135). -/
def sboxTable : List Nat :=
  [0x04, 0x0b, 0x1f, 0x14, 0x1a, 0x15, 0x09, 0x02, 0x1b, 0x05, 0x08, 0x12, 0x1d, 0x03, 0x06, 0x1c,
   0x1e, 0x13, 0x07, 0x0e, 0x00, 0x0d, 0x11, 0x18, 0x10, 0x0c, 0x01, 0x19, 0x16, 0x0a, 0x0f, 0x17]

/-- Five bits as a number, the first the most significant. -/
def fiveBits (b0 b1 b2 b3 b4 : Bool) : Nat := 16 * b0.toNat + 8 * b1.toNat + 4 * b2.toNat + 2 * b3.toNat + b4.toNat

/-- Bit slice `j` of the five words (R131), as an index of the table. -/
def asconSlice (X : AsconWords) (j : Nat) : Nat :=
  fiveBits (X.x0.getLsbD j) (X.x1.getLsbD j) (X.x2.getLsbD j) (X.x3.getLsbD j) (X.x4.getLsbD j)

/-- The layer works on each slice by itself, so only the 32 values of a slice are looked at. -/
theorem sboxTable_asconSlice (X : AsconWords) {j : Nat} (hj : j < 64) :
    sboxTable[asconSlice X j]? = some (asconSlice (sbox X) j) := by
  simp only [asconSlice, sbox, sboxOut, sboxChi, sboxIn, BitVec.getLsbD_xor, BitVec.getLsbD_and, BitVec.getLsbD_not, hj,
    decide_true, Bool.true_and]
  generalize X.x0.getLsbD j = b0, X.x1.getLsbD j = b1, X.x2.getLsbD j = b2, X.x3.getLsbD j = b3, X.x4.getLsbD j = b4
  revert b0 b1 b2 b3 b4
  decide

/-- Settles O28: the table entry of a slice. -/
theorem asconSboxIsTheTable : Obligations.AsconSboxIsTheTable := fun X _ hj => sboxTable_asconSlice X hj

/-! ### The linear layer -/

/-- A rotation to the right by `n` takes bit `j` from bit `j + n`, modulo the width (R136). -/
theorem getLsbD_rotateRight_mod {w : Nat} (x : BitVec w) (n : Nat) {j : Nat} (hj : j < w) :
    (x.rotateRight n).getLsbD j = x.getLsbD ((j + n) % w) := by
  have hn : n % w < w := Nat.mod_lt _ (by omega)
  rw [← Nat.add_mod_mod, BitVec.getLsbD_rotateRight]
  rcases Nat.lt_or_ge j (w - n % w) with hstays | hwraps
  · have hplace : (j + n % w) % w = n % w + j := by rw [Nat.mod_eq_of_lt (by omega), Nat.add_comm]
    rw [hplace, decide_eq_true hstays, cond_true]
  · have hplace : (j + n % w) % w = j - (w - n % w) := by
      rw [Nat.mod_eq_sub_mod (by omega), Nat.mod_eq_of_lt (by omega)]
      omega
    rw [hplace, decide_eq_false (by omega), cond_false, decide_eq_true hj, Bool.true_and]

theorem getLsbD_diffuse (a : Word64) (m n : Nat) {j : Nat} (hj : j < 64) : (diffuse a m n).getLsbD j =
    (a.getLsbD j ^^ a.getLsbD ((j + m) % 64) ^^ a.getLsbD ((j + n) % 64)) := by
  rw [diffuse, BitVec.getLsbD_xor, BitVec.getLsbD_xor, getLsbD_rotateRight_mod _ _ hj, getLsbD_rotateRight_mod _ _ hj]

/-- Settles O29: the diffusion of each word by its own two distances. -/
theorem asconDiffusionBits : Obligations.AsconDiffusionBits := fun _ _ hj =>
  ⟨getLsbD_diffuse _ _ _ hj, getLsbD_diffuse _ _ _ hj, getLsbD_diffuse _ _ _ hj, getLsbD_diffuse _ _ _ hj,
    getLsbD_diffuse _ _ _ hj⟩

/-! ### The schedule -/

theorem asconP_zero (X : AsconWords) : asconP 0 X = X := rfl

/-- The round that one more round adds runs first (R132). -/
theorem asconP_succ {rounds : Nat} (h : rounds < 12) (X : AsconWords) :
    asconP (rounds + 1) X = asconP rounds (asconRound (12 - (rounds + 1)) X) := by
  have hnext : 12 - (rounds + 1) + 1 = 12 - rounds := by omega
  rw [asconP, List.range'_succ, hnext, List.foldl_cons, asconP]

/-- Settles O20: the two equations of the schedule, and a round by its definition. -/
theorem asconRunsTheLastRounds : Obligations.AsconRunsTheLastRounds :=
  fun _ _ X => ⟨asconP_zero X, fun h => asconP_succ h X, rfl⟩

end Sys2Proof.Machine
end

