-- ==== Sys2Proof/Proofs/AsconBijection.lean ====
section
/-! Proofs: the Ascon permutation is a bijection (R130). Each layer of a round is injective, and there are finitely many
states. The S-box layer is injective because no entry of its table stands there twice; the linear layer because the 64th
power of a word's diffusion is the identity. -/

namespace Sys2Proof.Machine

theorem addConst_involutive (i : Nat) : Function.Involutive (addConst i) := by
  intro X
  rw [addConst, addConst, xor_xor_cancel_right]

/-! ### The S-box layer is injective -/

theorem sboxTable_nodup : sboxTable.Nodup := by decide

theorem fiveBits_lt (b0 b1 b2 b3 b4 : Bool) : fiveBits b0 b1 b2 b3 b4 < sboxTable.length := by
  revert b0 b1 b2 b3 b4
  decide

theorem fiveBits_inj {b0 b1 b2 b3 b4 c0 c1 c2 c3 c4 : Bool} (h : fiveBits b0 b1 b2 b3 b4 = fiveBits c0 c1 c2 c3 c4) :
    b0 = c0 ∧ b1 = c1 ∧ b2 = c2 ∧ b3 = c3 ∧ b4 = c4 := by
  revert b0 b1 b2 b3 b4 c0 c1 c2 c3 c4
  decide

/-- The 64 slices determine the five words. -/
theorem eq_of_asconSlice_eq {X Y : AsconWords} (h : ∀ j < 64, asconSlice X j = asconSlice Y j) : X = Y := by
  obtain ⟨x0, x1, x2, x3, x4⟩ := X
  obtain ⟨y0, y1, y2, y3, y4⟩ := Y
  choose h0 h1 h2 h3 h4 using fun j hj => fiveBits_inj (h j hj)
  rw [AsconWords.mk.injEq]
  exact ⟨BitVec.eq_of_getLsbD_eq h0, BitVec.eq_of_getLsbD_eq h1, BitVec.eq_of_getLsbD_eq h2,
    BitVec.eq_of_getLsbD_eq h3, BitVec.eq_of_getLsbD_eq h4⟩

/-- Equal slices after the layer are one entry of the table, and it stands at one index only. -/
theorem sbox_injective : Function.Injective sbox := by
  intro X Y hXY
  refine eq_of_asconSlice_eq fun j hj => (List.getElem?_inj (fiveBits_lt ..) sboxTable_nodup).1 ?_
  calc sboxTable[asconSlice X j]? = some (asconSlice (sbox X) j) := sboxTable_asconSlice X hj
    _ = some (asconSlice (sbox Y) j) := by rw [hXY]
    _ = sboxTable[asconSlice Y j]? := (sboxTable_asconSlice Y hj).symm

/-! ### The linear layer is injective -/

/-- Squaring doubles the distances: the two mixed terms are equal and cancel, as the two terms at one distance do. -/
theorem diffuse_diffuse (a : Word64) (m n : Nat) : diffuse (diffuse a m n) m n = diffuse a (2 * m) (2 * n) := by
  refine BitVec.eq_of_getLsbD_eq fun j hj => ?_
  have hplace (k : Nat) : (j + k) % 64 < 64 := Nat.mod_lt _ (by decide)
  have hmixed : j + n + m = j + m + n := Nat.add_right_comm j n m
  have hcancel : ∀ b bm bn bmm bmn bnn : Bool,
      (b ^^ bm ^^ bn ^^ (bm ^^ bmm ^^ bmn) ^^ (bn ^^ bmn ^^ bnn)) = (b ^^ bmm ^^ bnn) := by decide
  simp only [getLsbD_diffuse, hj, hplace, Nat.mod_add_mod, hmixed, Nat.two_mul, ← Nat.add_assoc]
  exact hcancel ..

theorem iterate_diffuse_two_pow (m n k : Nat) (a : Word64) :
    (diffuse · m n)^[2 ^ k] a = diffuse a (2 ^ k * m) (2 ^ k * n) := by
  induction k generalizing a with
  | zero => simp
  | succ k ih =>
    rw [Nat.pow_succ', Nat.mul_assoc, Nat.mul_assoc, ← diffuse_diffuse, ← ih, ← ih, ← Function.iterate_add_apply,
      Nat.two_mul]

/-- At whole turns no rotation is left, and two of the three equal terms cancel. -/
theorem diffuse_turns (a : Word64) (m n : Nat) : diffuse a (64 * m) (64 * n) = a := by
  refine BitVec.eq_of_getLsbD_eq fun j hj => ?_
  rw [getLsbD_diffuse _ _ _ hj, Nat.add_mul_mod_self_left, Nat.add_mul_mod_self_left, Nat.mod_eq_of_lt hj, Bool.xor_self,
    Bool.false_xor]

/-- The 64th power of a diffusion is the identity, so the 63rd undoes it. -/
theorem diffuse_leftInverse (m n : Nat) : Function.LeftInverse (diffuse · m n)^[63] (diffuse · m n) := fun a =>
  calc (diffuse · m n)^[2 ^ 6] a = diffuse a (64 * m) (64 * n) := iterate_diffuse_two_pow m n 6 a
    _ = a := diffuse_turns a m n

theorem diffuse_injective (m n : Nat) : Function.Injective (diffuse · m n) := (diffuse_leftInverse m n).injective

theorem linear_injective : Function.Injective linear := by
  rintro ⟨x0, x1, x2, x3, x4⟩ ⟨y0, y1, y2, y3, y4⟩ hXY
  obtain ⟨h0, h1, h2, h3, h4⟩ := AsconWords.mk.inj hXY
  rw [AsconWords.mk.injEq]
  exact ⟨diffuse_injective _ _ h0, diffuse_injective _ _ h1, diffuse_injective _ _ h2, diffuse_injective _ _ h3,
    diffuse_injective _ _ h4⟩

/-! ### Rounds and calls -/

theorem asconRound_injective (i : Nat) : Function.Injective (asconRound i) :=
  linear_injective.comp <| sbox_injective.comp (addConst_involutive i).injective

theorem asconRounds_injective (is : List Nat) : Function.Injective fun X => is.foldl (fun Y i => asconRound i Y) X := by
  induction is with
  | nil => exact Function.injective_id
  | cons i is ih => exact ih.comp (asconRound_injective i)

theorem finite_asconWords : Finite AsconWords :=
  Finite.of_injective (fun X (k : Fin 5) => X.word k) fun X Y h => by
    obtain ⟨x0, x1, x2, x3, x4⟩ := X
    obtain ⟨y0, y1, y2, y3, y4⟩ := Y
    rw [AsconWords.mk.injEq]
    exact ⟨congrFun h 0, congrFun h 1, congrFun h 2, congrFun h 3, congrFun h 4⟩

/-- Settles O27: every round is injective, and an injective function on a finite type is a bijection. -/
theorem asconIsABijection : Obligations.AsconIsABijection := by
  intro rounds
  have hfinite : Finite AsconWords := finite_asconWords
  exact Finite.injective_iff_bijective.1 (asconRounds_injective _)

end Sys2Proof.Machine
end

