-- ==== Sys2Proof/Proofs/ConfigAndDrop.lean ====
section
/-! Proofs: the two commands that make and release a context: `CONFIG`, which checks its four fields (R152), and `DROP`,
which checks nothing and alone clears the fault (R175). -/

namespace Sys2Proof.Machine

/-! ### CONFIG -/

/-- The legal ranges of `CONFIG` as numbers, one line per variant code, and what tree mode asks for besides (R152). -/
def LegalFields (var : Nat) (dom : Dom) (r q : Nat) : Prop :=
  ((var = 0 ∧ 1 ≤ r ∧ r ≤ 24 ∧ 1 ≤ q ∧ q ≤ 199) ∨ (var = 1 ∧ 1 ≤ r ∧ r ≤ 22 ∧ 1 ≤ q ∧ q ≤ 99)
    ∨ (var = 2 ∧ 1 ≤ r ∧ r ≤ 20 ∧ 1 ≤ q ∧ q ≤ 49) ∨ (var = 3 ∧ 1 ≤ r ∧ r ≤ 18 ∧ 1 ≤ q ∧ q ≤ 24)
    ∨ (var = 4 ∧ 1 ≤ r ∧ r ≤ 12 ∧ q = 8)) ∧
  (dom = .tree → var = 0 ∧ r = 12 ∧ q = 168)

theorem rateOk_iff {v : Variant} {rate : BitVec 8} : rateOk v rate = true ↔
    if v = .ascon then rate.toNat = 8 else 1 ≤ rate.toNat ∧ rate.toNat ≤ v.nb - 1 := by
  cases v <;> simp [rateOk]

theorem treeOk_iff {c : Cfg} :
    treeOk c = true ↔ (c.dom = .tree → c.var = .k1600 ∧ c.rounds.toNat = 12 ∧ c.rate.toNat = 168) := by
  cases hd : c.dom <;> simp [treeOk, hd, and_assoc]

/-- The model's checks are the legal ranges of the variant's code. -/
theorem cfgOk_iff_legalFields {v : Variant} {dom : Dom} {rounds : BitVec 5} {rate : BitVec 8} :
    cfgOk ⟨v, dom, rounds, rate⟩ = true ↔ LegalFields v.code.toNat dom rounds.toNat rate.toNat := by
  rw [cfgOk, Bool.and_eq_true, Bool.and_eq_true, roundsOk_iff, rateOk_iff, treeOk_iff,
    LegalFields]
  refine and_congr ?ranges ?tree
  case ranges => cases v <;> simp [Variant.code, Variant.nrMax, Variant.nb, and_assoc]
  case tree => cases v <;> simp [Variant.code]

theorem execConfig_of_fault {s : State} (var : BitVec 3) (dom : Dom) (rounds : BitVec 5) (rate : BitVec 8)
    (hf : s.fault = true) : execConfig var dom rounds rate s = .next (s.raise .errFaulted) :=
  if_pos hf

theorem execConfig_of_not_legalFields {s : State} {var : BitVec 3} {dom : Dom} {rounds : BitVec 5} {rate : BitVec 8}
    (hf : s.fault = false) (h : ¬ LegalFields var.toNat dom rounds.toNat rate.toNat) :
    execConfig var dom rounds rate s = .next (s.raise .errConfig) := by
  cases hv : variantOf var with
  | none => simp [execConfig, hf, hv]
  | some v =>
    obtain rfl := variantOf_eq_some.1 hv
    simp [execConfig, hf, mt cfgOk_iff_legalFields.1 h]

/-- Only the codes 0 to 4 have legal fields, and each of them names a variant (R8). -/
theorem LegalFields.exists_variant {var : BitVec 3} {dom : Dom} {r q : Nat} (h : LegalFields var.toNat dom r q) :
    ∃ v : Variant, v.code = var := by
  cases hv : variantOf var with
  | some v => exact ⟨v, variantOf_eq_some.1 hv⟩
  | none =>
    have hlarge := variantOf_eq_none.1 hv
    obtain ⟨hranges, -⟩ := h
    omega

/-- Settles O14: the fault is looked at first, then the ranges; legal fields construct a fresh context. -/
theorem configAcceptsExactlyLegalFields : Obligations.ConfigAcceptsExactlyLegalFields := by
  intro s var dom rounds rate r q ranges legal
  refine ⟨?faulted, ?illegal, ?legal⟩
  case faulted =>
    intro hf
    exact (execConfig_of_fault var dom rounds rate hf).trans (congrArg _ (s.raise_of_ne nofun))
  case illegal =>
    intro hf hillegal
    exact (execConfig_of_not_legalFields hf hillegal).trans (congrArg _ (s.raise_of_ne nofun))
  case legal =>
    intro hf hlegal
    obtain ⟨v, rfl⟩ := LegalFields.exists_variant hlegal
    exact ⟨_, execConfig_ok hf (cfgOk_iff_legalFields.2 hlegal), rfl, rfl, rfl, rfl, rfl, rfl, rfl,
      State.construct_respond_fresh s _ _ _, rfl, rfl⟩

/-! ### DROP -/

/-- While the fault is set, every command but `DROP` and `STATUS` raises `ErrFaulted` (R247). -/
theorem exec_of_fault {i : Instr} {s : State} (hf : s.fault = true) (hdrop : i ≠ .drop) (hstatus : i ≠ .status) :
    exec i s = .next (s.raise .errFaulted) := by
  cases i with
  | config | absorb | finish | squeeze | reset | custom | permute => exact if_pos hf
  | drop => exact absurd rfl hdrop
  | status => exact absurd rfl hstatus

/-- After `DROP` every field of the status word is zero (R31, R175). -/
theorem statusBytes_erase_respond (s : State) (st : Status) (out : List Byte) :
    statusBytes (s.erase.respond st out) = [0, 0, 0, 0] :=
  calc statusBytes (s.erase.respond st out) = statusBytes State.reset := rfl
    _ = [0, 0, 0, 0] := by decide

/-- Settles O16: `DROP` erases, an erased state has a status word of zeros, and the other commands keep the fault. -/
theorem dropReturnsToPowerOn : Obligations.DropReturnsToPowerOn := by
  refine ⟨fun s => ⟨_, rfl, rfl, rfl, ?status⟩, fun i s t hx hs ht => ?others⟩
  case status => exact congrArg (fun out => Host.Outcome.next (s.erase.respond .ok out)) (statusBytes_erase_respond s .ok [])
  case others =>
    by_contra hdrop
    have hkept : t.fault = s.fault := by
      by_cases hstatus : i = .status
      · subst hstatus
        cases hx
        rfl
      · rw [exec_of_fault hs hdrop hstatus] at hx
        cases hx
        exact Bool.or_false _
    exact Bool.false_ne_true (ht.symm.trans (hkept.trans hs))

end Sys2Proof.Machine
end

