-- ==== Sys2Proof/Proofs/Absorb.lean ====
section
/-! Proofs: what `ABSORB` leaves, for every payload, the empty one included (R160): outside tree mode the root that
`AbsorbBytes` leaves, in tree mode what `TreeAbsorb` leaves, as long as the chunk counter fits. -/

namespace Sys2Proof.Machine

/-! ### The permutation of a context -/

/-- The permutation every context calls is the one its `cfg` and the byte order name (R14, R139; log 9). -/
theorem State.permutesAsConfigured (s : State) : s.PermutesAsConfigured := by
  intro X i
  refine ⟨?keccak, ?ascon, fun hi => memRead_permuteBytes_of_le _ _ _ X hi⟩
  case keccak =>
    intro hv hi
    rw [State.perm, permuteBytes_of_ne_ascon _ hv, memRead_keccakBytes _ _ hi (Nat.lt_of_lt_of_le hi (nb_le _))]
  case ascon =>
    intro hv hi
    rw [hv] at hi
    rw [State.perm, hv, permuteBytes, memRead_asconBytes _ _ _ hi]

/-! ### One block -/

section
variable {p : Bytes → Bytes} {r : Nat}

theorem absorbByte_of_ne {c : Sponge} (h : c.pos + 1 ≠ r) (d : Byte) :
    absorbByte p r c d = { S := memXor c.S c.pos d, pos := c.pos + 1 } :=
  if_neg h

/-- Bytes that fill the block exactly leave the permutation, run once after the last of them, of what they would leave in
a block one byte longer (R150). -/
theorem absorbBytes_full {c : Sponge} {s : List Byte} (hs : s ≠ []) (h : c.pos + s.length = r) :
    absorbBytes p r c s = { S := p (absorbBytes p (r + 1) c s).S, pos := 0 } := by
  induction s generalizing c with
  | nil => exact absurd rfl hs
  | cons d s ih =>
    cases s with
    | nil =>
      have hlast : c.pos + 1 = r := h
      simp [absorbByte, hlast]
    | cons e s =>
      simp only [List.length_cons] at h
      have hnext := absorbByte_of_ne (p := p) (r := r) (c := c) (by omega) d
      have hlonger := absorbByte_of_ne (p := p) (r := r + 1) (c := c) (by omega) d
      rw [absorbBytes_cons, absorbBytes_cons (r := r + 1), hnext, hlonger]
      exact ih (List.cons_ne_nil e s) (by simp only [List.length_cons]; omega)

end

/-! ### ABSORB outside tree mode -/

/-- The state `ABSORB` leaves outside tree mode, for every payload: the bytes are absorbed into the root, and
`msg_started` is set by a non-empty one (R160). -/
def State.absorbRoot (s : State) (data : List Byte) : State :=
  { s with ctx := absorbBytes s.perm s.rate s.ctx data, msgStarted := s.msgStarted || !data.isEmpty,
           response := some ⟨.ok, []⟩ }

theorem execAbsorb_of_ne_tree {s : State} (hf : s.fault = false) (hv : s.cfgValid = true) (hm : s.mode = .absorbing)
    (hd : s.cfg.dom ≠ .tree) (data : List Byte) : execAbsorb data s = .next (s.absorbRoot data) := by
  cases data with
  | nil => simp [execAbsorb_nil hf hv hm, State.absorbRoot, State.respond]
  | cons d ds => simp [execAbsorb_plain hf hv hm hd, State.absorbRoot, State.respond, State.withCtx, State.startMessage]

/-- `AbsorbBytes` composes, and the message has started if either payload is non-empty (R161). -/
theorem State.absorbRoot_append (s : State) (a b : List Byte) :
    s.absorbRoot (a ++ b) = (s.absorbRoot a).absorbRoot b := by
  have hstarted : (s.msgStarted || !(a ++ b).isEmpty) = (s.msgStarted || !a.isEmpty || !b.isEmpty) := by
    cases a <;> simp
  rw [State.absorbRoot, absorbBytes_append, hstarted]
  rfl

/-- Settles O33: the bytes do not fill the block, which is within the storage. -/
theorem absorbXorsIntoTheRate : Obligations.AbsorbXorsIntoTheRate := by
  intro s data hinv hf hv hm hd hlen
  have hrate : s.rate ≤ 200 := Nat.le_trans (hinv.rate_le hv) (nb_le _)
  exact ⟨_, execAbsorb_of_ne_tree hf hv hm hd data, rfl, absorbBytes_short hlen hrate⟩

/-- Settles O34: the position is below the rate, so the payload has a last byte, and the permutation runs after it; what it
permutes is read as in a block one byte longer, still within the storage. -/
theorem absorbPermutesTheFullBlock : Obligations.AbsorbPermutesTheFullBlock := by
  refine ⟨State.permutesAsConfigured, ?_⟩
  intro s data hinv hf hv hm hd hlen
  have hrate : s.rate + 1 ≤ 200 := Nat.le_trans (cfgOk_rate (hinv.cfgLegal hv)).2 (nb_le _)
  have hne : data ≠ [] := by
    rintro rfl
    exact absurd hlen (Nat.ne_of_lt (hinv.posAbsorbing hv hm))
  have hx := execAbsorb_of_ne_tree hf hv hm hd data
  rw [State.absorbRoot, absorbBytes_full hne hlen, List.isEmpty_eq_false_iff.2 hne, Bool.not_false, Bool.or_true] at hx
  exact ⟨_, _, hx, rfl, rfl, rfl, (absorbBytes_short (Nat.lt_succ_of_le (Nat.le_of_eq hlen)) hrate).2⟩

/-! ### ABSORB in tree mode -/

/-- The state a completed `ABSORB` leaves in tree mode (R160, R212). -/
def State.absorbTree (s : State) (data : List Byte) : State :=
  let k := treeAbsorb s.perm s.rate s.coord data
  (s.withTree k.ctx k.leaf k.t).respond .ok []

/-- When `ABSORB` completes in tree mode: the chunk counter fits afterwards (R45); an empty payload is not checked. -/
def State.HasRoom (s : State) (data : List Byte) : Prop :=
  data = [] ∨ (s.absorbTree data).t.nLeaves < 2 ^ s.params.treeCountBits

theorem execAbsorb_of_hasRoom {s : State} (hf : s.fault = false) (hv : s.cfgValid = true) (hm : s.mode = .absorbing)
    (hd : s.cfg.dom = .tree) {data : List Byte} (hroom : s.HasRoom data) :
    execAbsorb data s = .next (s.absorbTree data) := by
  cases data with
  | nil => exact execAbsorb_nil hf hv hm
  | cons d ds => exact execAbsorb_tree_fits hf hv hm hd (hroom.resolve_left (List.cons_ne_nil d ds))

theorem execAbsorb_of_not_hasRoom {s : State} (hf : s.fault = false) (hv : s.cfgValid = true) (hm : s.mode = .absorbing)
    (hd : s.cfg.dom = .tree) {data : List Byte} (hroom : ¬ s.HasRoom data) :
    execAbsorb data s = .refused .treeCountOverflow := by
  obtain ⟨hne, hover⟩ := not_or.1 hroom
  obtain ⟨d, ds, rfl⟩ := List.exists_cons_of_ne_nil hne
  exact execAbsorb_tree_overflow hf hv hm hd (Nat.not_lt.1 hover)

theorem State.nLeaves_le_absorbTree (s : State) (data : List Byte) : s.t.nLeaves ≤ (s.absorbTree data).t.nLeaves :=
  calc s.t.nLeaves ≤ (Nat.repeat TreeState.advance data.length s.t).nLeaves := TreeState.nLeaves_le_repeat _ _
    _ = (s.absorbTree data).t.nLeaves := congrArg TreeState.nLeaves (treeAbsorb_t s.coord data).symm

/-- A byte closes at most one leaf. -/
theorem State.absorbTree_nLeaves_le (s : State) (data : List Byte) :
    (s.absorbTree data).t.nLeaves ≤ s.t.nLeaves + data.length :=
  calc (s.absorbTree data).t.nLeaves = (Nat.repeat TreeState.advance data.length s.t).nLeaves :=
        congrArg TreeState.nLeaves (treeAbsorb_t s.coord data)
    _ ≤ s.t.nLeaves + data.length := TreeState.repeat_nLeaves_le _ _

theorem State.absorbTree_append (s : State) (a b : List Byte) :
    s.absorbTree (a ++ b) = (s.absorbTree a).absorbTree b := by
  rw [State.absorbTree, treeAbsorb_append]
  rfl

/-- There is room for both payloads exactly when there is for the first and then for the second, because the counter
never falls. -/
theorem State.hasRoom_append {s : State} {a b : List Byte} :
    s.HasRoom (a ++ b) ↔ s.HasRoom a ∧ (s.absorbTree a).HasRoom b := by
  constructor
  · rintro (hnil | hfits)
    · obtain ⟨ha, hb⟩ := List.append_eq_nil_iff.1 hnil
      exact ⟨.inl ha, .inl hb⟩
    · rw [State.absorbTree_append] at hfits
      exact ⟨.inr (Nat.lt_of_le_of_lt (State.nLeaves_le_absorbTree _ b) hfits), .inr hfits⟩
  · rintro ⟨ha, rfl | hfits⟩
    · rwa [List.append_nil]
    · exact .inr (State.absorbTree_append s a b ▸ hfits)

theorem execAbsorb_append_of_ne_tree {s : State} (hf : s.fault = false) (hv : s.cfgValid = true)
    (hm : s.mode = .absorbing) (hd : s.cfg.dom ≠ .tree) (a b : List Byte) :
    execAbsorb b (s.absorbRoot a) = execAbsorb (a ++ b) s := by
  rw [execAbsorb_of_ne_tree hf hv hm hd, State.absorbRoot_append]
  exact execAbsorb_of_ne_tree (s := s.absorbRoot a) hf hv hm hd b

theorem execAbsorb_append_of_hasRoom {s : State} (hf : s.fault = false) (hv : s.cfgValid = true)
    (hm : s.mode = .absorbing) (hd : s.cfg.dom = .tree) {a : List Byte} (ha : s.HasRoom a) (b : List Byte) :
    execAbsorb b (s.absorbTree a) = execAbsorb (a ++ b) s := by
  by_cases hb : (s.absorbTree a).HasRoom b
  · rw [execAbsorb_of_hasRoom hf hv hm hd (State.hasRoom_append.2 ⟨ha, hb⟩), State.absorbTree_append]
    exact execAbsorb_of_hasRoom (s := s.absorbTree a) hf hv hm hd hb
  · rw [execAbsorb_of_not_hasRoom hf hv hm hd fun hab => hb (State.hasRoom_append.1 hab).2]
    exact execAbsorb_of_not_hasRoom (s := s.absorbTree a) hf hv hm hd hb

/-- A first payload that is answered leaves one state, from which the second gives the outcome of both. -/
theorem append_of_execAbsorb_eq_next {s u : State} {a b : List Byte} (hx : execAbsorb a s = .next u)
    (hab : execAbsorb b u = execAbsorb (a ++ b) s) :
    (∀ t, execAbsorb a s = .next t → execAbsorb b t = execAbsorb (a ++ b) s) ∧
    (∀ r, execAbsorb a s = .refused r → execAbsorb (a ++ b) s = .refused r) := by
  rw [hx]
  refine ⟨fun t h => ?_, nofun⟩
  obtain rfl := Host.Outcome.next.inj h
  exact hab

/-- Settles O35: what `ABSORB` leaves composes; only tree mode refuses, and where there is no room for the first payload
there is none for both. -/
theorem absorbConcatenates : Obligations.AbsorbConcatenates := by
  intro s a b hf hv hm
  by_cases hd : s.cfg.dom = .tree
  · by_cases ha : s.HasRoom a
    · exact append_of_execAbsorb_eq_next (execAbsorb_of_hasRoom hf hv hm hd ha)
        (execAbsorb_append_of_hasRoom hf hv hm hd ha b)
    · have hrefused := execAbsorb_of_not_hasRoom hf hv hm hd ha
      have hab : ¬ s.HasRoom (a ++ b) := fun hab => ha (State.hasRoom_append.1 hab).1
      refine ⟨fun t h => (nomatch hrefused.symm.trans h), fun r h => ?_⟩
      exact (execAbsorb_of_not_hasRoom hf hv hm hd hab).trans (hrefused.symm.trans h)
  · exact append_of_execAbsorb_eq_next (execAbsorb_of_ne_tree hf hv hm hd a)
      (execAbsorb_append_of_ne_tree hf hv hm hd a b)

/-- Settles O37: outside tree mode nothing can stop it; in tree mode there is room, since a byte closes at most one
leaf. -/
theorem absorbCompletes : Obligations.AbsorbCompletes := by
  intro s data hf hv hm hbound
  refine ⟨?_, execAbsorb_nil hf hv hm⟩
  by_cases hd : s.cfg.dom = .tree
  · have hlt : s.t.nLeaves + data.length < 2 ^ s.params.treeCountBits := hbound.resolve_left (not_not_intro hd)
    have hroom : s.HasRoom data := .inr (Nat.lt_of_le_of_lt (s.absorbTree_nLeaves_le data) hlt)
    exact ⟨_, execAbsorb_of_hasRoom hf hv hm hd hroom, rfl, rfl⟩
  · exact ⟨_, execAbsorb_of_ne_tree hf hv hm hd data, rfl, rfl⟩

end Sys2Proof.Machine
end

