-- ==== Sys2Proof/Proofs/SqueezeStream.lean ====
section
/-! Proofs: the output stream of a squeezing context in closed form (R169), and that it is cut anywhere (R168). -/

namespace Sys2Proof.Machine

section
variable {p : Bytes → Bytes} {r : Nat}

/-! ### The stream, said without squeezing -/

/-- Where byte `j` of the stream of a sponge is read: counted from the position, in the block that as many permutations
lead to as there are whole rates before it (R169). -/
def streamAt (p : Bytes → Bytes) (r : Nat) (c : Sponge) (j : Nat) : Sponge :=
  { S := iterate p ((c.pos + j) / r) c.S, pos := (c.pos + j) % r }

/-- The first byte is read from the sponge as the permutation on demand leaves it (R150). -/
theorem streamAt_zero {c : Sponge} (hr : 0 < r) (h : c.pos ≤ r) : streamAt p r c 0 = refill p r c := by
  rcases Nat.lt_or_eq_of_le h with hlt | heq
  · simp [streamAt, refill, Nat.ne_of_lt hlt, Nat.mod_eq_of_lt hlt, Nat.div_eq_of_lt hlt, iterate]
  · simp [streamAt, refill, heq, Nat.div_self hr, iterate]

/-- The permutation on demand does not move the stream: one permutation more, one rate less. -/
theorem streamAt_refill {c : Sponge} (hr : 0 < r) (j : Nat) : streamAt p r (refill p r c) j = streamAt p r c j := by
  by_cases h : c.pos = r
  · simp [streamAt, refill, h, Nat.add_div_left j hr, iterate]
  · rw [refill, if_neg h]

/-- Moving the position on by one is skipping one byte of the stream. -/
theorem streamAt_succ (c : Sponge) (j : Nat) :
    streamAt p r { S := c.S, pos := c.pos + 1 } j = streamAt p r c (j + 1) := by
  rw [streamAt, streamAt, Nat.add_right_comm, Nat.add_assoc]

theorem refill_pos_lt {c : Sponge} (hr : 0 < r) (h : c.pos ≤ r) : (refill p r c).pos < r := by
  rw [refill_pos]
  split <;> omega

/-- `SqueezeBytes` outputs the bytes of the stream in order, and leaves the sponge one position after the last of them. -/
theorem squeezeBytes_eq_stream {c : Sponge} (hr : 0 < r) (h : c.pos ≤ r) (n : Nat) :
    (squeezeBytes p r n c).1 = (List.range n).map (fun j => memRead (streamAt p r c j).S (streamAt p r c j).pos) ∧
    (0 < n → (squeezeBytes p r n c).2 =
      { S := (streamAt p r c (n - 1)).S, pos := (streamAt p r c (n - 1)).pos + 1 }) := by
  induction n generalizing c with
  | zero => exact ⟨rfl, nofun⟩
  | succ n ih =>
    have hrest (j : Nat) : streamAt p r { S := (refill p r c).S, pos := (refill p r c).pos + 1 } j =
        streamAt p r c (j + 1) := (streamAt_succ _ j).trans (streamAt_refill hr (j + 1))
    obtain ⟨hout, hleft⟩ := ih (c := { S := (refill p r c).S, pos := (refill p r c).pos + 1 }) (refill_pos_lt hr h)
    simp only [hrest] at hout hleft
    constructor
    · simp only [squeezeBytes, hout, List.range_succ_eq_map, List.map_cons, List.map_map, streamAt_zero hr h]
      rfl
    · intro _
      cases n with
      | zero => simp [squeezeBytes, streamAt_zero hr h]
      | succ n => exact hleft (Nat.succ_pos n)

end

/-- Settles O42: the output is the stream from the position on, and the context is left after its last byte. -/
theorem squeezeStreamClosedForm : Obligations.SqueezeStreamClosedForm := by
  refine ⟨State.permutesAsConfigured, ?_⟩
  intro s len hinv hf hv hm
  obtain ⟨hout, hleft⟩ := squeezeBytes_eq_stream (p := s.perm) (hinv.rate_pos hv) (hinv.posSqueezing hv hm) len.toNat
  refine ⟨_, _, execSqueeze_ok len hf hv hm, rfl, squeezeBytes_length _ _, ?bytes, ?empty, ?left⟩
  case bytes =>
    intro j hj
    simp [hout, hj, streamAt]
  case empty =>
    intro hlen
    simp [hlen]
  case left =>
    intro hlen
    simp [hleft hlen, streamAt, Nat.add_sub_assoc hlen]

/-- Settles O43: `SqueezeBytes` composes, and the length field holds the sum. -/
theorem squeezeStreamSplits : Obligations.SqueezeStreamSplits := by
  intro s m k hf hv hm hsum
  have hsqueeze := execSqueeze_ok (m + k) hf hv hm
  rw [BitVec.toNat_add_of_lt hsum, squeezeBytes_add] at hsqueeze
  exact ⟨_, _, _, execSqueeze_ok m hf hv hm, execSqueeze_ok (s := (s.withCtx _).respond _ _) k hf hv hm, hsqueeze, rfl, rfl⟩

end Sys2Proof.Machine
end

