-- ==== Sys2Proof/Proofs/CommandFrames.lean ====
section
/-! Proofs: what each command can write at all, and so the transitions of `ctx.mode` (R180), read off the inversion of each
command. -/

namespace Sys2Proof.Machine

/-! ### What each command can write -/

/-- `CONFIG` writes the context when it completes, and else the response only (R152). -/
theorem execConfig_frame {var : BitVec 3} {dom : Dom} {rounds : BitVec 5} {rate : BitVec 8} {s t : State}
    (h : execConfig var dom rounds rate s = .next t) :
    t.params = s.params ∧ (t.response ≠ some ⟨.ok, []⟩ → t = { s with response := t.response }) := by
  obtain ⟨-, rfl⟩ | ⟨-, rfl, -⟩ | ⟨-, v, -, -, rfl⟩ := execConfig_next h
  · exact ⟨rfl, fun _ => s.raise_of_ne nofun⟩
  · exact ⟨rfl, fun _ => s.raise_of_ne nofun⟩
  · exact ⟨rfl, fun hresponse => absurd rfl hresponse⟩

/-- The root is written outside tree mode, the tree in tree mode; the phase of the tree stays (R160, R212). -/
theorem execAbsorb_frame {data : List Byte} {s t : State} (h : execAbsorb data s = .next t) :
    t = { s with fault := t.fault, ctx := t.ctx, msgStarted := t.msgStarted, leaf := t.leaf, t := t.t,
                 response := t.response } ∧ t.t.phase = s.t.phase ∧
      (s.cfg.dom ≠ .tree → t.leaf = s.leaf ∧ t.t = s.t) ∧ (s.cfg.dom = .tree → t.msgStarted = s.msgStarted) := by
  obtain ⟨-, rfl⟩ | ⟨-, -, rfl⟩ | ⟨-, -, -, -, rfl⟩ | ⟨-, -, -, -, hd, rfl⟩ | ⟨-, -, -, -, hd, k, rfl, -, rfl⟩ :=
    execAbsorb_next h
  · exact ⟨rfl, rfl, fun _ => ⟨rfl, rfl⟩, fun _ => rfl⟩
  · exact ⟨rfl, rfl, fun _ => ⟨rfl, rfl⟩, fun _ => rfl⟩
  · exact ⟨rfl, rfl, fun _ => ⟨rfl, rfl⟩, fun _ => rfl⟩
  · exact ⟨rfl, rfl, fun _ => ⟨rfl, rfl⟩, fun htree => absurd htree hd⟩
  · refine ⟨rfl, ?_, fun hne => absurd hd hne, fun _ => rfl⟩
    exact (congrArg TreeState.phase (treeAbsorb_t s.coord data)).trans (TreeState.repeat_advance_phase _ _)

theorem treeFinish_firstCount (p : Bytes → Bytes) (r : Nat) (k : Coord) :
    (treeFinish p r k).t.firstCount = k.t.firstCount := by
  unfold treeFinish closeOpenLeaf
  split
  · dsimp only
    split <;> rfl
  · rfl

/-- The leaf and the tree are written in tree mode only; the count of the first chunk stays (R163, R217). -/
theorem execFinish_frame {s t : State} (h : execFinish s = .next t) :
    t = { s with fault := t.fault, ctx := t.ctx, mode := t.mode, leaf := t.leaf, t := t.t, response := t.response } ∧
      t.t.firstCount = s.t.firstCount ∧ (s.cfg.dom ≠ .tree → t.leaf = s.leaf ∧ t.t = s.t) := by
  obtain ⟨-, rfl⟩ | ⟨-, -, rfl⟩ | ⟨-, -, -, -, rfl⟩ | ⟨-, -, -, hd, k, rfl, -, rfl⟩ := execFinish_next h
  · exact ⟨rfl, rfl, fun _ => ⟨rfl, rfl⟩⟩
  · exact ⟨rfl, rfl, fun _ => ⟨rfl, rfl⟩⟩
  · exact ⟨rfl, rfl, fun _ => ⟨rfl, rfl⟩⟩
  · exact ⟨rfl, treeFinish_firstCount _ _ s.coord, fun hne => absurd hd hne⟩

theorem execSqueeze_frame {len : BitVec 28} {s t : State} (h : execSqueeze len s = .next t) :
    t = { s with fault := t.fault, ctx := t.ctx, response := t.response } := by
  obtain ⟨-, rfl⟩ | ⟨-, -, rfl⟩ | ⟨-, -, -, rfl⟩ := execSqueeze_next h <;> rfl

/-- `RESET` writes everything but `cfg` and `cfg_valid`, and the fault only where there is no context (R172, R244). -/
theorem execReset_frame {s t : State} (h : execReset s = .next t) :
    t = { s with fault := t.fault, ctx := t.ctx, mode := t.mode, msgStarted := t.msgStarted, customDone := t.customDone,
                 customActive := t.customActive, leaf := t.leaf, t := t.t, response := t.response } ∧
      (s.cfgValid = true → t.fault = s.fault) := by
  obtain ⟨-, rfl⟩ | ⟨-, hv, rfl⟩ | ⟨-, -, rfl⟩ := execReset_next h
  · exact ⟨rfl, fun _ => Bool.or_false _⟩
  · exact ⟨rfl, fun hv' => nomatch hv.symm.trans hv'⟩
  · exact ⟨rfl, fun _ => rfl⟩

theorem execCustom_frame {name cust : List Byte} {s t : State} (h : execCustom name cust s = .next t) :
    t = { s with fault := t.fault, ctx := t.ctx, customDone := t.customDone, customActive := t.customActive,
                 response := t.response } := by
  obtain ⟨-, rfl⟩ | ⟨-, -, rfl⟩ | ⟨-, -, -, rfl⟩ | ⟨-, -, -, rfl⟩ := execCustom_next h <;> rfl

/-- `PERMUTE` writes the response only, whatever it answers (R120). -/
theorem execPermute_frame {var : BitVec 3} {rounds : BitVec 5} {input : List Byte} {s t : State}
    (h : execPermute var rounds input s = .next t) : t = { s with response := t.response } := by
  obtain ⟨-, rfl⟩ | ⟨-, rfl⟩ | ⟨-, rfl⟩ | ⟨-, v, -, -, -, rfl⟩ := execPermute_next h
  · exact s.raise_of_ne nofun
  · exact s.raise_of_ne nofun
  · exact s.raise_of_ne nofun
  · rfl

/-- No command writes the parameters (log 4). -/
theorem exec_params {i : Instr} {s t : State} (h : exec i s = .next t) : t.params = s.params := by
  cases i with
  | config var dom rounds rate => exact (execConfig_frame h).1
  | absorb data => rw [(execAbsorb_frame h).1]
  | finish => rw [(execFinish_frame h).1]
  | squeeze len => rw [execSqueeze_frame h]
  | reset => rw [(execReset_frame h).1]
  | custom name cust => rw [execCustom_frame h]
  | permute var rounds input => rw [execPermute_frame h]
  | drop | status => cases h; rfl

/-- Settles O59: the parameters and the host's list stay whatever the command, the rest is the command's own frame. -/
theorem commandFrames : Obligations.CommandFrames := by
  intro i s t h
  refine ⟨exec_params h, (exec_answered h).pending_eq, ?_⟩
  cases i with
  | config var dom rounds rate => exact (execConfig_frame h).2
  | absorb data => exact execAbsorb_frame h
  | finish => exact execFinish_frame h
  | squeeze len => exact execSqueeze_frame h
  | reset => exact execReset_frame h
  | custom name cust => exact execCustom_frame h
  | permute var rounds input => exact execPermute_frame h
  | drop | status => cases h; rfl

/-! ### The mode -/

/-- The mode a command needs to answer `OK` (R180). -/
def ModeLegal (i : Instr) (m : Mode) : Prop :=
  ((∃ data, i = .absorb data) ∨ (∃ name cust, i = .custom name cust) ∨ i = .finish → m = .absorbing) ∧
  ((∃ len, i = .squeeze len) → m = .squeezing)

/-- What R180 says of one command: the transitions of the mode and of the existence of a context it can make, and the mode
it needs. -/
def ModeStep (i : Instr) (s t : State) : Prop :=
  (s.mode = .absorbing → t.mode = .squeezing → i = .finish ∧ s.cfgValid = true) ∧
  (s.mode = .squeezing → t.mode = .absorbing →
    i = .reset ∨ i = .drop ∨ ∃ var dom rounds rate, i = .config var dom rounds rate) ∧
  (s.cfgValid = false → t.cfgValid = true → t.mode = .absorbing ∧ ∃ var dom rounds rate, i = .config var dom rounds rate) ∧
  (s.cfgValid = true → t.cfgValid = false → i = .drop) ∧
  (∀ out, t.response = some ⟨.ok, out⟩ → ModeLegal i s.mode)

/-- A command that leaves the mode and the existence of a context as they were makes no transition. -/
theorem ModeStep.of_eq {i : Instr} {s t : State} (hmode : t.mode = s.mode) (hvalid : t.cfgValid = s.cfgValid)
    (hlegal : ∀ out, t.response = some ⟨.ok, out⟩ → ModeLegal i s.mode) : ModeStep i s t := by
  refine ⟨fun hs ht => ?_, fun hs ht => ?_, fun hs ht => ?_, fun hs ht => ?_, hlegal⟩
  · cases hs.symm.trans (hmode.symm.trans ht)
  · cases hs.symm.trans (hmode.symm.trans ht)
  · cases hs.symm.trans (hvalid.symm.trans ht)
  · cases hs.symm.trans (hvalid.symm.trans ht)

/-- An error makes no transition, and is no `OK`. -/
theorem ModeStep.raise {i : Instr} {s : State} {st : Status} (herr : st ≠ .ok) : ModeStep i s (s.raise st) :=
  .of_eq rfl rfl fun _ hok => absurd (congrArg Response.status (Option.some.inj hok)) herr

theorem execConfig_modeStep {var : BitVec 3} {dom : Dom} {rounds : BitVec 5} {rate : BitVec 8} {s t : State}
    (h : execConfig var dom rounds rate s = .next t) : ModeStep (.config var dom rounds rate) s t := by
  obtain ⟨-, rfl⟩ | ⟨-, rfl, -⟩ | ⟨-, v, -, -, rfl⟩ := execConfig_next h
  · exact .raise nofun
  · exact .raise nofun
  · exact ⟨nofun, fun _ _ => .inr (.inr ⟨_, _, _, _, rfl⟩), fun _ _ => ⟨rfl, _, _, _, _, rfl⟩, nofun,
      fun _ _ => ⟨by simp, by simp⟩⟩

theorem execAbsorb_modeStep {data : List Byte} {s t : State} (h : execAbsorb data s = .next t) :
    ModeStep (.absorb data) s t := by
  have hlegal : s.mode = .absorbing → ModeLegal (.absorb data) s.mode := fun hm => ⟨fun _ => hm, nofun⟩
  obtain ⟨-, rfl⟩ | ⟨-, -, rfl⟩ | ⟨-, -, hm, -, rfl⟩ | ⟨-, -, hm, -, -, rfl⟩ | ⟨-, -, hm, -, -, k, -, -, rfl⟩ :=
    execAbsorb_next h
  · exact .raise nofun
  · exact .raise nofun
  · exact .of_eq rfl rfl fun _ _ => hlegal hm
  · exact .of_eq rfl rfl fun _ _ => hlegal hm
  · exact .of_eq rfl rfl fun _ _ => hlegal hm

/-- `FINISH` that completes goes from an absorbing context to a squeezing one. -/
theorem ModeStep.finish {s t : State} (hv : s.cfgValid = true) (hm : s.mode = .absorbing)
    (hvalid : t.cfgValid = s.cfgValid) : ModeStep .finish s t :=
  ⟨fun _ _ => ⟨rfl, hv⟩, fun hs => (nomatch hm.symm.trans hs), fun hs => (nomatch hv.symm.trans hs),
    fun _ ht => (nomatch hv.symm.trans (hvalid.symm.trans ht)), fun _ _ => ⟨fun _ => hm, nofun⟩⟩

theorem execFinish_modeStep {s t : State} (h : execFinish s = .next t) : ModeStep .finish s t := by
  obtain ⟨-, rfl⟩ | ⟨-, -, rfl⟩ | ⟨-, hv, hm, -, rfl⟩ | ⟨-, hv, hm, -, k, -, -, rfl⟩ := execFinish_next h
  · exact .raise nofun
  · exact .raise nofun
  · exact .finish hv hm rfl
  · exact .finish hv hm rfl

theorem execSqueeze_modeStep {len : BitVec 28} {s t : State} (h : execSqueeze len s = .next t) :
    ModeStep (.squeeze len) s t := by
  obtain ⟨-, rfl⟩ | ⟨-, -, rfl⟩ | ⟨-, -, hm, rfl⟩ := execSqueeze_next h
  · exact .raise nofun
  · exact .raise nofun
  · exact .of_eq rfl rfl fun _ _ => ⟨by simp, fun _ => hm⟩

theorem execReset_modeStep {s t : State} (h : execReset s = .next t) : ModeStep .reset s t := by
  obtain ⟨-, rfl⟩ | ⟨-, -, rfl⟩ | ⟨-, hv, rfl⟩ := execReset_next h
  · exact .raise nofun
  · exact .raise nofun
  · exact ⟨nofun, fun _ _ => .inl rfl, fun hs => (nomatch hv.symm.trans hs), fun _ ht => (nomatch hv.symm.trans ht),
      fun _ _ => ⟨by simp, nofun⟩⟩

theorem execDrop_modeStep {s t : State} (h : execDrop s = .next t) : ModeStep .drop s t := by
  cases h
  exact ⟨nofun, fun _ _ => .inr (.inl rfl), nofun, fun _ _ => rfl, fun _ _ => ⟨by simp, nofun⟩⟩

theorem execCustom_modeStep {name cust : List Byte} {s t : State} (h : execCustom name cust s = .next t) :
    ModeStep (.custom name cust) s t := by
  have hlegal (hc : canCustom s = true) : ModeLegal (.custom name cust) s.mode := by
    obtain ⟨-, -, hm, -, -⟩ := (canCustom_iff s).1 hc
    exact ⟨fun _ => hm, nofun⟩
  obtain ⟨-, rfl⟩ | ⟨-, -, rfl⟩ | ⟨-, hc, -, rfl⟩ | ⟨-, hc, -, rfl⟩ := execCustom_next h
  · exact .raise nofun
  · exact .raise nofun
  · exact .of_eq rfl rfl fun _ _ => hlegal hc
  · exact .of_eq rfl rfl fun _ _ => hlegal hc

/-- Settles O58: each command by the cases of its answer; `PERMUTE` and `STATUS` write the response only. -/
theorem modeMachine : Obligations.ModeMachine := by
  intro i s t h
  cases i with
  | config var dom rounds rate => exact execConfig_modeStep h
  | absorb data => exact execAbsorb_modeStep h
  | finish => exact execFinish_modeStep h
  | squeeze len => exact execSqueeze_modeStep h
  | reset => exact execReset_modeStep h
  | drop => exact execDrop_modeStep h
  | custom name cust => exact execCustom_modeStep h
  | permute var rounds input =>
    rw [execPermute_frame h]
    exact ModeStep.of_eq rfl rfl fun _ _ => ⟨by simp, nofun⟩
  | status =>
    cases h
    exact ModeStep.of_eq rfl rfl fun _ _ => ⟨by simp, nofun⟩

end Sys2Proof.Machine
end

