-- ==== Sys2Proof/Proofs/Encodings.lean ====
section
/-! Proofs: the delimited suffix byte as a number (R191), and the encodings: `left_encode` takes the least number of bytes
(R196), `bytepad` the least number of zeros (R198). -/

namespace Sys2Proof.Machine

/-! ### The delimited suffix byte -/

theorem delimited_cons (b : Bool) (bits : List Bool) :
    delimited (b :: bits) = delimited bits <<< 1 ||| (BitVec.ofBool b).setWidth 8 := rfl

/-- Packing one more bit below a byte whose top bit is clear doubles it and adds the bit. -/
theorem toNat_shiftLeft_or_ofBool {acc : Byte} (h : acc.toNat < 2 ^ 7) (b : Bool) :
    (acc <<< 1 ||| (BitVec.ofBool b).setWidth 8).toNat = b.toNat + 2 * acc.toNat := by
  have hbit : b.toNat < 2 ^ 1 := Bool.toNat_lt b
  have hshift : acc.toNat <<< 1 % 2 ^ 8 = acc.toNat <<< 1 := Nat.mod_eq_of_lt (by rw [Nat.shiftLeft_eq]; omega)
  have hlow : b.toNat % 2 ^ 8 = b.toNat := Nat.mod_eq_of_lt (by omega)
  rw [BitVec.toNat_or, BitVec.toNat_shiftLeft, BitVec.toNat_setWidth, BitVec.toNat_ofBool, hshift, hlow,
    ← Nat.shiftLeft_add_eq_or_of_lt hbit, Nat.shiftLeft_eq]
  omega

/-- The number R191 assigns to a suffix: bit `i` counts `2^i`, and the first padding bit follows the last. -/
def suffixValue (bits : List Bool) : Nat := bits.foldr (fun b acc => b.toNat + 2 * acc) 1

theorem suffixValue_cons (b : Bool) (bits : List Bool) :
    suffixValue (b :: bits) = b.toNat + 2 * suffixValue bits := rfl

theorem suffixValue_lt (bits : List Bool) : suffixValue bits < 2 ^ (bits.length + 1) := by
  induction bits with
  | nil => decide
  | cons b bits ih =>
    have hbit := Bool.toNat_lt b
    rw [suffixValue_cons, List.length_cons, Nat.pow_succ]
    omega

/-- Packing loses nothing while the suffix and the padding bit fit a byte. -/
theorem toNat_delimited {bits : List Bool} (h : bits.length ≤ 7) : (delimited bits).toNat = suffixValue bits := by
  induction bits with
  | nil => rfl
  | cons b bits ih =>
    rw [List.length_cons] at h
    have htail := ih (Nat.le_of_succ_le h)
    have htop : (delimited bits).toNat < 2 ^ 7 :=
      calc (delimited bits).toNat = suffixValue bits := htail
        _ < 2 ^ (bits.length + 1) := suffixValue_lt bits
        _ ≤ 2 ^ 7 := Nat.pow_le_pow_right (by decide) h
    rw [delimited_cons, toNat_shiftLeft_or_ofBool htop, htail, suffixValue_cons]

/-- Settles O40: four bits and the padding bit stay below 2^5. -/
theorem delimitedSuffixByte : Obligations.DelimitedSuffixByte := by
  refine ⟨fun bits _ hlen => ?_, by decide⟩
  have hvalue := toNat_delimited (bits := bits) (Nat.le_trans hlen (by decide))
  have hbound : suffixValue bits < 2 ^ 5 :=
    Nat.lt_of_lt_of_le (suffixValue_lt bits) (Nat.pow_le_pow_right (by decide) (Nat.succ_le_succ hlen))
  exact ⟨hvalue, hvalue ▸ Nat.le_of_lt_succ hbound⟩

/-! ### left_encode and bytepad -/

/-- Settles O47: the byte count is the larger of 1 and the least number of bytes that hold the number. -/
theorem leftEncodeIsMinimal : Obligations.LeftEncodeIsMinimal := by
  intro x hx
  have hcount : byteCount x ≤ 255 := byteCount_le (by rwa [show 8 * 255 = 2040 from rfl])
  have hsmall : max 1 (byteCount x) ≤ 255 := max_le (by decide) hcount
  have hholds : x < 2 ^ (8 * max 1 (byteCount x)) :=
    Nat.lt_of_lt_of_le (lt_pow_byteCount x)
      (Nat.pow_le_pow_right (by decide) (Nat.mul_le_mul_left 8 (Nat.le_max_right _ _)))
  exact ⟨max 1 (byteCount x), bigEndian (max 1 (byteCount x)) x, rfl, Nat.lt_succ_of_le hsmall, bigEndian_length _ _,
    Nat.le_max_left _ _, bigEndianValue_bigEndian _ hholds, fun m hm hfits => max_le hm (byteCount_le hfits)⟩

/-- Any padding of `n` to a multiple of `r` is, modulo `r`, the padding `bytepad` takes. -/
theorem padding_mod_of_aligned {n m r : Nat} (hr : 0 < r) (h : (n + m) % r = 0) : (r - n % r) % r = m % r := by
  have hsum : r - n % r + n % r = r := Nat.sub_add_cancel (Nat.mod_lt n hr).le
  have hleft : r - n % r + n ≡ 0 [MOD r] :=
    calc r - n % r + n ≡ r - n % r + n % r [MOD r] := (Nat.mod_modEq n r).symm.add_left _
      _ = r := hsum
      _ ≡ 0 [MOD r] := Nat.modEq_zero_iff_dvd.2 dvd_rfl
  have hright : m + n ≡ 0 [MOD r] := Nat.add_comm n m ▸ h
  exact (hleft.trans hright.symm).add_right_cancel' n

/-- Settles O46: the number of zeros is the residue of every padding that aligns the length. -/
theorem bytepadAligns : Obligations.BytepadAligns := by
  intro z r hr
  refine ⟨_, rfl, bytepad_length_mod z hr, fun m haligned => ?_⟩
  rw [← List.length_append] at haligned
  exact padding_mod_of_aligned hr haligned ▸ Nat.mod_le m r

end Sys2Proof.Machine
end

