-- ==== Sys2Proof/Proofs/SuffixAndCustom.lean ====
section
/-! Proofs: the suffix layer at work: what `FINISH` pads with outside tree mode (R163, R192), what `CUSTOM` does (R194), and
that empty strings give the XOF output (R200). -/

namespace Sys2Proof.Machine

/-! ### FINISH outside tree mode -/

@[simp] theorem suffixByte_hash (active : Bool) : suffixByte .hash active = 0x06 := rfl

@[simp] theorem suffixByte_xof (active : Bool) : suffixByte .xof active = 0x1F := rfl

@[simp] theorem suffixByte_custom (active : Bool) : suffixByte .custom active = if active = true then 0x04 else 0x1F := by
  cases active <;> rfl

/-- The two XORs of `Pad`, read at one byte; both hit the last rate byte when the position is there (R150). -/
theorem memRead_memXor_memXor {S : Bytes} {i j : Nat} (hi : i < 200) (hj : j < 200) (a b : Byte) (k : Nat) :
    memRead (memXor (memXor S i a) j b) k = memRead S k ^^^ (if k = i then a else 0) ^^^ (if k = j then b else 0) := by
  simp [memRead_memXor, hi, hj, eq_comm (a := k)]

/-- Settles O39: the suffix byte by construction, and both XORs are within the storage. -/
theorem finishPadsWithTheSuffix : Obligations.FinishPadsWithTheSuffix := by
  refine ⟨State.permutesAsConfigured, ?_⟩
  intro s hinv hf hv hm hd suffix
  have hsuffix : suffixByte s.cfg.dom s.customActive = suffix := by
    cases hdom : s.cfg.dom with
    | hash => simp [suffix, hdom]
    | xof => simp [suffix, hdom]
    | custom => simp [suffix, hdom]
    | tree => exact absurd hdom hd
  have hrate : s.rate ≤ 200 := Nat.le_trans (hinv.rate_le hv) (nb_le _)
  have hpos : s.ctx.pos < s.rate := hinv.posAbsorbing hv hm
  refine ⟨_, memXor (memXor s.ctx.S s.ctx.pos suffix) (s.rate - 1) 0x80, execFinish_plain hf hv hm hd, rfl, rfl, ?root,
    memRead_memXor_memXor (by omega) (by omega) _ _⟩
  case root => rw [hsuffix]; rfl

/-! ### CUSTOM -/

theorem execCustom_of_not_canCustom {s : State} (hf : s.fault = false) (hc : canCustom s = false)
    (name cust : List Byte) : execCustom name cust s = .next (s.raise .errSequence) := by
  simp [execCustom, hf, hc]

/-- `CUSTOM` with two empty strings absorbs nothing (R194, R200). -/
theorem execCustom_empty {s : State} (hf : s.fault = false) (hc : canCustom s = true) {name cust : List Byte}
    (hempty : name.length + cust.length = 0) : execCustom name cust s = .next (s.markCustom.respond .ok []) := by
  rw [execCustom, if_neg (by simp [hf]), if_pos hc, absorbCustom, if_pos hempty]

/-- `CUSTOM` with a string absorbs the padded encodings of both (R194). -/
theorem execCustom_nonempty {s : State} (hf : s.fault = false) (hc : canCustom s = true) {name cust : List Byte}
    (hne : name.length + cust.length ≠ 0) : execCustom name cust s =
      .next ((s.markCustom.activateCustom.withCtx
        (absorbBytes s.perm s.rate s.ctx (customPrefix name cust s.rate))).respond .ok []) := by
  rw [execCustom, if_neg (by simp [hf]), if_pos hc, absorbCustom, if_neg hne]

/-- What `CUSTOM` with a string writes, whatever root the absorbed bytes leave (R194). -/
theorem State.activateCustom_withCtx_respond (s : State) (c : Sponge) :
    (s.markCustom.activateCustom.withCtx c).respond .ok [] =
      { s with ctx := c, customDone := true, customActive := true, response := some ⟨.ok, []⟩ } := rfl

/-- Before any message byte the position is 0, and the padded encodings are whole blocks, so it is 0 after them (R194, R198). -/
theorem State.Inv.absorb_customPrefix_pos {s : State} (h : s.Inv) (hc : canCustom s = true) (name cust : List Byte) :
    (absorbBytes s.perm s.rate s.ctx (customPrefix name cust s.rate)).pos = 0 := by
  obtain ⟨-, hd, hm, hmsg, -⟩ := (canCustom_iff s).1 hc
  have hnotTree : s.cfg.dom ≠ .tree := by simp [hd]
  exact (h.absorb_customPrefix hc name cust).noMessage hnotTree hm hmsg

/-- Settles O45: the fault is looked at first, then the five conditions; the root left is the one `ABSORB` leaves. -/
theorem customIsAnOrdinaryAbsorb : Obligations.CustomIsAnOrdinaryAbsorb := by
  intro s name cust
  refine ⟨?faulted, ?outOfSequence, fun hf hv hd hm hmsg hdone => ?inSequence⟩
  case faulted =>
    intro hf
    exact (exec_of_fault (i := .custom name cust) hf nofun nofun).trans (congrArg _ (s.raise_of_ne nofun))
  case outOfSequence =>
    intro hf hbad
    have hc : canCustom s = false := by
      rw [Bool.eq_false_iff, ne_eq, canCustom_iff]
      rintro ⟨hv, hd, hm, hmsg, hdone⟩
      simp [hv, hd, hm, hmsg, hdone] at hbad
    exact (execCustom_of_not_canCustom hf hc name cust).trans (congrArg _ s.raise_errSequence)
  case inSequence =>
    have hc : canCustom s = true := (canCustom_iff s).2 ⟨hv, hd, hm, hmsg, hdone⟩
    have hnotTree : s.cfg.dom ≠ .tree := by simp [hd]
    have habsorb := execAbsorb_of_ne_tree hf hv hm hnotTree (customPrefix name cust s.rate)
    exact ⟨execCustom_empty hf hc, fun hlen => ⟨_, _, execCustom_nonempty hf hc (Nat.ne_of_gt hlen), habsorb,
      s.activateCustom_withCtx_respond _, fun hinv => hinv.absorb_customPrefix_pos hc name cust⟩⟩

/-! ### Empty strings -/

theorem runAll_cons {i : Instr} {s t : State} (h : exec i s = .next t) (is : List Instr) :
    runAll (i :: is) s = runAll is t := by
  rw [runAll, h]

/-- Outside tree mode a root of zeros hashes a message as the sponge does without streaming: `F` of R221, with the suffix
byte of the construction (R160, R163, R166). -/
theorem runAll_message {s : State} (hf : s.fault = false) (hv : s.cfgValid = true) (hm : s.mode = .absorbing)
    (hd : s.cfg.dom ≠ .tree) (hctx : s.ctx = Sponge.zero) (message : List Byte) (len : BitVec 28) :
    ∃ t, runAll [.absorb message, .finish, .squeeze len] s = .next t ∧ t.response =
      some ⟨.ok, spongeOutput s.perm s.rate message (suffixByte s.cfg.dom s.customActive) len.toNat⟩ := by
  have habsorb : exec (.absorb message) s = _ := execAbsorb_of_ne_tree hf hv hm hd message
  have hfinish : exec .finish (s.absorbRoot message) = _ := execFinish_plain hf hv hm hd
  have hsqueeze (c : Sponge) : exec (.squeeze len) (((s.absorbRoot message).withCtx c).startSqueezing.respond .ok []) = _ :=
    execSqueeze_ok len hf hv rfl
  rw [runAll_cons habsorb, runAll_cons hfinish, runAll_cons (hsqueeze _)]
  exact ⟨_, rfl, by rw [spongeOutput, ← hctx]; rfl⟩

/-- Settles O49: all three roots are zero before the message, their permutation and rate are the same, and so is the suffix
byte, 0x1F: two empty strings leave `custom_active` clear. -/
theorem emptyCustomIsXof : Obligations.EmptyCustomIsXof := by
  intro s v rounds rate message len hf hok
  have hxof : exec (.config v.code .xof rounds rate) s = _ := execConfig_ok hf hok
  have hcustom : exec (.config v.code .custom rounds rate) s = _ := execConfig_ok hf hok
  have hsent : exec (.custom [] []) ((s.construct ⟨v, .custom, rounds, rate⟩).respond .ok []) = _ :=
    execCustom_empty rfl rfl rfl
  rw [runAll_cons hxof, runAll_cons hcustom, runAll_cons hcustom, runAll_cons hsent]
  obtain ⟨t, ht, hrt⟩ := runAll_message (s := (s.construct ⟨v, .xof, rounds, rate⟩).respond .ok [])
    rfl rfl rfl nofun rfl message len
  obtain ⟨u, hu, hru⟩ := runAll_message
    (s := ((s.construct ⟨v, .custom, rounds, rate⟩).respond .ok []).markCustom.respond .ok [])
    rfl rfl rfl nofun rfl message len
  obtain ⟨x, hx, hrx⟩ := runAll_message (s := (s.construct ⟨v, .custom, rounds, rate⟩).respond .ok [])
    rfl rfl rfl nofun rfl message len
  exact ⟨t, u, x, ht, hu, hx, hru.trans hrt.symm, hrx.trans hrt.symm⟩

end Sys2Proof.Machine
end

