-- ==== Sys2Proof/Proofs/TreeFinish.lean ====
section
/-! Proofs: `length_encode` (R219), and `FINISH` in tree mode: the last leaf closed if one is open, then one of the two
paths of `TreeFinish` (R217, R218). -/

namespace Sys2Proof.Machine

/-- Settles O48: the count is the least number of bytes that hold the number, which is below 256 bytes. -/
theorem lengthEncodeIsMinimal : Obligations.LengthEncodeIsMinimal := by
  intro x hx
  have hcount : byteCount x ≤ 255 := byteCount_le (by rwa [show 8 * 255 = 2040 from rfl])
  exact ⟨byteCount x, bigEndian (byteCount x) x, rfl, Nat.lt_succ_of_le hcount, bigEndian_length _ _,
    bigEndianValue_bigEndian _ (lt_pow_byteCount x), fun m hfits => byteCount_le hfits⟩

section
variable {p : Bytes → Bytes} {r : Nat} {k : Coord}

/-! ### The suffix bytes of a tree (R190) -/

@[simp] theorem delimited_suffixSingle : delimited suffixSingle = 0x07 := rfl

@[simp] theorem delimited_suffixFinal : delimited suffixFinal = 0x06 := rfl

@[simp] theorem delimited_suffixLeaf : delimited suffixLeaf = 0x0B := rfl

/-! ### Closing the last leaf -/

theorem TreeState.inTree_iff {t : TreeState} : t.inTree = true ↔ 0 < t.nLeaves ∨ 0 < t.leafCount := by
  simp [TreeState.inTree]

/-- What closing the last leaf leaves: the chaining value of an open leaf goes into the root and is counted, a closed leaf
changes nothing; there is no open leaf afterwards (R216, R217). -/
theorem closeOpenLeaf_eq (hclosed : k.t.leafCount = 0 → k.leaf = Sponge.zero) : closeOpenLeaf p r k =
    { ctx := absorbBytes p r k.ctx (if 0 < k.t.leafCount then chainingValue p r k.leaf else [])
      leaf := Sponge.zero
      t := { k.t with leafCount := 0, nLeaves := k.t.nLeaves + if 0 < k.t.leafCount then 1 else 0 } } := by
  unfold closeOpenLeaf
  split
  case isTrue => rfl
  case isFalse hnone =>
    have hzero : k.t.leafCount = 0 := Nat.eq_zero_of_not_pos hnone
    obtain ⟨ctx, leaf, t⟩ := k
    obtain rfl : leaf = Sponge.zero := hclosed hzero
    obtain ⟨phase, first, leafCount, n⟩ := t
    obtain rfl : leafCount = 0 := hzero
    rfl

/-- Closing the last leaf does not change whether more than one chunk was absorbed (R29). -/
theorem closeOpenLeaf_inTree : (closeOpenLeaf p r k).t.inTree = k.t.inTree := by
  unfold closeOpenLeaf
  split
  case isTrue hopen =>
    rw [TreeState.inTree_iff.2 (.inr hopen)]
    exact TreeState.inTree_iff.2 (.inl (Nat.succ_pos _))
  case isFalse => rfl

/-! ### The two paths (R217) -/

theorem treeFinish_single (h : k.t.inTree = false) : treeFinish p r k =
    { k with ctx := pad p r k.ctx 0x07, t := { k.t with phase := .finalSingle } } := by
  simp [treeFinish, h]

theorem treeFinish_tree (h : k.t.inTree = true) : treeFinish p r k =
    { ctx := pad p r (absorbBytes p r (closeOpenLeaf p r k).ctx
        (lengthEncode (closeOpenLeaf p r k).t.nLeaves ++ finalTrailer)) 0x06
      leaf := (closeOpenLeaf p r k).leaf
      t := { (closeOpenLeaf p r k).t with phase := .finalTree } } := by
  simp [treeFinish, h]

theorem nLeaves_le_closeOpenLeaf : k.t.nLeaves ≤ (closeOpenLeaf p r k).t.nLeaves := by
  unfold closeOpenLeaf
  split
  case isTrue => exact Nat.le_succ _
  case isFalse => exact Nat.le_refl _

theorem nLeaves_le_treeFinish : k.t.nLeaves ≤ (treeFinish p r k).t.nLeaves := by
  cases h : k.t.inTree with
  | false => rw [treeFinish_single h]
  | true =>
    rw [treeFinish_tree h]
    exact nLeaves_le_closeOpenLeaf

end

/-- Settles O41: without a closed or an open leaf the root is padded alone, within the storage; else what the open leaf, if
any, gives the root is followed by the count and the trailer. The count `FINISH` checks is the one it leaves. -/
theorem finishTakesTheTreePaths : Obligations.FinishTakesTheTreePaths := by
  refine ⟨State.permutesAsConfigured, fun s hinv hf hv hm hd => ?_⟩
  have hrate : s.rate = 168 := hinv.rate_tree hv hd
  have hpos : s.ctx.pos < s.rate := hinv.posAbsorbing hv hm
  obtain ⟨-, -, -, -, -, hcount⟩ := treeFinish_spec (p := s.perm) (r := s.rate) s.coord hinv.leafClosed
  have hfinish := fun hfits => execFinish_tree_fits hf hv hm hd (hcount ▸ hfits)
  refine ⟨fun hleaves hopen => ?single, fun hleaf hfits => ?tree⟩
  case single =>
    have hnot : s.coord.t.inTree = false := by simp [TreeState.inTree, State.coord, hleaves, hopen]
    have hfits : s.coord.t.nLeaves + (if 0 < s.coord.t.leafCount then 1 else 0) < 2 ^ s.params.treeCountBits := by
      simp [State.coord, hleaves, hopen]
    have hx := hfinish hfits
    rw [treeFinish_single hnot, hrate] at hx
    exact ⟨_, memXor (memXor s.ctx.S s.ctx.pos 0x07) 167 0x80, hx, rfl, rfl, rfl,
      memRead_memXor_memXor (by omega) (by decide) _ _⟩
  case tree =>
    have hx := hfinish hfits
    rw [treeFinish_tree (TreeState.inTree_iff.2 hleaf), closeOpenLeaf_eq hinv.leafClosed, ← absorbBytes_append,
      hrate] at hx
    exact ⟨_, hx, rfl, rfl, _, rfl, by rw [List.append_assoc]; rfl⟩

end Sys2Proof.Machine
end

