-- ==== Sys2Proof/Proofs/TreeOutput.lean ====
section
/-! Proofs: the streaming coordinator meets the closed form of R221. Bytes are followed through the first chunk, then
through one leaf, then through as many leaves as the input has; `TreeFinish` and `SQUEEZE` give the output. -/

namespace Sys2Proof.Machine

/-! ### Chunks (R213) -/

theorem chunk_zero (x : List Byte) : chunk x 0 = x.take chunkBytes := rfl

theorem chunk_drop (x : List Byte) (i : Nat) : chunk (x.drop chunkBytes) i = chunk x (i + 1) := by
  rw [chunk, chunk, List.drop_drop, Nat.mul_succ, Nat.add_comm]

theorem chunkValue_drop (x : List Byte) : chunkValue (x.drop chunkBytes) = fun i => chunkValue x (i + 1) :=
  funext fun i => by rw [chunkValue, chunkValue, chunk_drop]

theorem chunk_append_drop (x : List Byte) : chunk x 0 ++ x.drop chunkBytes = x := List.take_append_drop _ _

/-- The chaining values of R221, one for each chunk after the first. -/
def laterValues (x : List Byte) : List (List Byte) := (List.range (laterChunks x)).map fun i => chunkValue x (i + 1)

theorem laterValues_length (x : List Byte) : (laterValues x).length = laterChunks x := by simp [laterValues]

theorem laterChunks_eq_zero {x : List Byte} (h : x.length ≤ chunkBytes) : laterChunks x = 0 :=
  Nat.div_eq_of_lt (Nat.lt_of_le_of_lt (Nat.sub_le_sub_right h 1) (by decide))

/-- What follows the first chunk is `laterChunks` chunks: all but the last are full, and the last is not empty (R213). -/
theorem exists_laterChunks_eq_succ {x : List Byte} (h : chunkBytes < x.length) : ∃ n, laterChunks x = n + 1 ∧
    chunkBytes * n < (x.drop chunkBytes).length ∧ (x.drop chunkBytes).length ≤ chunkBytes * (n + 1) := by
  refine ⟨laterChunks x - 1, ?_⟩
  rw [List.length_drop]
  simp only [laterChunks, chunkBytes] at h ⊢
  omega

section
variable {p : Bytes → Bytes} {r : Nat} {k : Coord}

/-! ### The first chunk -/

/-- Bytes that fit the first chunk are absorbed by the root (R212). -/
theorem treeAbsorb_first {s : List Byte} (h : k.t.firstCount + s.length ≤ chunkBytes) : treeAbsorb p r k s =
    { k with ctx := absorbBytes p r k.ctx s, t := { k.t with firstCount := k.t.firstCount + s.length } } := by
  induction s generalizing k with
  | nil => rfl
  | cons d s ih =>
    rw [List.length_cons] at h
    rw [treeAbsorb_cons, treeAbsorbByte, if_pos (by omega), ih (by dsimp only; omega), List.length_cons,
      Nat.add_comm s.length, ← Nat.add_assoc]
    rfl

/-! ### One leaf -/

theorem markRoot_of_inTree (h : k.t.inTree = true) : markRoot p r k = k.ctx := if_pos h

theorem markRoot_of_not_inTree (h : k.t.inTree = false) : markRoot p r k = absorbBytes p r k.ctx chunkMarker := by
  simp [markRoot, h]

/-- What the coordinator holds once the open leaf took the bytes, before it closes (R212, R215). -/
def Coord.fillLeaf (p : Bytes → Bytes) (r : Nat) (k : Coord) (s : List Byte) : Coord :=
  { ctx := markRoot p r k, leaf := absorbBytes p r k.leaf s, t := { k.t with leafCount := k.t.leafCount + s.length } }

theorem leafByte_eq (d : Byte) : leafByte p r k d =
    if k.t.leafCount + 1 = chunkBytes then closeLeaf p r (k.fillLeaf p r [d]) else k.fillLeaf p r [d] := rfl

/-- The marker goes in before the first byte of a leaf only, so the bytes after it find the root marked. -/
theorem Coord.fillLeaf_fillLeaf (d : Byte) (s : List Byte) :
    (k.fillLeaf p r [d]).fillLeaf p r s = k.fillLeaf p r (d :: s) := by
  have hmarked : markRoot p r (k.fillLeaf p r [d]) = markRoot p r k :=
    markRoot_of_inTree (TreeState.inTree_iff.2 (.inr (Nat.succ_pos _)))
  rw [fillLeaf, hmarked]
  simp [fillLeaf, Nat.add_assoc, Nat.add_comm 1]

/-- Bytes that fit the open leaf fill it, and close it if they fill it up (R212). -/
theorem treeAbsorb_leaf {s : List Byte} (hne : s ≠ []) (hfirst : k.t.firstCount = chunkBytes)
    (hfits : k.t.leafCount + s.length ≤ chunkBytes) : treeAbsorb p r k s =
    if k.t.leafCount + s.length = chunkBytes then closeLeaf p r (k.fillLeaf p r s) else k.fillLeaf p r s := by
  induction s generalizing k with
  | nil => exact absurd rfl hne
  | cons d s ih =>
    have hbyte : treeAbsorbByte p r k d = leafByte p r k d := if_neg (by omega)
    rw [treeAbsorb_cons, hbyte, leafByte_eq]
    cases s with
    | nil => rfl
    | cons e s =>
      have hcount : (k.fillLeaf p r [d]).t.leafCount + (e :: s).length = k.t.leafCount + (d :: e :: s).length := by
        simp only [Coord.fillLeaf, List.length_cons, List.length_nil]
        omega
      have hroom : k.t.leafCount + 1 ≠ chunkBytes := by
        simp only [List.length_cons] at hfits
        omega
      rw [if_neg hroom, ih (k := k.fillLeaf p r [d]) (List.cons_ne_nil e s) hfirst (hcount.symm ▸ hfits), hcount,
        Coord.fillLeaf_fillLeaf]

/-- However full a leaf is, the bytes it took are closed once: by the last of them or after it (R212, R217). -/
theorem closeOpenLeaf_treeAbsorb_leaf {s : List Byte} (hne : s ≠ []) (hfirst : k.t.firstCount = chunkBytes)
    (hfits : k.t.leafCount + s.length ≤ chunkBytes) :
    closeOpenLeaf p r (treeAbsorb p r k s) = closeLeaf p r (k.fillLeaf p r s) := by
  rw [treeAbsorb_leaf hne hfirst hfits]
  split
  case isTrue => rfl
  case isFalse =>
    exact if_pos (Nat.add_pos_right _ (List.length_pos_iff.2 hne))

/-- The chaining value of a leaf is `F(S_i, 0x0B, 32)` (R216, R221). -/
theorem chainingValue_absorbBytes (s : List Byte) :
    chainingValue p r (absorbBytes p r Sponge.zero s) = spongeOutput p r s 0x0B cvLen := by
  rw [chainingValue, delimited_suffixLeaf, spongeOutput]

/-! ### Whole leaves -/

/-- A coordinator between two leaves: the first chunk is full and no leaf is open. -/
structure Coord.BetweenLeaves (k : Coord) : Prop where
  firstCount : k.t.firstCount = chunkBytes
  leafCount : k.t.leafCount = 0
  leaf : k.leaf = Sponge.zero

/-- The coordinator after leaves closed with the given chaining values: the root, marked, absorbed them, and they are
counted (R216). -/
def Coord.addValues (p : Bytes → Bytes) (r : Nat) (k : Coord) (values : List (List Byte)) : Coord :=
  { k with ctx := absorbBytes p r (markRoot p r k) values.flatten, t := { k.t with nLeaves := k.t.nLeaves + values.length } }

theorem Coord.BetweenLeaves.addValues (h : k.BetweenLeaves) (values : List (List Byte)) :
    (k.addValues p r values).BetweenLeaves := ⟨h.firstCount, h.leafCount, h.leaf⟩

theorem Coord.addValues_addValues (v : List Byte) (values : List (List Byte)) :
    (k.addValues p r [v]).addValues p r values = k.addValues p r (v :: values) := by
  have hmarked : markRoot p r (k.addValues p r [v]) = absorbBytes p r (markRoot p r k) [v].flatten :=
    markRoot_of_inTree (TreeState.inTree_iff.2 (.inl (Nat.succ_pos _)))
  rw [addValues, hmarked, ← absorbBytes_append]
  simp [addValues, Nat.add_assoc, Nat.add_comm 1]

/-- Between two leaves, the bytes of one leaf close with the chaining value of those bytes. -/
theorem Coord.BetweenLeaves.closeLeaf_fillLeaf (h : k.BetweenLeaves) (s : List Byte) :
    closeLeaf p r (k.fillLeaf p r s) = k.addValues p r [spongeOutput p r s 0x0B cvLen] := by
  have hvalue : chainingValue p r (k.fillLeaf p r s).leaf = spongeOutput p r s 0x0B cvLen := by
    rw [fillLeaf, h.leaf, chainingValue_absorbBytes]
  rw [closeLeaf, hvalue, Coord.addValues, List.flatten_singleton, h.leaf, ← h.leafCount]
  rfl

theorem Coord.BetweenLeaves.absorb_leaf (h : k.BetweenLeaves) {s : List Byte} (hne : s ≠ [])
    (hfits : s.length ≤ chunkBytes) :
    closeOpenLeaf p r (treeAbsorb p r k s) = k.addValues p r [spongeOutput p r s 0x0B cvLen] := by
  have hcount : k.t.leafCount + s.length ≤ chunkBytes := by rwa [h.leafCount, Nat.zero_add]
  rw [closeOpenLeaf_treeAbsorb_leaf hne h.firstCount hcount, h.closeLeaf_fillLeaf]

theorem Coord.BetweenLeaves.absorb_full_leaf (h : k.BetweenLeaves) {s : List Byte} (hfull : s.length = chunkBytes) :
    treeAbsorb p r k s = k.addValues p r [spongeOutput p r s 0x0B cvLen] := by
  have hne : s ≠ [] := List.ne_nil_of_length_pos (hfull ▸ Nat.succ_pos _)
  have hcount : k.t.leafCount + s.length = chunkBytes := by rwa [h.leafCount, Nat.zero_add]
  rw [treeAbsorb_leaf hne h.firstCount hcount.le, if_pos hcount, h.closeLeaf_fillLeaf]

end

/-! ### The whole input -/

/-- Between two leaves, `n` full chunks and one more that is not empty close into their chaining values in order. -/
theorem Coord.BetweenLeaves.absorb_leaves {k : Coord} (h : k.BetweenLeaves) {n : Nat} {y : List Byte}
    (hlow : chunkBytes * n < y.length) (hhigh : y.length ≤ chunkBytes * (n + 1)) :
    closeOpenLeaf treePerm treeRate (treeAbsorb treePerm treeRate k y) =
      k.addValues treePerm treeRate ((List.range (n + 1)).map (chunkValue y)) := by
  induction n generalizing k y with
  | zero =>
    have hone : chunk y 0 = y := List.take_of_length_le hhigh
    have hne : y ≠ [] := List.ne_nil_of_length_pos hlow
    rw [h.absorb_leaf hne hhigh]
    simp [chunkValue, hone]
  | succ n ih =>
    rw [Nat.mul_succ] at hlow hhigh
    have hfull : (chunk y 0).length = chunkBytes := List.length_take_of_le (by rw [Nat.mul_zero, List.drop_zero]; omega)
    have hrest := ih (h.addValues (p := treePerm) (r := treeRate) [chunkValue y 0]) (y := y.drop chunkBytes)
      (by rw [List.length_drop]; omega) (by rw [List.length_drop]; omega)
    calc closeOpenLeaf treePerm treeRate (treeAbsorb treePerm treeRate k y)
      _ = closeOpenLeaf treePerm treeRate
            (treeAbsorb treePerm treeRate (treeAbsorb treePerm treeRate k (chunk y 0)) (y.drop chunkBytes)) := by
          rw [← treeAbsorb_append, chunk_append_drop]
      _ = (k.addValues treePerm treeRate [chunkValue y 0]).addValues treePerm treeRate
            ((List.range (n + 1)).map (chunkValue (y.drop chunkBytes))) := by
          rw [h.absorb_full_leaf hfull, ← hrest, chunkValue]
      _ = k.addValues treePerm treeRate ((List.range (n + 1 + 1)).map (chunkValue y)) := by
          rw [Coord.addValues_addValues, chunkValue_drop, List.range_succ_eq_map (n := n + 1), List.map_cons, List.map_map]
          rfl

/-- The coordinator of a fresh context (R40). -/
def Coord.zero : Coord := { ctx := Sponge.zero, leaf := Sponge.zero, t := TreeState.zero }

/-- An input that fits the first chunk is absorbed by the root alone, and nothing is in the tree. -/
theorem treeAbsorb_zero {s : List Byte} (h : s.length ≤ chunkBytes) : treeAbsorb treePerm treeRate Coord.zero s =
    { ctx := absorbBytes treePerm treeRate Sponge.zero s, leaf := Sponge.zero
      t := { phase := .collecting, firstCount := s.length, leafCount := 0, nLeaves := 0 } } := by
  rw [treeAbsorb_first (by simpa [Coord.zero, TreeState.zero] using h)]
  simp [Coord.zero, TreeState.zero]

/-- The coordinator once an input of several chunks is absorbed and its last leaf closed: the root holds the final node up
to the chaining values (R213, R221). -/
theorem closeOpenLeaf_treeAbsorb_zero {x : List Byte} (h : chunkBytes < x.length) :
    closeOpenLeaf treePerm treeRate (treeAbsorb treePerm treeRate Coord.zero x) =
      { ctx := absorbBytes treePerm treeRate Sponge.zero (chunk x 0 ++ chunkMarker ++ (laterValues x).flatten)
        leaf := Sponge.zero
        t := { phase := .collecting, firstCount := chunkBytes, leafCount := 0, nLeaves := laterChunks x } } := by
  have hfirst : (chunk x 0).length = chunkBytes := List.length_take_of_le h.le
  have hroot := treeAbsorb_zero hfirst.le
  have hbetween : (treeAbsorb treePerm treeRate Coord.zero (chunk x 0)).BetweenLeaves := by
    rw [hroot]
    exact ⟨hfirst, rfl, rfl⟩
  obtain ⟨n, hn, hlow, hhigh⟩ := exists_laterChunks_eq_succ h
  calc closeOpenLeaf treePerm treeRate (treeAbsorb treePerm treeRate Coord.zero x)
    _ = closeOpenLeaf treePerm treeRate (treeAbsorb treePerm treeRate
          (treeAbsorb treePerm treeRate Coord.zero (chunk x 0)) (x.drop chunkBytes)) := by
        rw [← treeAbsorb_append, chunk_append_drop]
    _ = (treeAbsorb treePerm treeRate Coord.zero (chunk x 0)).addValues treePerm treeRate (laterValues x) := by
        rw [hbetween.absorb_leaves hlow hhigh, chunkValue_drop, laterValues, hn]
    _ = _ := by
        rw [hroot, Coord.addValues, markRoot_of_not_inTree rfl, laterValues_length, hfirst, absorbBytes_append,
          absorbBytes_append]
        simp

/-! ### The output (R221) -/

/-- One chunk is padded alone: the single path (R217). -/
theorem treeFinish_of_one_chunk {x : List Byte} (h : x.length ≤ chunkBytes) :
    treeFinish treePerm treeRate (treeAbsorb treePerm treeRate Coord.zero x) =
      { ctx := pad treePerm treeRate (absorbBytes treePerm treeRate Sponge.zero x) 0x07
        leaf := Sponge.zero
        t := { phase := .finalSingle, firstCount := x.length, leafCount := 0, nLeaves := 0 } } := by
  rw [treeAbsorb_zero h, treeFinish_single rfl]

/-- Several chunks end in the padded final node: the tree path (R217, R220). -/
theorem treeFinish_of_several_chunks {x : List Byte} (h : chunkBytes < x.length) :
    treeFinish treePerm treeRate (treeAbsorb treePerm treeRate Coord.zero x) =
      { ctx := pad treePerm treeRate (absorbBytes treePerm treeRate Sponge.zero (finalNode x (laterValues x))) 0x06
        leaf := Sponge.zero
        t := { phase := .finalTree, firstCount := chunkBytes, leafCount := 0, nLeaves := laterChunks x } } := by
  have hclosed := closeOpenLeaf_treeAbsorb_zero h
  obtain ⟨n, hn, -, -⟩ := exists_laterChunks_eq_succ h
  have htree : (treeAbsorb treePerm treeRate Coord.zero x).t.inTree = true := by
    rw [← closeOpenLeaf_inTree (p := treePerm) (r := treeRate), hclosed, TreeState.inTree_iff]
    exact .inl (hn ▸ Nat.succ_pos n)
  rw [treeFinish_tree htree, hclosed, ← absorbBytes_append, ← List.append_assoc]
  rfl

/-- `TreeFinish` counts every chunk after the first. -/
theorem treeFinish_nLeaves (x : List Byte) :
    (treeFinish treePerm treeRate (treeAbsorb treePerm treeRate Coord.zero x)).t.nLeaves = laterChunks x := by
  rcases le_or_gt x.length chunkBytes with h | h
  · rw [treeFinish_of_one_chunk h, laterChunks_eq_zero h]
  · rw [treeFinish_of_several_chunks h]

/-- Squeezing what `TreeFinish` leaves is the closed form. -/
theorem squeezeBytes_treeFinish (x : List Byte) (m : Nat) :
    (squeezeBytes treePerm treeRate m (treeFinish treePerm treeRate (treeAbsorb treePerm treeRate Coord.zero x)).ctx).1 =
      treeOutput x (laterValues x) m := by
  unfold treeOutput
  split
  case isTrue h => rw [treeFinish_of_one_chunk h, spongeOutput]
  case isFalse h => rw [treeFinish_of_several_chunks (Nat.lt_of_not_le h), spongeOutput]

/-- A tree context answers a message with what its coordinator makes of it, as long as the chunk counter fits at the end:
it never falls, so it fits after `ABSORB` too (R45, R160, R163, R166). -/
theorem runAll_tree_message {s : State} (hf : s.fault = false) (hv : s.cfgValid = true) (hm : s.mode = .absorbing)
    (hd : s.cfg.dom = .tree) {x : List Byte} (len : BitVec 28)
    (hfits : (treeFinish s.perm s.rate (treeAbsorb s.perm s.rate s.coord x)).t.nLeaves < 2 ^ s.params.treeCountBits) :
    ∃ t, runAll [.absorb x, .finish, .squeeze len] s = .next t ∧ t.response = some ⟨.ok,
      (squeezeBytes s.perm s.rate len.toNat (treeFinish s.perm s.rate (treeAbsorb s.perm s.rate s.coord x)).ctx).1⟩ := by
  have hroom : s.HasRoom x := .inr (Nat.lt_of_le_of_lt nLeaves_le_treeFinish hfits)
  have habsorb : exec (.absorb x) s = _ := execAbsorb_of_hasRoom hf hv hm hd hroom
  have hfinish : exec .finish (s.absorbTree x) = _ := execFinish_tree_fits hf hv hm hd hfits
  have hsqueeze (k : Coord) :
      exec (.squeeze len) (((s.absorbTree x).withTree k.ctx k.leaf k.t).startSqueezing.respond .ok []) = _ :=
    execSqueeze_ok len hf hv rfl
  rw [runAll_cons habsorb, runAll_cons hfinish, runAll_cons (hsqueeze _)]
  exact ⟨_, rfl, rfl⟩

/-- The permutation of tree mode does not depend on the byte order of Ascon (R210). -/
theorem perm_of_tree_cfg {s : State} (h : s.cfg = ⟨.k1600, .tree, 12, 168⟩) : s.perm = treePerm := by
  rw [State.perm, h]
  rfl

/-- Settles O50: `CONFIG` leaves a tree context of zeros, whose coordinator makes the closed form of the message. -/
theorem treeOutputClosedForm : Obligations.TreeOutputClosedForm := by
  intro s x len hf hfits
  have hconfig : exec (.config 0 .tree 12 168) s = _ :=
    execConfig_ok (v := .k1600) (dom := .tree) (rounds := 12) (rate := 168) hf (by decide)
  have hmessage := runAll_tree_message (s := (s.construct ⟨.k1600, .tree, 12, 168⟩).respond .ok []) (x := x)
    rfl rfl rfl rfl len
  rw [perm_of_tree_cfg rfl, show State.rate _ = treeRate from rfl, show State.coord _ = Coord.zero from rfl,
    treeFinish_nLeaves, squeezeBytes_treeFinish] at hmessage
  rw [runAll_cons hconfig]
  exact hmessage hfits

end Sys2Proof.Machine
end

