-- ==== Sys2Proof/Proofs/LeafOrder.lean ====
section
/-! Proofs: neither the order in which chunks complete nor the number of leaf workers shows (R225, R226, R67). -/

namespace Sys2Proof.Machine

/-! ### LEAF_WORKERS: the checks of a command are those of a block with another number of workers, and so is each answer -/

/-- The same outcome, of a block with another number of leaf workers. -/
def outcomeWithWorkers (n : Nat) : Host.Outcome State Fault Refusal → Host.Outcome State Fault Refusal
  | .next t => .next (t.withWorkers n)
  | .fault r => .fault r
  | .refused r => .refused r

section
variable (s : State) (n : Nat)

theorem execConfig_withWorkers (var : BitVec 3) (dom : Dom) (rounds : BitVec 5) (rate : BitVec 8) :
    execConfig var dom rounds rate (s.withWorkers n) = outcomeWithWorkers n (execConfig var dom rounds rate s) := by
  unfold execConfig
  cases variantOf var with
  | none => simp only [apply_ite (outcomeWithWorkers n)]; rfl
  | some v => simp only [apply_ite (outcomeWithWorkers n)]; rfl

theorem execReset_withWorkers : execReset (s.withWorkers n) = outcomeWithWorkers n (execReset s) := by
  simp only [execReset, apply_ite (outcomeWithWorkers n)]
  rfl

theorem execSqueeze_withWorkers (len : BitVec 28) :
    execSqueeze len (s.withWorkers n) = outcomeWithWorkers n (execSqueeze len s) := by
  simp only [execSqueeze, apply_ite (outcomeWithWorkers n)]
  rfl

theorem absorbCustom_withWorkers (name cust : List Byte) :
    absorbCustom name cust (s.withWorkers n) = (absorbCustom name cust s).withWorkers n := by
  simp only [absorbCustom, apply_ite (State.withWorkers · n)]
  rfl

theorem execCustom_withWorkers (name cust : List Byte) :
    execCustom name cust (s.withWorkers n) = outcomeWithWorkers n (execCustom name cust s) := by
  simp only [execCustom, apply_ite (outcomeWithWorkers n), absorbCustom_withWorkers]
  rfl

theorem execPermute_withWorkers (var : BitVec 3) (rounds : BitVec 5) (input : List Byte) :
    execPermute var rounds input (s.withWorkers n) = outcomeWithWorkers n (execPermute var rounds input s) := by
  unfold execPermute
  cases variantOf var with
  | none => simp only [apply_ite (outcomeWithWorkers n)]; rfl
  | some v => simp only [apply_ite (outcomeWithWorkers n)]; rfl

/-- The bound on the chunk counter does not depend on the workers (R45). -/
theorem adoptTree_withWorkers (k : Coord) :
    (s.withWorkers n).adoptTree k = (s.adoptTree k).map (State.withWorkers · n) := by
  simp only [State.adoptTree, apply_ite (Option.map (State.withWorkers · n))]
  rfl

theorem answerTree_withWorkers (n : Nat) (r : Option State) :
    answerTree (r.map (State.withWorkers · n)) = outcomeWithWorkers n (answerTree r) := by
  cases r <;> rfl

theorem absorbMessage_withWorkers (data : List Byte) :
    absorbMessage data (s.withWorkers n) = outcomeWithWorkers n (absorbMessage data s) := by
  unfold absorbMessage
  cases hd : s.cfg.dom with
  | hash | xof | custom => simp only [State.withWorkers_cfg, hd]; rfl
  | tree =>
    simp only [State.withWorkers_cfg, hd]
    rw [adoptTree_withWorkers, answerTree_withWorkers]
    rfl

theorem execAbsorb_withWorkers (data : List Byte) :
    execAbsorb data (s.withWorkers n) = outcomeWithWorkers n (execAbsorb data s) := by
  cases data with
  | nil => simp only [execAbsorb, apply_ite (outcomeWithWorkers n)]; rfl
  | cons d ds =>
    simp only [execAbsorb, apply_ite (outcomeWithWorkers n), absorbMessage_withWorkers]
    rfl

theorem finishMessage_withWorkers : finishMessage (s.withWorkers n) = outcomeWithWorkers n (finishMessage s) := by
  unfold finishMessage
  cases hd : s.cfg.dom with
  | hash | xof | custom => simp only [State.withWorkers_cfg, hd]; rfl
  | tree =>
    simp only [State.withWorkers_cfg, hd]
    rw [adoptTree_withWorkers, Option.map_map, ← answerTree_withWorkers, Option.map_map]
    rfl

theorem execFinish_withWorkers : execFinish (s.withWorkers n) = outcomeWithWorkers n (execFinish s) := by
  simp only [execFinish, apply_ite (outcomeWithWorkers n), finishMessage_withWorkers]
  rfl

theorem exec_withWorkers (i : Instr) : exec i (s.withWorkers n) = outcomeWithWorkers n (exec i s) := by
  cases i with
  | config var dom rounds rate => exact execConfig_withWorkers s n var dom rounds rate
  | absorb data => exact execAbsorb_withWorkers s n data
  | finish => exact execFinish_withWorkers s n
  | squeeze len => exact execSqueeze_withWorkers s n len
  | reset => exact execReset_withWorkers s n
  | custom name cust => exact execCustom_withWorkers s n name cust
  | permute var rounds input => exact execPermute_withWorkers s n var rounds input
  | drop | status => rfl

end

/-! ### The order of completion -/

/-- A worker completes chunk `i`: its chaining value goes into the chunk's slot (R226). -/
def fillSlot (x : List Byte) (slots : List (Option (List Byte))) (i : Nat) : List (Option (List Byte)) :=
  slots.set (i - 1) (some (chunkValue x i))

theorem slotsAfter_eq (x : List Byte) (order : List Nat) :
    slotsAfter x order = order.foldl (fillSlot x) (List.replicate (laterChunks x) none) := rfl

section
variable {x : List Byte} {slots : List (Option (List Byte))} {order : List Nat} {i j : Nat}

@[simp] theorem length_fillSlot : (fillSlot x slots i).length = slots.length := List.length_set

@[simp] theorem length_fillSlots : (order.foldl (fillSlot x) slots).length = slots.length := by
  induction order generalizing slots with
  | nil => rfl
  | cons i order ih => rw [List.foldl_cons, ih, length_fillSlot]

theorem getElem?_fillSlot_same (hj : j < slots.length) :
    (fillSlot x slots (j + 1))[j]? = some (some (chunkValue x (j + 1))) :=
  List.getElem?_set_self hj

theorem getElem?_fillSlot_ne (hi : 1 ≤ i) (hne : i ≠ j + 1) : (fillSlot x slots i)[j]? = slots[j]? :=
  List.getElem?_set_ne (by omega)

/-- A slot whose chunk is done, or will be, ends with that chunk's value: no other chunk writes it. -/
theorem getElem?_fillSlots (hpos : ∀ i ∈ order, 1 ≤ i) (hj : j < slots.length)
    (hdone : j + 1 ∈ order ∨ slots[j]? = some (some (chunkValue x (j + 1)))) :
    (order.foldl (fillSlot x) slots)[j]? = some (some (chunkValue x (j + 1))) := by
  induction order generalizing slots with
  | nil => exact hdone.resolve_left (List.not_mem_nil)
  | cons i order ih =>
    obtain ⟨hi, hpos⟩ := List.forall_mem_cons.1 hpos
    refine ih hpos (by rwa [length_fillSlot]) ?_
    by_cases hij : i = j + 1
    · subst hij
      exact .inr (getElem?_fillSlot_same hj)
    · rw [getElem?_fillSlot_ne hi hij]
      exact hdone.imp_left fun hmem => (List.mem_cons.1 hmem).resolve_left (Ne.symm hij)

end

/-- Every order that completes all later chunks fills the slots with their values in index order (R225, R226). -/
theorem foldSlots_slotsAfter {x : List Byte} {order : List Nat} (h : ∀ i, i ∈ order ↔ 1 ≤ i ∧ i ≤ laterChunks x) :
    foldSlots (slotsAfter x order) = laterValues x := by
  have hslots : slotsAfter x order = (List.range (laterChunks x)).map fun j => some (chunkValue x (j + 1)) := by
    rw [slotsAfter_eq]
    refine List.ext_getElem?' fun j hj => ?_
    have hlater : j < laterChunks x := by simpa using hj
    rw [getElem?_fillSlots (fun i hi => ((h i).1 hi).1) (by simpa using hlater)
      (.inl ((h (j + 1)).2 ⟨Nat.succ_pos j, hlater⟩))]
    simp [hlater]
  rw [hslots, foldSlots, List.map_map]
  rfl

/-- Settles O51: no command reads the number of workers; the slots hold the values of the closed form, whatever the
order, and the one-leaf machine answers with it. -/
theorem leafCompletionOrderIsInvisible : Obligations.LeafCompletionOrderIsInvisible := by
  refine ⟨fun i s n => ⟨fun t ht => ?_, fun r hr => ?_⟩, fun s x len order hf hfits horder => ?_⟩
  · rw [exec_withWorkers, ht, outcomeWithWorkers]
  · rw [exec_withWorkers, hr, outcomeWithWorkers]
  · rw [foldSlots_slotsAfter horder]
    exact treeOutputClosedForm s x len hf hfits

end Sys2Proof.Machine
end

