-- ==== Sys2Proof/Proofs/Errors.lean ====
section
/-! Proofs: the errors (60_exceptions.md). First every outcome a command can have, each with its reason, in one lemma
for all commands; then illegal words, the sticky fault, sequencing violations and the precision of errors. -/

namespace Sys2Proof.Machine

/-! ### The outcomes of a command -/

/-- The condition under which a command is in sequence (R244); `CONFIG`, `DROP`, `PERMUTE` and `STATUS` have none. -/
def inSequence : Instr → State → Bool
  | .absorb _, s | .finish, s => canAbsorb s
  | .squeeze _, s => canSqueeze s
  | .reset, s => s.cfgValid
  | .custom _ _, s => canCustom s
  | .config _ _ _ _, _ | .drop, _ | .permute _ _ _, _ | .status, _ => true

/-- Where a command can meet the bound of the chunk counter: `ABSORB` and `FINISH` of an unfaulted absorbing tree context
(R45). -/
structure AdvancesTree (i : Instr) (s : State) : Prop where
  fault : s.fault = false
  cfgValid : s.cfgValid = true
  mode : s.mode = .absorbing
  dom : s.cfg.dom = .tree
  instr : i = .finish ∨ ∃ data, i = .absorb data

/-- The outcomes a command can have, each with its reason, in the order of the checks (R250): the sticky fault, the
sequence, the operands. -/
inductive Ends (i : Instr) (s : State) : Host.Outcome State Fault Refusal → Prop where
  | faulted (hf : s.fault = true) : Ends i s (.next (s.raise .errFaulted))
  | outOfSequence (hf : s.fault = false) (hout : inSequence i s = false) : Ends i s (.next (s.raise .errSequence))
  | badOperand (st : Status) (hin : inSequence i s = true) (hst : st = .errConfig ∨ st = .errLength) :
      Ends i s (.next (s.raise st))
  | completed (u : State) (out : List Byte) (hin : inSequence i s = true) : Ends i s (.next (u.respond .ok out))
  | overflowed (htree : AdvancesTree i s) : Ends i s (.refused .treeCountOverflow)

theorem exec_of_not_inSequence {i : Instr} {s : State} (hf : s.fault = false) (hout : inSequence i s = false) :
    exec i s = .next (s.raise .errSequence) := by
  cases i with
  | absorb | finish | squeeze | reset | custom =>
    exact (if_neg (ne_true_of_eq_false hf)).trans (if_neg (ne_true_of_eq_false hout))
  | config | drop | permute | status => nomatch hout

theorem execConfig_ends {s : State} (var : BitVec 3) (dom : Dom) (rounds : BitVec 5) (rate : BitVec 8)
    (hf : s.fault = false) : Ends (.config var dom rounds rate) s (execConfig var dom rounds rate s) := by
  by_cases hlegal : LegalFields var.toNat dom rounds.toNat rate.toNat
  · obtain ⟨v, rfl⟩ := hlegal.exists_variant
    rw [execConfig_ok hf (cfgOk_iff_legalFields.2 hlegal)]
    exact .completed _ _ rfl
  · rw [execConfig_of_not_legalFields hf hlegal]
    exact .badOperand _ rfl (.inl rfl)

theorem execAbsorb_ends {s : State} (data : List Byte) (hf : s.fault = false) (hc : canAbsorb s = true) :
    Ends (.absorb data) s (execAbsorb data s) := by
  obtain ⟨hv, hm⟩ := (canAbsorb_iff s).1 hc
  by_cases hd : s.cfg.dom = .tree
  · by_cases hroom : s.HasRoom data
    · rw [execAbsorb_of_hasRoom hf hv hm hd hroom]
      exact .completed _ _ hc
    · rw [execAbsorb_of_not_hasRoom hf hv hm hd hroom]
      exact .overflowed ⟨hf, hv, hm, hd, .inr ⟨data, rfl⟩⟩
  · rw [execAbsorb_of_ne_tree hf hv hm hd]
    exact .completed (s.absorbRoot data) [] hc

theorem execFinish_ends {s : State} (hf : s.fault = false) (hc : canAbsorb s = true) :
    Ends .finish s (execFinish s) := by
  obtain ⟨hv, hm⟩ := (canAbsorb_iff s).1 hc
  by_cases hd : s.cfg.dom = .tree
  · rcases Nat.lt_or_ge (treeFinish s.perm s.rate s.coord).t.nLeaves (2 ^ s.params.treeCountBits) with hfits | hover
    · rw [execFinish_tree_fits hf hv hm hd hfits]
      exact .completed _ _ hc
    · rw [execFinish_tree_overflow hf hv hm hd hover]
      exact .overflowed ⟨hf, hv, hm, hd, .inl rfl⟩
  · rw [execFinish_plain hf hv hm hd]
    exact .completed _ _ hc

theorem execSqueeze_ends {s : State} (len : BitVec 28) (hf : s.fault = false) (hc : canSqueeze s = true) :
    Ends (.squeeze len) s (execSqueeze len s) := by
  obtain ⟨hv, hm⟩ := (canSqueeze_iff s).1 hc
  rw [execSqueeze_ok len hf hv hm]
  exact .completed _ _ hc

theorem execReset_ends {s : State} (hf : s.fault = false) (hv : s.cfgValid = true) : Ends .reset s (execReset s) := by
  rw [execReset_ok hf hv]
  exact .completed _ _ hv

theorem execCustom_ends {s : State} (name cust : List Byte) (hf : s.fault = false) (hc : canCustom s = true) :
    Ends (.custom name cust) s (execCustom name cust s) := by
  by_cases hempty : name.length + cust.length = 0
  · rw [execCustom_empty hf hc hempty]
    exact .completed _ _ hc
  · rw [execCustom_nonempty hf hc hempty]
    exact .completed _ _ hc

theorem exec_permute_ends {s : State} (var : BitVec 3) (rounds : BitVec 5) (input : List Byte) (hf : s.fault = false) :
    Ends (.permute var rounds input) s (exec (.permute var rounds input) s) := by
  cases hvar : variantOf var with
  | none =>
    rw [exec_permute_of_no_variant rounds input hf (variantOf_eq_none.1 hvar)]
    exact .badOperand _ rfl (.inl rfl)
  | some v =>
    obtain rfl := variantOf_eq_some.1 hvar
    rw [exec_permute_of_variant v rounds input hf]
    split_ifs
    · exact .completed _ _ rfl
    · exact .badOperand _ rfl (.inr rfl)
    · exact .badOperand _ rfl (.inl rfl)

/-- Every command in every state has one of the outcomes. -/
theorem exec_ends (i : Instr) (s : State) : Ends i s (exec i s) := by
  by_cases hexempt : i = .drop ∨ i = .status
  · obtain rfl | rfl := hexempt
    · exact .completed _ _ rfl
    · exact .completed _ _ rfl
  obtain ⟨hdrop, hstatus⟩ := not_or.1 hexempt
  cases hf : s.fault with
  | true =>
    rw [exec_of_fault hf hdrop hstatus]
    exact .faulted hf
  | false =>
    cases hin : inSequence i s with
    | false =>
      rw [exec_of_not_inSequence hf hin]
      exact .outOfSequence hf hin
    | true =>
      cases i with
      | config var dom rounds rate => exact execConfig_ends var dom rounds rate hf
      | absorb data => exact execAbsorb_ends data hf hin
      | finish => exact execFinish_ends hf hin
      | squeeze len => exact execSqueeze_ends len hf hin
      | reset => exact execReset_ends hf hin
      | custom name cust => exact execCustom_ends name cust hf hin
      | permute var rounds input => exact exec_permute_ends var rounds input hf
      | drop => exact absurd rfl hdrop
      | status => exact absurd rfl hstatus

/-- Settles O57: every outcome but the refusal is a next state with the response just given, and the refusal has the
conditions of R45. -/
theorem everyCommandAnswers : Obligations.EveryCommandAnswers := by
  intro i s
  have hends := exec_ends i s
  generalize exec i s = o at hends
  cases hends with
  | faulted hf => exact .inl ⟨_, _, rfl, rfl⟩
  | outOfSequence hf hout => exact .inl ⟨_, _, rfl, rfl⟩
  | badOperand st hin hst => exact .inl ⟨_, _, rfl, rfl⟩
  | completed u out hin => exact .inl ⟨_, _, rfl, rfl⟩
  | overflowed htree => exact .inr ⟨rfl, htree.fault, htree.cfgValid, htree.mode, htree.dom, htree.instr⟩

/-! ### Illegal words (R248) -/

theorem payload_eq_nil_of_decodeOp_error {c : Command} {e : Illegal} (h : decodeOp c.word = .error e) :
    c.payload = [] := by
  have hlen : payloadLen c.word = 0 := by simp only [payloadLen, h]
  exact List.eq_nil_of_length_eq_zero (c.sized.trans hlen)

theorem decode_of_decodeOp_error {c : Command} {e : Illegal} (h : decodeOp c.word = .error e) :
    decode c = .error e := by
  rw [decode_eq_map_instrOf, h]
  rfl

/-- Settles O4: a word no row selects is one the decoder rejects, and the answer does not look at the state. -/
theorem illegalWordIsAnswered : Obligations.IllegalWordIsAnswered := by
  intro c s rest hrows hpending
  obtain ⟨-, -, hillegal⟩ := rowsSelectByMatchAndMask
  obtain ⟨e, hrow⟩ := (hillegal c.word).1 hrows
  refine ⟨payload_eq_nil_of_decodeOp_error hrow, ?_⟩
  calc step s = runCommand c (s.pop rest) := step_of_pending_cons hpending
    _ = .next ((s.pop rest).raise .errIllegal) := runCommand_of_decode_error (decode_of_decodeOp_error hrow) _
    _ = .next { s with pending := rest, response := some ⟨.errIllegal, []⟩ } :=
      congrArg _ ((s.pop rest).raise_of_ne nofun)

/-! ### The sticky fault (R247) -/

/-- A command that clears the fault decodes to `DROP`: an illegal word writes the response only. -/
theorem decode_eq_drop_of_clears_fault {c : Command} {s t : State} (h : runCommand c s = .next t)
    (hs : s.fault = true) (ht : t.fault = false) : decode c = .ok .drop := by
  cases hdecode : decode c with
  | ok i =>
    rw [runCommand_of_decode_ok hdecode] at h
    obtain ⟨-, honlyDrop⟩ := dropReturnsToPowerOn
    rw [honlyDrop i s t h hs ht]
  | error e =>
    rw [runCommand_of_decode_error hdecode] at h
    cases h
    rw [State.raise_fault, hs, Bool.true_or] at ht
    cases ht

theorem exec_of_fault_eq {i : Instr} {s : State} (hf : s.fault = true) (hdrop : i ≠ .drop) (hstatus : i ≠ .status) :
    exec i s = .next { s with response := some ⟨.errFaulted, []⟩ } :=
  (exec_of_fault hf hdrop hstatus).trans (congrArg _ (s.raise_of_ne nofun))

/-- Settles O54: the answer to a command while the fault is set, the fault bit of the status word, and the two events that
clear the fault. -/
theorem faultIsSticky : Obligations.FaultIsSticky := by
  refine ⟨fun i s => exec_of_fault_eq, ?step, ?status, ?drop, ?hardwareReset, ?cleared⟩
  case step =>
    intro c i s rest hpending hdecode hf hdrop hstatus
    exact (stepRunsDecodedCommand s c rest i hpending hdecode).trans (exec_of_fault_eq hf hdrop hstatus)
  case status =>
    intro s hf
    obtain ⟨out, hx, -, -, -, hbit, -⟩ := statusReportsTheWord s
    exact ⟨out, hx, hbit.trans (by rw [hf]; rfl)⟩
  case drop =>
    intro s
    exact ⟨_, rfl, rfl, rfl, rfl, State.erase_respond_fresh s _ _⟩
  case hardwareReset =>
    intro s rest hpending
    exact ⟨_, step_of_pending_cons hpending, rfl⟩
  case cleared =>
    intro s t e rest hpending hstep hs ht
    rw [step_of_pending_cons hpending] at hstep
    cases e with
    | hardwareReset => exact .inl rfl
    | command c => exact .inr ⟨c, rfl, decode_eq_drop_of_clears_fault hstep hs ht⟩

/-! ### Sequencing violations (R244, R246) -/

theorem mode_ne_absorbing_iff {m : Mode} : m ≠ .absorbing ↔ m = .squeezing := by cases m <;> decide

theorem mode_ne_squeezing_iff {m : Mode} : m ≠ .squeezing ↔ m = .absorbing := by cases m <;> decide

theorem canAbsorb_eq_false_iff {s : State} : canAbsorb s = false ↔ s.cfgValid = false ∨ s.mode = .squeezing := by
  rw [← Bool.not_eq_true, canAbsorb_iff, not_and_or, Bool.not_eq_true, ← ne_eq, mode_ne_absorbing_iff]

theorem canSqueeze_eq_false_iff {s : State} : canSqueeze s = false ↔ s.cfgValid = false ∨ s.mode = .absorbing := by
  rw [← Bool.not_eq_true, canSqueeze_iff, not_and_or, Bool.not_eq_true, ← ne_eq, mode_ne_squeezing_iff]

theorem canCustom_eq_false_iff {s : State} : canCustom s = false ↔ s.cfgValid = false ∨ s.cfg.dom ≠ .custom ∨
    s.mode = .squeezing ∨ s.msgStarted = true ∨ s.customDone = true := by
  simp only [← Bool.not_eq_true, canCustom_iff, not_and_or, ← mode_ne_absorbing_iff, ne_eq, not_not]

/-- `ERR_SEQUENCE` is answered for one reason only. -/
theorem exec_errSequence {i : Instr} {s t : State} {r : Response} (h : exec i s = .next t) (hr : t.response = some r)
    (hst : r.status = .errSequence) : s.fault = false ∧ inSequence i s = false := by
  have hends := exec_ends i s
  rw [h] at hends
  cases hends with
  | faulted hf => cases hr; cases hst
  | outOfSequence hf hout => exact ⟨hf, hout⟩
  | badOperand st hin hst' => cases hr; cases hst; simp at hst'
  | completed u out hin => cases hr; cases hst

/-- Without the fault, the violation is the outcome exactly when the command is out of sequence. -/
theorem exec_eq_violation_iff {s : State} (hf : s.fault = false) (i : Instr) :
    exec i s = .next { s with fault := true, response := some ⟨.errSequence, []⟩ } ↔ inSequence i s = false := by
  refine ⟨fun h => (exec_errSequence h rfl rfl).2, fun hout => ?_⟩
  exact (exec_of_not_inSequence hf hout).trans (congrArg _ s.raise_errSequence)

/-- Settles O55: the violation is the outcome of the commands out of sequence, and of no command that is always in
sequence; the step takes the command off with its payload. -/
theorem sequencingViolations : Obligations.SequencingViolations := by
  obtain ⟨-, -, hconsumed⟩ := payloadLengthOfWord
  refine ⟨?violation, ?only, hconsumed⟩
  case violation =>
    intro s hf
    exact ⟨fun data => (exec_eq_violation_iff hf _).trans canAbsorb_eq_false_iff,
      (exec_eq_violation_iff hf _).trans canAbsorb_eq_false_iff,
      fun len => (exec_eq_violation_iff hf _).trans canSqueeze_eq_false_iff,
      exec_eq_violation_iff hf _,
      fun name cust => (exec_eq_violation_iff hf _).trans canCustom_eq_false_iff⟩
  case only =>
    intro i s t r h hr hst
    obtain ⟨-, hout⟩ := exec_errSequence h hr hst
    cases i with
    | absorb data => exact .inl ⟨data, rfl⟩
    | finish => exact .inr (.inl rfl)
    | squeeze len => exact .inr (.inr (.inl ⟨len, rfl⟩))
    | reset => exact .inr (.inr (.inr (.inl rfl)))
    | custom name cust => exact .inr (.inr (.inr (.inr ⟨name, cust, rfl⟩)))
    | config | drop | permute | status => nomatch hout

/-! ### Precision (R251) -/

/-- An error writes the response, and the fault if it is `ErrSequence`. -/
theorem State.raise_eq_of_response {s : State} {st : Status} {r : Response} (hr : (s.raise st).response = some r) :
    s.raise st = { s with fault := s.fault || decide (r.status = .errSequence), response := some r } := by
  cases hr
  rfl

theorem exec_precise {i : Instr} {s t : State} {r : Response} (h : exec i s = .next t) (hr : t.response = some r)
    (herr : r.status ≠ .ok) :
    t = { s with fault := s.fault || decide (r.status = .errSequence), response := some r } := by
  cases exec_answered h with
  | raised st hst hi => exact State.raise_eq_of_response hr
  | completed u out hpending hlen => cases hr; exact absurd rfl herr

/-- Settles O56: a command that does not answer `OK` has raised an error, and so has an illegal word. -/
theorem errorsArePrecise : Obligations.ErrorsArePrecise := by
  refine ⟨fun i s t r => exec_precise, fun c s t r h hr herr => ?_⟩
  cases hdecode : decode c with
  | ok i =>
    rw [runCommand_of_decode_ok hdecode] at h
    exact exec_precise h hr herr
  | error e =>
    rw [runCommand_of_decode_error hdecode] at h
    cases h
    exact State.raise_eq_of_response hr

end Sys2Proof.Machine
end

