-- ==== Sys2Proof/Proofs/PowerOn.lean ====
section
/-! Proofs: the waiting step (log 2), hardware reset (R270), and what the first command after power-on does (R271). -/

namespace Sys2Proof.Machine

/-- Settles O10: the waiting step, by its equation. -/
theorem stepWaitsWithoutEvents : Obligations.StepWaitsWithoutEvents := fun _ => step_of_pending_nil

/-- Hardware reset leaves what `DROP` leaves, but for the response (R270). -/
theorem takeReset_eq_erase (s : State) : takeReset s = { s.erase with response := none } := rfl

/-- Settles O11: the step takes the reset, which leaves a fresh state. -/
theorem hardwareResetZeroesEverything : Obligations.HardwareResetZeroesEverything := by
  intro s rest hpending
  exact ⟨_, step_of_pending_cons hpending, rfl, rfl, rfl, rfl, rfl, rfl, takeReset_fresh (s.pop rest),
    (s.pop rest).erase.respond .ok [], rfl, takeReset_eq_erase (s.pop rest)⟩

/-- Settles O12: no context exists and no fault is set, so `CONFIG` and `PERMUTE` check their operands only, and the five
commands that need a context are out of sequence. -/
theorem firstCommandAfterPowerOn : Obligations.FirstCommandAfterPowerOn := by
  intro p q s
  refine ⟨?status, rfl, ?permute, ?config, fun data => (exec_eq_violation_iff rfl _).2 rfl,
    (exec_eq_violation_iff rfl _).2 rfl, fun len => (exec_eq_violation_iff rfl _).2 rfl,
    (exec_eq_violation_iff rfl _).2 rfl, fun name cust => (exec_eq_violation_iff rfl _).2 rfl⟩
  case status =>
    exact congrArg (fun out => Host.Outcome.next (s.respond .ok out)) (statusBytes_erase_respond s .ok [])
  case permute =>
    intro v rounds input hlow hhigh hlen
    refine ⟨permuteOutput p.asconOrder v rounds.toNat input, (exec_permute_of_variant v rounds input rfl).trans ?_⟩
    rw [if_pos (roundsOk_iff.2 ⟨hlow, hhigh⟩), if_pos hlen]
    rfl
  case config =>
    intro c hc
    exact ⟨_, execConfig_ok rfl hc, rfl, rfl, rfl⟩

end Sys2Proof.Machine
end

