-- ==== Sys2Proof/Proofs/DataIndependence.lean ====
section
/-! Proofs: control never depends on a secret byte (R278). First what blanking does to the fields and the writes of the
state, then that sponges and the tree coordinator leave positions and counters that do not depend on the bytes, then each
command by the cases of its outcome. -/

namespace Sys2Proof.Machine

/-! ### The blanked state: its fields, and its writes -/

theorem Sponge.blank_congr {c d : Sponge} (h : c.pos = d.pos) : c.blank = d.blank :=
  congrArg (Sponge.mk (Vector.replicate 200 0)) h

@[simp] theorem Sponge.blank_pos (c : Sponge) : c.blank.pos = c.pos := rfl

/-- Padding leaves position 0, and the bytes are blanked (R150). -/
@[simp] theorem pad_blank (p : Bytes → Bytes) (r : Nat) (c : Sponge) (d : Byte) : (pad p r c d).blank = Sponge.zero := rfl

@[simp] theorem Response.blank_blank (r : Response) : r.blank.blank = r.blank := by simp [Response.blank]

@[simp] theorem State.blank_blank (s : State) : s.blank.blank = s.blank := by
  have hresponse : (s.response.map Response.blank).map Response.blank = s.response.map Response.blank := by
    cases s.response <;> simp
  rw [State.blank, State.blank, hresponse]
  rfl

@[simp] theorem State.blank_params (s : State) : s.blank.params = s.params := rfl
@[simp] theorem State.blank_perm (s : State) : s.blank.perm = s.perm := rfl
@[simp] theorem State.blank_rate (s : State) : s.blank.rate = s.rate := rfl
@[simp] theorem State.blank_ctx (s : State) : s.blank.ctx = s.ctx.blank := rfl

@[simp] theorem State.raise_blank (s : State) (st : Status) : (s.raise st).blank = s.blank.raise st := rfl
@[simp] theorem State.respond_blank (s : State) (st : Status) (out : List Byte) :
    (s.respond st out).blank = s.blank.respond st (List.replicate out.length 0) := rfl
@[simp] theorem State.construct_blank (s : State) (c : Cfg) : (s.construct c).blank = s.blank.construct c := rfl
@[simp] theorem State.restart_blank (s : State) : s.restart.blank = s.blank.restart := rfl
@[simp] theorem State.withCtx_blank (s : State) (c : Sponge) : (s.withCtx c).blank = s.blank.withCtx c.blank := rfl
@[simp] theorem State.markCustom_blank (s : State) : s.markCustom.blank = s.blank.markCustom := rfl
@[simp] theorem State.activateCustom_blank (s : State) : s.activateCustom.blank = s.blank.activateCustom := rfl
@[simp] theorem State.startSqueezing_blank (s : State) : s.startSqueezing.blank = s.blank.startSqueezing := rfl
@[simp] theorem State.withTree_blank (s : State) (c l : Sponge) (t : TreeState) :
    (s.withTree c l t).blank = s.blank.withTree c.blank l.blank t := rfl

/-! ### The tree coordinator -/

/-- Two coordinators that differ in state bytes only. -/
structure Coord.Alike (k m : Coord) : Prop where
  ctxPos : k.ctx.pos = m.ctx.pos
  leafPos : k.leaf.pos = m.leaf.pos
  t : k.t = m.t

theorem State.coord_blank_alike (s : State) : s.blank.coord.Alike s.coord := ⟨rfl, rfl, rfl⟩

theorem State.withTree_blank_congr (s : State) {k m : Coord} (h : k.Alike m) :
    (s.blank.withTree k.ctx k.leaf k.t).blank = (s.withTree m.ctx m.leaf m.t).blank := by
  simp [Sponge.blank_congr h.ctxPos, Sponge.blank_congr h.leafPos, h.t]

section
variable {p : Bytes → Bytes} {r : Nat} {k m : Coord}

/-- A closed leaf gives the root `CVLEN` bytes, whatever they are (R216). -/
theorem Coord.Alike.closeLeaf (h : k.Alike m) : (closeLeaf p r k).Alike (closeLeaf p r m) where
  ctxPos := absorbBytes_pos_congr h.ctxPos ((chainingValue_length _).trans (chainingValue_length _).symm)
  leafPos := rfl
  t := by rw [Machine.closeLeaf, Machine.closeLeaf, h.t]

theorem Coord.Alike.markRoot_pos (h : k.Alike m) : (markRoot p r k).pos = (markRoot p r m).pos := by
  unfold markRoot
  rw [h.t]
  split
  · exact h.ctxPos
  · exact absorbBytes_pos_congr h.ctxPos rfl

theorem Coord.Alike.fillLeaf (h : k.Alike m) {a b : List Byte} (hlen : a.length = b.length) :
    (k.fillLeaf p r a).Alike (m.fillLeaf p r b) where
  ctxPos := h.markRoot_pos
  leafPos := absorbBytes_pos_congr h.leafPos hlen
  t := by rw [Coord.fillLeaf, Coord.fillLeaf, h.t, hlen]

theorem Coord.Alike.leafByte (h : k.Alike m) (d e : Byte) : (leafByte p r k d).Alike (leafByte p r m e) := by
  have hfilled : (k.fillLeaf p r [d]).Alike (m.fillLeaf p r [e]) := h.fillLeaf rfl
  rw [leafByte_eq, leafByte_eq, h.t]
  split
  · exact hfilled.closeLeaf
  · exact hfilled

theorem Coord.Alike.treeAbsorbByte (h : k.Alike m) (d e : Byte) :
    (treeAbsorbByte p r k d).Alike (treeAbsorbByte p r m e) := by
  unfold Machine.treeAbsorbByte
  rw [h.t]
  split
  · exact ⟨absorbBytes_pos_congr (s := [d]) (u := [e]) h.ctxPos rfl, h.leafPos, rfl⟩
  · exact h.leafByte d e

theorem Coord.Alike.treeAbsorb (h : k.Alike m) {a b : List Byte} (hlen : a.length = b.length) :
    (treeAbsorb p r k a).Alike (treeAbsorb p r m b) := by
  induction a generalizing k m b with
  | nil =>
    obtain rfl := List.eq_nil_of_length_eq_zero hlen.symm
    exact h
  | cons d a ih => cases b with
    | nil => nomatch hlen
    | cons e b => exact ih (h.treeAbsorbByte d e) (Nat.succ.inj hlen)

theorem Coord.Alike.closeOpenLeaf (h : k.Alike m) : (closeOpenLeaf p r k).Alike (closeOpenLeaf p r m) := by
  unfold Machine.closeOpenLeaf
  rw [h.t]
  split
  · exact h.closeLeaf
  · exact h

/-- Both paths of `TreeFinish` end in a padding, which leaves position 0 (R217). -/
theorem Coord.Alike.treeFinish (h : k.Alike m) : (treeFinish p r k).Alike (treeFinish p r m) := by
  cases htree : m.t.inTree with
  | false =>
    rw [treeFinish_single htree, treeFinish_single (h.t.symm ▸ htree)]
    exact ⟨rfl, h.leafPos, by rw [h.t]⟩
  | true =>
    rw [treeFinish_tree htree, treeFinish_tree (h.t.symm ▸ htree)]
    exact ⟨rfl, h.closeOpenLeaf.leafPos, by rw [h.closeOpenLeaf.t]⟩

end

/-! ### The commands -/

/-- An outcome with the secret bytes of its next state blanked out. -/
def blankOutcome : Host.Outcome State Fault Refusal → Host.Outcome State Fault Refusal
  | .next s => .next s.blank
  | .fault e => .fault e
  | .refused e => .refused e

@[simp] theorem blankOutcome_next (s : State) : blankOutcome (.next s) = .next s.blank := rfl

theorem blankOutcome_eq_next {o : Host.Outcome State Fault Refusal} {t : State} (h : blankOutcome o = .next t) :
    ∃ u, o = .next u ∧ u.blank = t := by
  cases o with
  | next u => exact ⟨u, rfl, Host.Outcome.next.inj h⟩
  | fault e => nomatch h
  | refused e => nomatch h

theorem blankOutcome_eq_refused {o : Host.Outcome State Fault Refusal} {r : Refusal} (h : blankOutcome o = .refused r) :
    o = .refused r := by
  cases o with
  | next u => nomatch h
  | fault e => nomatch h
  | refused e => exact h

theorem execConfig_blank {s : State} (var : BitVec 3) (dom : Dom) (rounds : BitVec 5) (rate : BitVec 8)
    (hf : s.fault = false) :
    blankOutcome (execConfig var dom rounds rate s.blank) = blankOutcome (execConfig var dom rounds rate s) := by
  by_cases hlegal : LegalFields var.toNat dom rounds.toNat rate.toNat
  · obtain ⟨v, rfl⟩ := hlegal.exists_variant
    have hok := cfgOk_iff_legalFields.2 hlegal
    rw [execConfig_ok hf hok, execConfig_ok (s := s.blank) hf hok]
    simp
  · rw [execConfig_of_not_legalFields hf hlegal, execConfig_of_not_legalFields (s := s.blank) hf hlegal]
    simp

/-- Outside tree mode `ABSORB` moves the position by the number of payload bytes, and asks whether there are any. -/
theorem State.absorbRoot_blank_congr (s : State) {a b : List Byte} (hlen : a.length = b.length) :
    (s.blank.absorbRoot a).blank = (s.absorbRoot b).blank := by
  have hpos : (absorbBytes s.perm s.rate s.ctx.blank a).pos = (absorbBytes s.perm s.rate s.ctx b).pos :=
    absorbBytes_pos_congr s.ctx.blank_pos hlen
  have hempty : a.isEmpty = b.isEmpty := by
    rw [Bool.eq_iff_iff, List.isEmpty_iff_length_eq_zero, List.isEmpty_iff_length_eq_zero, hlen]
  calc (s.blank.absorbRoot a).blank
    _ = { s.blank with ctx := (absorbBytes s.perm s.rate s.ctx.blank a).blank,
                       msgStarted := s.msgStarted || !a.isEmpty, response := some ⟨.ok, []⟩ } := rfl
    _ = { s.blank with ctx := (absorbBytes s.perm s.rate s.ctx b).blank,
                       msgStarted := s.msgStarted || !b.isEmpty, response := some ⟨.ok, []⟩ } := by
        rw [Sponge.blank_congr hpos, hempty]

theorem State.treeAbsorb_blank_alike (s : State) {a b : List Byte} (hlen : a.length = b.length) :
    (treeAbsorb s.perm s.rate s.blank.coord a).Alike (treeAbsorb s.perm s.rate s.coord b) :=
  s.coord_blank_alike.treeAbsorb hlen

theorem State.absorbTree_blank_congr (s : State) {a b : List Byte} (hlen : a.length = b.length) :
    (s.blank.absorbTree a).blank = (s.absorbTree b).blank := by
  have htree := s.withTree_blank_congr (s.treeAbsorb_blank_alike hlen)
  exact congrArg (State.respond · .ok []) htree

theorem State.hasRoom_blank_congr (s : State) {a b : List Byte} (hlen : a.length = b.length) :
    s.blank.HasRoom a ↔ s.HasRoom b := by
  have hnil : a = [] ↔ b = [] := by rw [← List.length_eq_zero_iff, hlen, List.length_eq_zero_iff]
  have ht : (s.blank.absorbTree a).t = (s.absorbTree b).t := (s.treeAbsorb_blank_alike hlen).t
  rw [State.HasRoom, State.HasRoom, hnil, ht, State.blank_params]

theorem execAbsorb_blank {s : State} {a b : List Byte} (hlen : a.length = b.length) (hf : s.fault = false)
    (hc : canAbsorb s = true) : blankOutcome (execAbsorb a s.blank) = blankOutcome (execAbsorb b s) := by
  obtain ⟨hv, hm⟩ := (canAbsorb_iff s).1 hc
  by_cases hd : s.cfg.dom = .tree
  · by_cases hroom : s.HasRoom b
    · have hroom' := (s.hasRoom_blank_congr hlen).2 hroom
      rw [execAbsorb_of_hasRoom hf hv hm hd hroom, execAbsorb_of_hasRoom (s := s.blank) hf hv hm hd hroom']
      exact congrArg Host.Outcome.next (s.absorbTree_blank_congr hlen)
    · have hroom' := mt (s.hasRoom_blank_congr hlen).1 hroom
      rw [execAbsorb_of_not_hasRoom hf hv hm hd hroom, execAbsorb_of_not_hasRoom (s := s.blank) hf hv hm hd hroom']
  · rw [execAbsorb_of_ne_tree hf hv hm hd, execAbsorb_of_ne_tree (s := s.blank) hf hv hm hd]
    exact congrArg Host.Outcome.next (s.absorbRoot_blank_congr hlen)

theorem execFinish_blank {s : State} (hf : s.fault = false) (hc : canAbsorb s = true) :
    blankOutcome (execFinish s.blank) = blankOutcome (execFinish s) := by
  obtain ⟨hv, hm⟩ := (canAbsorb_iff s).1 hc
  by_cases hd : s.cfg.dom = .tree
  · have hk : (treeFinish s.perm s.rate s.blank.coord).Alike (treeFinish s.perm s.rate s.coord) :=
      s.coord_blank_alike.treeFinish
    rcases Nat.lt_or_ge (treeFinish s.perm s.rate s.coord).t.nLeaves (2 ^ s.params.treeCountBits) with hfits | hover
    · rw [execFinish_tree_fits hf hv hm hd hfits, execFinish_tree_fits (s := s.blank) hf hv hm hd (hk.t.symm ▸ hfits)]
      exact congrArg (fun u => Host.Outcome.next (u.startSqueezing.respond .ok [])) (s.withTree_blank_congr hk)
    · rw [execFinish_tree_overflow hf hv hm hd hover,
        execFinish_tree_overflow (s := s.blank) hf hv hm hd (hk.t.symm ▸ hover)]
  · rw [execFinish_plain hf hv hm hd, execFinish_plain (s := s.blank) hf hv hm hd]
    simp

theorem execSqueeze_blank {s : State} (len : BitVec 28) (hf : s.fault = false) (hc : canSqueeze s = true) :
    blankOutcome (execSqueeze len s.blank) = blankOutcome (execSqueeze len s) := by
  obtain ⟨hv, hm⟩ := (canSqueeze_iff s).1 hc
  have hpos : (squeezeBytes s.perm s.rate len.toNat s.ctx.blank).2.pos =
      (squeezeBytes s.perm s.rate len.toNat s.ctx).2.pos := squeezeBytes_pos_congr _ s.ctx.blank_pos
  rw [execSqueeze_ok len hf hv hm, execSqueeze_ok (s := s.blank) len hf hv hm]
  simp [Sponge.blank_congr hpos, squeezeBytes_length]

theorem execReset_blank {s : State} (hf : s.fault = false) (hv : s.cfgValid = true) :
    blankOutcome (execReset s.blank) = blankOutcome (execReset s) := by
  rw [execReset_ok hf hv, execReset_ok (s := s.blank) hf hv]
  simp

/-- What `CUSTOM` absorbs has a length that depends on the rate and on the lengths of the two strings only (R194). -/
theorem execCustom_blank {s : State} {name cust name' cust' : List Byte} (hname : name.length = name'.length)
    (hcust : cust.length = cust'.length) (hf : s.fault = false) (hc : canCustom s = true) :
    blankOutcome (execCustom name cust s.blank) = blankOutcome (execCustom name' cust' s) := by
  by_cases hempty : name'.length + cust'.length = 0
  · rw [execCustom_empty hf hc hempty, execCustom_empty (s := s.blank) hf hc (by rw [hname, hcust, hempty])]
    simp
  · have hpos : (absorbBytes s.perm s.rate s.ctx.blank (customPrefix name cust s.rate)).pos =
        (absorbBytes s.perm s.rate s.ctx (customPrefix name' cust' s.rate)).pos :=
      absorbBytes_pos_congr s.ctx.blank_pos (customPrefix_length_congr s.rate hname hcust)
    rw [execCustom_nonempty hf hc hempty, execCustom_nonempty (s := s.blank) hf hc (by rwa [hname, hcust])]
    simp [Sponge.blank_congr hpos]

theorem exec_permute_blank {s : State} (var : BitVec 3) (rounds : BitVec 5) {a b : List Byte}
    (hlen : a.length = b.length) (hf : s.fault = false) :
    blankOutcome (exec (.permute var rounds a) s.blank) = blankOutcome (exec (.permute var rounds b) s) := by
  cases hvar : variantOf var with
  | none =>
    have hnone := variantOf_eq_none.1 hvar
    rw [exec_permute_of_no_variant rounds b hf hnone, exec_permute_of_no_variant (s := s.blank) rounds a hf hnone]
    simp
  | some v =>
    obtain rfl := variantOf_eq_some.1 hvar
    rw [exec_permute_of_variant v rounds b hf, exec_permute_of_variant (s := s.blank) v rounds a hf, hlen]
    split_ifs <;> simp [permuteOutput_length]

theorem blank_eq_drop_iff {i : Instr} : i.blank = .drop ↔ i = .drop := by cases i <;> simp [Instr.blank]

theorem blank_eq_status_iff {i : Instr} : i.blank = .status ↔ i = .status := by cases i <;> simp [Instr.blank]

theorem inSequence_blank (i : Instr) (s : State) : inSequence i.blank s.blank = inSequence i s := by cases i <;> rfl

/-- The outcome of a command, blanked, is that of its blanked word and state: the fault and the sequence are looked at
first, and do not depend on a byte. -/
theorem exec_blank (i : Instr) (s : State) : blankOutcome (exec i.blank s.blank) = blankOutcome (exec i s) := by
  by_cases hexempt : i = .drop ∨ i = .status
  · obtain rfl | rfl := hexempt <;> rfl
  obtain ⟨hdrop, hstatus⟩ := not_or.1 hexempt
  cases hf : s.fault with
  | true =>
    rw [exec_of_fault hf hdrop hstatus, exec_of_fault (s := s.blank) hf (mt blank_eq_drop_iff.1 hdrop)
      (mt blank_eq_status_iff.1 hstatus)]
    simp
  | false =>
    cases hin : inSequence i s with
    | false =>
      rw [exec_of_not_inSequence hf hin, exec_of_not_inSequence (s := s.blank) hf ((inSequence_blank i s).trans hin)]
      simp
    | true =>
      cases i with
      | config var dom rounds rate => exact execConfig_blank var dom rounds rate hf
      | absorb data => exact execAbsorb_blank List.length_replicate hf hin
      | finish => exact execFinish_blank hf hin
      | squeeze len => exact execSqueeze_blank len hf hin
      | reset => exact execReset_blank hf hin
      | custom name cust => exact execCustom_blank List.length_replicate List.length_replicate hf hin
      | permute var rounds input => exact exec_permute_blank var rounds List.length_replicate hf
      | drop => exact absurd rfl hdrop
      | status => exact absurd rfl hstatus

/-- Settles O60: the blanked outcomes are equal, so both are next states, equal when blanked, or the same refusal. -/
theorem controlIsDataIndependent : Obligations.ControlIsDataIndependent := by
  intro i s
  have hblank := exec_blank i s
  exact ⟨fun t hx => blankOutcome_eq_next (hblank.trans (congrArg blankOutcome hx)),
    fun r hx => blankOutcome_eq_refused (hblank.trans (congrArg blankOutcome hx))⟩

end Sys2Proof.Machine
end
